-- ==== Sys2Proof/Word.lean ====
section
/-! DEFINITION. The kinds of value the block's data is made of (spec/00_scope.md R14, R15; spec/20_memory.md R50, R51). -/

namespace Sys2Proof

/-- A bit, 0 or 1 (R14). -/
abbrev Bit := Bool

/-- A bit sequence: a finite stream, element 0 produced first (R14). -/
abbrev Bits := List Bit

/-- A character byte or one colour channel of a pixel: 8 bits, unsigned (R11, R51). -/
abbrev Byte := BitVec 8

/-- A register's width: 32 bits (R26). -/
abbrev Word := BitVec 32

/-- A character code, an entry of `TXT` or `PWD`: `CHAR_W` = 32 bits, unsigned (R12, R21, R75). -/
abbrev Code := BitVec 32

/-- A pixel: red, green and blue, each 0 to 255 (R51). -/
structure Pixel where
  r : Byte
  g : Byte
  b : Byte
  deriving DecidableEq, Repr

/-- A position of the carrier: a pair of natural numbers, row and column (R50). -/
structure Pos where
  row : Nat
  col : Nat
  deriving DecidableEq, Repr

end Sys2Proof
end

