-- ==== Sys2Proof/Config.lean ====
section
/-! DEFINITION. What an implementation fixes (spec/00_scope.md R12, R13; spec/93_implementation_defined.md I1, I4, I5) and the
two values the spec leaves open (log 9, log 22). The parameters are ARGUMENTS of the model: State carries one `Params`, no step
changes it, so what is proved of every State is proved for every value of every parameter (log 7). -/

namespace Sys2Proof

/-- `MATCH_MIN`, the number of scanned bits from which the window is compared. "No other value is admitted" than 24 and 25
(R152), so the type has just the two. -/
inductive MatchMin where
  /-- 24: compare as soon as the window is full; the spec's value (R152, conflict C1). -/
  | fullWindow
  /-- 25: the literal "> 24" of the source's §4.5 (R152, conflict C1). -/
  | afterFullWindow
  deriving DecidableEq, Repr

/-- One row of a character set given as data: row `v` says what byte `v` stands for. -/
structure CharRow where
  /-- `DEC(v)`. -/
  code : Code
  /-- Whether `ENC` maps this code to byte `v`. -/
  canonical : Bool
  deriving DecidableEq, Repr

/-- `CHARSET`, the pair (`ENC`, `DEC`) of R12 and R75, as plain data. Every pair that R108 and I5 admit (`DEC` total on bytes and
`DEC(ENC(c)) = c` on every encodable `c`) is `latin1` or some `table` of 256 rows. DESIGN CHOICE (log 8). -/
inductive Charset where
  /-- The spec's value: `ENC(c) = c` for `c <= 255`, else unencodable; `DEC(v) = v` (R75). -/
  | latin1
  /-- Any other admitted character set, by its 256 rows. -/
  | table (rows : List CharRow)
  deriving DecidableEq, Repr

/-- The block's parameters (the table of R12). -/
structure Params where
  /-- `MATCH_MIN`. -/
  matchMin : MatchMin
  /-- `CHARSET`. -/
  charset : Charset
  /-- `MAX_TXT`, the maximum length of `TXT` in characters. -/
  maxTxt : Nat
  /-- `MAX_PWD`, the maximum length of `PWD` in characters; `KEYB` is bounded by `8 * MAX_PWD` (I1). -/
  maxPwd : Nat
  /-- `MAX_BITS`, the maximum length of `BITS`, `RAW` and `FRM` in bits. -/
  maxBits : Nat
  deriving DecidableEq, Repr

/-- The parameters of the machine right after reset: `MATCH_MIN` = 24 and Latin-1 as the spec gives them (R12); the three OPEN
bounds as large as a 32-bit length register shows (D34). DESIGN CHOICE for the bounds (log 7). -/
def Params.specDefault : Params where
  matchMin := .fullWindow
  charset := .latin1
  maxTxt := 2 ^ 32 - 1
  maxPwd := 2 ^ 29 - 1
  maxBits := 2 ^ 32 - 1

/-- FREE VALUE: what a length register shows of a length that 32 bits cannot hold. R32 gives `zext_32` of the length and D34
says that the bounds keep lengths below 2^32; for longer ones the spec states no value. DESIGN CHOICE (log 9), safe: nothing
can be proved of it. -/
opaque Config.lenBeyondWord : Nat → Word

/-- FREE VALUE: what a host read that breaks R321 puts into its variable, one value for each fault recorded before it. R250 and
R260 give such a read no value, and R320 gives a realisation none either. DESIGN CHOICE (log 22), safe: nothing can be proved
of it. -/
opaque Config.hazardRead : Nat → Word

end Sys2Proof
end

