-- ==== Sys2Proof/Syntax.lean ====
section
/-! DEFINITION. The commands: one constructor per row of spec/opcode_table.json (spec/30_encoding.md R77). No command has an
operand field (R70, R78), so no constructor has an argument. -/

namespace Sys2Proof

/-- The ten commands of the BSE command set, edition 1, in the order of R77. -/
inductive Instr where
  /-- `TXT` to `BITS` (R101). -/
  | enct
  /-- `PWD` to `KEYB` (R102). -/
  | enck
  /-- `BITS` to `TXT` (R107). -/
  | decb
  /-- `BITS` XOR the repeated `KEYB` (R131). -/
  | xork
  /-- Append the marker to `BITS` (R156). -/
  | fbld
  /-- Cut `BITS` before its first marker (R161). -/
  | fprs
  /-- `BITS` into the carrier's blue LSBs (R181). -/
  | embd
  /-- The carrier's blue LSBs into `BITS`, up to the marker (R201). -/
  | extr
  /-- The hide path (R230). -/
  | hide
  /-- The reveal path (R240). -/
  | rvel
  deriving DecidableEq, Repr

end Sys2Proof
end

