-- ==== Sys2Proof/Machine/HostLang.lean ====
section
/-! DEFINITION. The host's program notation (spec/30_encoding.md R81, R82) and the turns of the two agents
(spec/70_reset_and_hazards.md R322), as data. Labels are resolved: a branch names the index of a statement. -/

namespace Sys2Proof.Machine

/-- A register number of the register index space: 4 bits (R26, R36). -/
abbrev Reg := BitVec 4

/-- A host variable, by number; the notation's lower-case names are these numbers (R81, log 3). -/
abbrev Var := Nat

/-- A value or a host variable standing in its place (R81). -/
inductive Arg where
  | imm (v : Word)
  | var (x : Var)
  deriving DecidableEq, Repr

/-- One statement of a host program: the rows of R81's table, and R82's `RUN` taken as one step (R323, log 5). -/
inductive Stmt where
  /-- `WR reg, v`: a host register write. -/
  | wr (reg : Reg) (v : Arg)
  /-- `RD reg, t`: a host register read. -/
  | rd (reg : Reg) (t : Var)
  /-- `PIXWR row, col, r, g, b`: a host carrier write. R81 lets a host variable stand for `v` and `imm`; that one may stand for
  these five operands too is the model's DESIGN CHOICE (log 21). -/
  | pixWr (row col r g b : Arg)
  /-- `PIXRD row, col, t`: a host carrier read. That a host variable may stand for `row` and `col` is the model's DESIGN CHOICE
  (log 21). -/
  | pixRd (row col : Arg) (t : Var)
  /-- `ANDI t, u, imm`. -/
  | andi (t u : Var) (v : Arg)
  /-- `SHRI t, u, imm`. -/
  | shri (t u : Var) (v : Arg)
  /-- `ADDI t, u, imm`. -/
  | addi (t u : Var) (v : Arg)
  /-- `BEQ t, imm, label`. -/
  | beq (t : Var) (v : Arg) (label : Nat)
  /-- `BNE t, imm, label`. -/
  | bne (t : Var) (v : Arg) (label : Nat)
  /-- `JMP label`. -/
  | jmp (label : Nat)
  /-- `HALT`. -/
  | halt
  /-- `RUN`: write command word `v` to `CMD` and poll `STATUS` into `t` until `BUSY` reads 0, as ONE step. That `t` is an operand is
  the model's DESIGN CHOICE (log 27). -/
  | run (t : Var) (v : Arg)
  deriving DecidableEq, Repr

/-- The pseudo-instructions of R82. -/
inductive Pseudo where
  | cmd (i : Instr)
  /-- `WAIT`. R82 writes it with no operand and its expansion reads into `t`; that the polled variable is an operand here, and so of
  the program's choice, is the model's DESIGN CHOICE (log 27). -/
  | wait (t : Var)
  /-- `RUN mn`, the polled variable an operand as for `WAIT`: DESIGN CHOICE (log 27). -/
  | run (t : Var) (i : Instr)
  | err (t : Var)
  | xstate (t : Var)
  /-- `SETCAR w, h`, of two values. R81 lets a host variable stand for `v` and `imm` and is silent on `w` and `h`; that none stands
  for them is the model's DESIGN CHOICE (log 21). -/
  | setcar (w h : Word)
  | ldtxt (codes : List Code)
  | ldpwd (codes : List Code)
  | ldbits (bits : Bits)
  deriving DecidableEq, Repr

/-- Whose move it is: one host operation, one engine step, or the host applying the reset input (R310, R322). -/
inductive Turn where
  | host
  | engine
  | reset
  deriving DecidableEq, Repr

end Sys2Proof.Machine
end

