-- ==== Sys2Proof/WellFormed.lean ====
section
/-! DEFINITION. Which terms the spec gives a meaning at all: commands, parameters (spec/00_scope.md R12, R13;
spec/93_implementation_defined.md I1, I3, I4, I5) and host programs (spec/30_encoding.md R81). -/

namespace Sys2Proof

/-- Every command is well formed: it has no operand field that could hold a wrong value (R70, R78, R80). -/
def Instr.wellFormed : Instr → Bool
  | .enct => true
  | .enck => true
  | .decb => true
  | .xork => true
  | .fbld => true
  | .fprs => true
  | .embd => true
  | .extr => true
  | .hide => true
  | .rvel => true

/-- A character set gives every byte a code (I5: `DEC` total on bytes). -/
def Charset.wellFormed : Charset → Bool
  | .latin1 => true
  | .table rows => rows.length == 256

/-- `MAX_BITS` is from 24 to 2^32 - 1 (R12, R13); `MAX_TXT` and `MAX_PWD` are any natural numbers. -/
def Params.wellFormed (p : Params) : Bool :=
  p.charset.wellFormed && decide (24 ≤ p.maxBits) && decide (p.maxBits < 2 ^ 32)

namespace Machine

/-- Register numbers 13, 14 and 15 are reserved (R36). -/
def Reg.wellFormed (n : Reg) : Bool := decide (n.toNat < 13)

/-- A statement of a program of `len` statements: it names no reserved register (I3), and a label it names is one of
the program's statements (R81). -/
def Stmt.wellFormed (len : Nat) : Stmt → Bool
  | .wr reg _ => Reg.wellFormed reg
  | .rd reg _ => Reg.wellFormed reg
  | .beq _ _ label => decide (label < len)
  | .bne _ _ label => decide (label < len)
  | .jmp label => decide (label < len)
  | .pixWr .. => true
  | .pixRd .. => true
  | .andi .. => true
  | .shri .. => true
  | .addi .. => true
  | .halt => true
  | .run .. => true

/-- A host program every statement of which is well formed. -/
def Program.wellFormed (prog : List Stmt) : Bool := prog.all (Stmt.wellFormed prog.length)

end Machine

end Sys2Proof
end

