-- ==== Sys2Proof/Decode.lean ====
section
/-! DEFINITION. The command word (spec/30_encoding.md R70, R71, R77, R79): the decoder, total on all 2^32 words and rejecting by
name, and the encoder. -/

namespace Sys2Proof

/-- What a word written to `CMD` is (R71). -/
inductive Decoded where
  /-- A defined command word. -/
  | command (i : Instr)
  /-- Reserved: bits `[31:4]` are not 0. -/
  | reservedField
  /-- Reserved: bits `[31:4]` are 0 and no row of R77 has this `OPC` (0x0 and 0xB to 0xF). -/
  | reservedOpcode
  deriving DecidableEq, Repr

/-- The field `OPC` of a command word: bits `[3:0]` (R70). -/
def opcField (v : Word) : BitVec 4 := v.extractLsb' 0 4

/-- The field `RSV` of a command word: bits `[31:4]` (R70). -/
def rsvField (v : Word) : BitVec 28 := v.extractLsb' 4 28

/-- The opcode map, read by `OPC` (R77). -/
def opcodeRow (opc : BitVec 4) : Decoded :=
  match opc.toNat with
  | 0x1 => .command .enct
  | 0x2 => .command .enck
  | 0x3 => .command .decb
  | 0x4 => .command .xork
  | 0x5 => .command .fbld
  | 0x6 => .command .fprs
  | 0x7 => .command .embd
  | 0x8 => .command .extr
  | 0x9 => .command .hide
  | 0xA => .command .rvel
  | _ => .reservedOpcode

/-- The decoder (R71). -/
def decode (v : Word) : Decoded :=
  if rsvField v ≠ 0 then .reservedField else opcodeRow (opcField v)

/-- The command word of a command: the column `word` of R77. -/
def encode : Instr → Word
  | .enct => 0x00000001
  | .enck => 0x00000002
  | .decb => 0x00000003
  | .xork => 0x00000004
  | .fbld => 0x00000005
  | .fprs => 0x00000006
  | .embd => 0x00000007
  | .extr => 0x00000008
  | .hide => 0x00000009
  | .rvel => 0x0000000A

/-- The command of a decoded word, if it is one. -/
def Decoded.instr? : Decoded → Option Instr
  | .command i => some i
  | .reservedField => none
  | .reservedOpcode => none

/-- The 32-bit word whose low `nbits` bits are `w` and whose other bits are 0, numbered as spec/opcode_table.json numbers them:
every command is one 32-bit word, taken whole (R68, R70). -/
def tableWord (nbits w : Nat) : Word := BitVec.ofNat 32 (w % 2 ^ nbits)

/-- What the decoder reads from a word given in the table's numbering; no command is longer than 32 bits (R80). -/
def decodeTableWord (nbits w : Nat) : Option Instr :=
  if nbits ≤ 32 then (decode (tableWord nbits w)).instr? else none

end Sys2Proof
end

