-- ==== Sys2Proof/Machine/State.lean ====
section
/-! DEFINITION. The state of the machine as plain data (spec/10_state.md R20 to R45, spec/20_memory.md R50, spec/30_encoding.md R81,
spec/70_reset_and_hazards.md R322), its state after reset, the faults it records and the reasons a step can be refused. -/

namespace Sys2Proof.Machine

/-- The extractor state shown in `STATUS.XST` (R31, R203). -/
inductive Xst where
  /-- 0: no scan since reset. -/
  | idle
  /-- 1: a scan is running. -/
  | scanning
  /-- 2: the last scan matched the marker. -/
  | found
  /-- 3: the last scan read every pixel without a match. -/
  | exhausted
  deriving DecidableEq, Repr

/-- The four error kinds, and no other (R280). -/
inductive CmdError where
  | degenerateKey
  | insufficientCapacity
  | markerNotFound
  | unencodableCharacter
  deriving DecidableEq, Repr

/-- The tagged result of a function: `OK v` or `ERR E` (R17). -/
inductive Result (α : Type) where
  | ok (v : α)
  | err (e : CmdError)
  deriving DecidableEq, Repr

/-- The detector unit's registers: the window `WIN` and the count `NCNT` (R40, R150). -/
structure Detector where
  win : BitVec 24
  ncnt : Nat
  deriving DecidableEq, Repr

/-- A fault the model records (R320). It is a mark kept in the field `faults` of the state, and the run goes on; no step answers
`Host.Outcome.fault`, which would leave no state to hold the mark (log 6). -/
inductive Fault where
  /-- `HostHazard`, recorded by a host operation on the block or the carrier while `BUSY = 1`, other than a read of `STATUS` (R321,
  I6), and by a command issued while `BUSY = 1` (R252). Unsafe for claims about a realisation after a hazard, which a claim
  with no fault recorded is not about (log 6). -/
  | hostHazard
  deriving DecidableEq, Repr

/-- The whole state: the block's (R44), the carrier it is bound to (R45, R50), its parameters (R12), the host (R81), the schedule
of the agents (R322) and the faults recorded (R320). -/
structure State where
  /-- `TXT`, the message buffer (R21). -/
  txt : List Code
  /-- `PWD`, the password buffer (R22). -/
  pwd : List Code
  /-- `BITS`, the working bit buffer (R23). -/
  bits : Bits
  /-- `KEYB`, the keystream buffer (R24). -/
  keyb : Bits
  /-- `STATUS.BUSY` (R29). -/
  busy : Bool
  /-- `STATUS.ERRCODE` (R30). -/
  errcode : BitVec 3
  /-- `STATUS.XST` (R31). -/
  xst : Xst
  /-- `CAR_W`, the carrier's width (R33). -/
  carW : BitVec 16
  /-- `CAR_H`, the carrier's height (R33). -/
  carH : BitVec 16
  /-- `IDX`, the element index of the data windows (R34). -/
  idx : Word
  /-- `PEND`, the command in progress (R38). -/
  pend : Option Instr
  /-- `PIX`, the index of the next pixel to visit (R39). -/
  pix : Nat
  /-- `WIN`, the detector's window (R40). -/
  win : BitVec 24
  /-- `NCNT`, the detector's bit count (R40). -/
  ncnt : Nat
  /-- `RAW`, the bits read so far by EXTR or RVEL (R41). -/
  raw : Bits
  /-- `FRM`, the frame being embedded by EMBD or HIDE (R41). -/
  frm : Bits
  /-- Step 1 of the running EMBD or HIDE is done (implied by R182 and R230; DEDUCED, log 10). -/
  checked : Bool
  /-- The carrier: its channel bytes by address, strictly rising, none of them 0 (R50, R51; log 1, log 2). -/
  carrier : List Host.Cell
  /-- The parameters of R12; no step changes them (log 7). -/
  params : Params
  /-- The host's program (R81; log 3). -/
  prog : List Stmt
  /-- The index of the host's next statement (R81). -/
  hpc : Nat
  /-- The host variables that are not 0, by number, strictly rising (R81). -/
  vars : List (Nat × Word)
  /-- The host has executed `HALT` (R81, R325). -/
  halted : Bool
  /-- The coming turns, first one first (R322; log 4). -/
  sched : List Turn
  /-- The faults recorded so far, newest first; the run carries the mark of R320 while the list is not empty. No step, reset
  included, removes one (log 6). -/
  faults : List Fault
  deriving DecidableEq, Repr

/-- Why a step has no meaning: the outcome `refused`, after which "no step exists" (93_implementation_defined.md, `refuse`), so
that outcome is the mark of R320 (log 6). -/
inductive Refusal where
  /-- Raised by `exec` alone, for an instruction that has no meaning yet. Safe. -/
  | notModelled (mnemonic : String)
  /-- Raised by a write of a word with a non-zero `RSV` field to `CMD` (R79, I2). Safe: a realisation may do anything. -/
  | reservedField
  /-- Raised by a write of a word with an unassigned `OPC` to `CMD` (R79, I2). Safe: a realisation may do anything. -/
  | reservedOpcode
  /-- Raised by a host read or write of register number 13, 14 or 15 (R36, I3). Safe: the access has no meaning. -/
  | reservedRegister
  /-- Raised by a host write or a command whose `TXT` would exceed `MAX_TXT` (R13, R32, I1). Safe. -/
  | txtBound
  /-- Raised by a host write whose `PWD` would exceed `MAX_PWD` (R13, R32, I1). Safe. -/
  | pwdBound
  /-- Raised by a host write or a command whose `BITS`, `FRM` or `RAW` would exceed `MAX_BITS` (R13, R32, I1; log 11). Safe. -/
  | bitsBound
  /-- Raised by a command whose `KEYB` would exceed `8 * MAX_PWD` (I1). Safe. -/
  | keybBound
  /-- Raised by a host carrier write of a channel value above 255 (R51, I7; log 13). Safe: the spec offers the host no such
  move. -/
  | channelRange
  deriving DecidableEq, Repr

/-- The outcome of a step or of a part of one. -/
abbrev Out := Host.Outcome State Fault Refusal

/-- The machine right after reset (R44, R310): the block's state as the spec gives it; the carrier, the parameters, the host
and the schedule as the log says (log 1, 3, 4, 7, 10); no fault recorded (log 6). -/
def State.reset : State where
  txt := []
  pwd := []
  bits := []
  keyb := []
  busy := false
  errcode := 0
  xst := .idle
  carW := 0
  carH := 0
  idx := 0
  pend := none
  pix := 0
  win := 0
  ncnt := 0
  raw := []
  frm := []
  checked := false
  carrier := []
  params := Params.specDefault
  prog := []
  hpc := 0
  vars := []
  halted := false
  sched := []
  faults := []

end Sys2Proof.Machine
end

