-- ==== Sys2Proof/Machine/Operands.lean ====
section
/-! DEFINITION. The operand forms: how bytes, characters, the marker and pixels carry bits (spec/30_encoding.md R72 to R76), and
where a pixel stands in the carrier (spec/20_memory.md R54; spec/00_scope.md R11). -/

namespace Sys2Proof.Machine

/-! Bytes and bits. -/

/-- A bit as a number: 0 or 1 (R14). -/
def bitNat (b : Bit) : Nat := if b then 1 else 0

/-- `bits8(v)`: the 8 bits of a byte, bit 7 first (R57, R73). -/
def bits8 (v : Byte) : Bits :=
  [v.getLsbD 7, v.getLsbD 6, v.getLsbD 5, v.getLsbD 4, v.getLsbD 3, v.getLsbD 2, v.getLsbD 1, v.getLsbD 0]

/-- `byte8([a0, …, a7])`: a group of 8 bits as an unsigned number, `a0` the most significant (R74). -/
def byte8 (a0 a1 a2 a3 a4 a5 a6 a7 : Bit) : Byte :=
  BitVec.ofNat 8 (bitNat a0 * 128 + bitNat a1 * 64 + bitNat a2 * 32 + bitNat a3 * 16 + bitNat a4 * 8 + bitNat a5 * 4
    + bitNat a6 * 2 + bitNat a7)

/-- The bits of a byte sequence, in byte order (R73). -/
def bitsOfBytes : List Byte → Bits
  | [] => []
  | v :: rest => bits8 v ++ bitsOfBytes rest

/-! The marker. -/

/-- `MARKER`: 22 zero bits, then 2 one bits (R72). -/
def marker : Bits := List.replicate 22 false ++ List.replicate 2 true

/-- `MARKER` as a 24-bit number, the earliest bit most significant (R72, R150). -/
def markerWindow : BitVec 24 := 0x000003

/-- The number of bits scanned from which the window is compared (R152). -/
def matchMinBits : MatchMin → Nat
  | .fullWindow => 24
  | .afterFullWindow => 25

/-! Characters: `ENC` and `DEC` of the parameter `CHARSET` (R75). -/

/-- `ENC` of a character set given by its rows: the first byte from `v` on whose row has this code and is canonical. -/
def encInRows (c : Code) : List CharRow → Nat → Option Byte
  | [], _ => none
  | row :: rows, v =>
    if row.canonical && row.code == c && decide (v < 256) then some (BitVec.ofNat 8 v) else encInRows c rows (v + 1)

/-- `ENC(c)`: the byte of a character code, or `none` if it is unencodable (R75). -/
def encChar (cs : Charset) (c : Code) : Option Byte :=
  match cs with
  | .latin1 => if c.toNat ≤ 255 then some (c.setWidth 8) else none
  | .table rows => encInRows c rows 0

/-- `DEC(v)`: the character code of a byte (R75). -/
def decChar (cs : Charset) (v : Byte) : Code :=
  match cs with
  | .latin1 => v.setWidth 32
  | .table rows => match rows[v.toNat]? with
    | some row => row.code
    | none => 0

/-! Pixels. -/

/-- The bit a pixel carries: bit 0 of blue (R76). -/
def pixelBit (px : Pixel) : Bit := px.b.getLsbD 0

/-- A blue channel made to carry bit `d`: `(b & 0xFE) | d` (R76). -/
def withBit (b : Byte) (d : Bit) : Byte := (b &&& 0xFE) ||| BitVec.ofNat 8 (bitNat d)

/-- A pixel made to carry bit `d`; red, green and the rest of blue stay (R76). -/
def withBlueBit (px : Pixel) (d : Bit) : Pixel := ⟨px.r, px.g, withBit px.b d⟩

/-- `pos(i)`: the position of the `i`-th visited pixel of a carrier of width `w`, in row-major order (R54). -/
def posAt (w i : Nat) : Pos := ⟨i / w, i % w⟩

/-- The address of a pixel's red byte; green and blue follow it. The key depends on the position alone, not on `CAR_W`; rows
hold 2^32 columns (log 2). DESIGN CHOICE. -/
def redAddr (p : Pos) : Nat := (p.row * 2 ^ 32 + p.col) * 3

/-- The address of a pixel's green byte (log 2). -/
def greenAddr (p : Pos) : Nat := redAddr p + 1

/-- The address of a pixel's blue byte (log 2). -/
def blueAddr (p : Pos) : Nat := redAddr p + 2

end Sys2Proof.Machine
end

