-- ==== Sys2Proof/Machine/Flags.lean ====
section
/-! DEFINITION. The status word, the block's only flags (spec/10_state.md R28 to R31, R43), the codes of its fields,
and the detector's match (spec/42_frame_marker_detector.md R150). -/

namespace Sys2Proof.Machine

/-- The code of an error kind in `STATUS.ERRCODE` (R30, R280). -/
def CmdError.code : CmdError → BitVec 3
  | .degenerateKey => 1
  | .insufficientCapacity => 2
  | .markerNotFound => 3
  | .unencodableCharacter => 4

/-- The value of `STATUS.XST` for each extractor state (R31). -/
def Xst.code : Xst → BitVec 2
  | .idle => 0
  | .scanning => 1
  | .found => 2
  | .exhausted => 3

/-- `STATUS`: `zext_32(XST << 4 | ERRCODE << 1 | BUSY)` (R28). -/
def statusWord (s : State) : Word :=
  (s.xst.code.setWidth 32 <<< 4) ||| (s.errcode.setWidth 32 <<< 1) ||| BitVec.ofNat 32 s.busy.toNat

/-- One detector step for a scanned bit `d`: shift it into the window and count it (R150). -/
def Detector.scanBit (x : Detector) (d : Bit) : Detector :=
  ⟨(x.win <<< 1) ||| BitVec.ofNat 24 d.toNat, x.ncnt + 1⟩

/-- `match`: enough bits scanned, and the window equals the marker (R150). -/
def Detector.isMatch (m : MatchMin) (x : Detector) : Bool :=
  decide (matchMinBits m ≤ x.ncnt) && x.win == markerWindow

end Sys2Proof.Machine
end

