-- ==== Sys2Proof/Machine/Ops.lean ====
section
/-! DEFINITION. The named operations on the state that the commands and the host share: the sparse stores, the carrier
(spec/20_memory.md R50 to R54), the buffers' bounds (spec/00_scope.md R13), acceptance (spec/46_host_interface.md R252), the two
completions (spec/60_exceptions.md R281, R282), reset (spec/70_reset_and_hazards.md R310, R311) and the engine's run of one
command (R322, R323). -/

namespace Sys2Proof.Machine

/-! Sparse stores: lists of (key, value), keys strictly rising, no value equal to the default `d` of an unlisted key. -/

/-- The value at key `a`. -/
def Store.get {β : Type} (d : β) : List (Nat × β) → Nat → β
  | [], _ => d
  | c :: l, a => if c.1 = a then c.2 else Store.get d l a

/-- The store without key `a`. -/
def Store.erase {β : Type} (l : List (Nat × β)) (a : Nat) : List (Nat × β) := l.filter fun c => c.1 != a

/-- The store with a new key `a`, put before the first greater one. -/
def Store.insert {β : Type} : List (Nat × β) → Nat → β → List (Nat × β)
  | [], a, v => [(a, v)]
  | c :: l, a, v => if a < c.1 then (a, v) :: c :: l else c :: Store.insert l a v

/-- The store with value `v` at key `a`; the default value leaves the key unlisted. -/
def Store.set {β : Type} [DecidableEq β] (d : β) (l : List (Nat × β)) (a : Nat) (v : β) : List (Nat × β) :=
  if v = d then Store.erase l a else Store.insert (Store.erase l a) a v

/-- The canonical form: keys strictly rising, no default value listed. -/
abbrev Store.wf {β : Type} [DecidableEq β] (d : β) (l : List (Nat × β)) : Prop :=
  l.Pairwise (fun x y => x.1 < y.1) ∧ ∀ c ∈ l, c.2 ≠ d

/-! The carrier. -/

/-- What a channel byte that nothing has written reads as: 0, a black image (log 1). DESIGN CHOICE. -/
def Memory.unlisted : Byte := 0

/-- One channel byte of the carrier. -/
def Memory.read (m : List Host.Cell) (a : Nat) : Byte := Store.get Memory.unlisted m a

/-- The carrier with one channel byte written. -/
def Memory.write (m : List Host.Cell) (a : Nat) (v : Byte) : List Host.Cell := Store.set Memory.unlisted m a v

/-- The carrier's canonical form. -/
abbrev Memory.wf (m : List Host.Cell) : Prop := Store.wf Memory.unlisted m

/-- `MemRead(p, 1)`: the whole pixel at position `p` (R52). -/
def memRead (m : List Host.Cell) (p : Pos) : Pixel :=
  ⟨Memory.read m (redAddr p), Memory.read m (greenAddr p), Memory.read m (blueAddr p)⟩

/-- `MemWrite(p, 1, px)`: the whole pixel at position `p` replaced (R53). -/
def memWrite (m : List Host.Cell) (p : Pos) (px : Pixel) : List Host.Cell :=
  Memory.write (Memory.write (Memory.write m (redAddr p) px.r) (greenAddr p) px.g) (blueAddr p) px.b

/-- The number of pixels of the carrier, `W * H`, exact (R33, R180). -/
def State.capacity (s : State) : Nat := s.carW.toNat * s.carH.toNat

/-- The position of the next pixel the engine visits (R39, R54). -/
def State.nextPos (s : State) : Pos := posAt s.carW.toNat s.pix

/-! Buffers. -/

/-- A buffer resized to `n` entries: cut short, or filled up with `fill` (R32). -/
def resize {α : Type} (fill : α) (n : Nat) (l : List α) : List α :=
  if n ≤ l.length then l.take n else l ++ List.replicate (n - l.length) fill

/-- What a length register shows of a length (R32); a length beyond 32 bits shows a free value (log 9). -/
def lenView (n : Nat) : Word := if n < 2 ^ 32 then BitVec.ofNat 32 n else Config.lenBeyondWord n

/-- Go on if a buffer of `len` entries keeps its bound, else refuse (R13, I1). -/
def within (len bound : Nat) (why : Refusal) (k : Out) : Out := if len ≤ bound then k else .refused why

/-! Acceptance and completion. -/

/-- What every command's acceptance does: `PEND <- op`, `BUSY <- 1` (R252). Step 1 of the command is still to come (log 10). -/
def State.begin (s : State) (i : Instr) : State := { s with pend := some i, busy := true, checked := false }

/-- The command's own acceptance actions (R252, R182, R202, R230, R240). -/
def accept (i : Instr) (s : State) : State :=
  match i with
  | .enct => s.begin .enct
  | .enck => s.begin .enck
  | .decb => s.begin .decb
  | .xork => s.begin .xork
  | .fbld => s.begin .fbld
  | .fprs => s.begin .fprs
  | .embd => { s.begin .embd with frm := s.bits, pix := 0 }
  | .extr => { s.begin .extr with xst := .scanning, raw := [], win := 0, ncnt := 0, pix := 0 }
  | .hide => { s.begin .hide with pix := 0 }
  | .rvel => { s.begin .rvel with xst := .scanning, raw := [], win := 0, ncnt := 0, pix := 0 }

/-- What both completions do: clear `RAW`, `FRM` and `PIX`, write `ERRCODE`, `PEND <- none`, clear `BUSY` (R281, R282). -/
def State.finish (s : State) (code : BitVec 3) : State :=
  { s with raw := [], frm := [], pix := 0, checked := false, errcode := code, pend := none, busy := false }

/-- Successful completion; the caller has committed the buffer results (R281). -/
def State.complete (s : State) : State := s.finish 0

/-- Failed completion, `raise e`: no buffer result is committed (R282). -/
def State.raise (s : State) (e : CmdError) : State := s.finish e.code

/-- One scanned bit through the detector unit (R150). -/
def State.detector (s : State) : Detector := ⟨s.win, s.ncnt⟩

/-- The reset input: the block's state takes its reset values; the carrier (R311), the parameters, the host's own state (log 17)
and the faults recorded (R320) stay. -/
def State.resetBlock (s : State) : State :=
  { State.reset with
    carrier := s.carrier, params := s.params, prog := s.prog, hpc := s.hpc, vars := s.vars, halted := s.halted
    sched := s.sched, faults := s.faults }

/-! Faults. -/

/-- The fault `HostHazard` recorded (R320, R321). The operation that breaks R321 has no other effect on the block or the carrier,
as "the model gives it none" (R320; log 6). -/
def State.recordHazard (s : State) : State := { s with faults := .hostHazard :: s.faults }

/-! The engine's run of one command. -/

/-- The most engine steps a command takes: `W * H + 2` (R253). -/
def State.stepBound (s : State) : Nat := s.capacity + 2

/-- At most `n` engine steps `eng` of the running command, up to its completion (R322). -/
def drive (eng : State → Out) : Nat → State → Out
  | 0, s => .next s
  | n + 1, s =>
    match eng s with
    | .next t => if t.pend.isNone then .next t else drive eng n t
    | .fault r => .fault r
    | .refused r => .refused r

/-- A whole command: acceptance, which while `BUSY = 1` is a `HostHazard` instead and only records it (R252, R320), then its engine
steps up to completion. No host operation falls between them, so this is the command collapsed into one step (R323). -/
def runCommand (i : Instr) (eng : State → Out) (s : State) : Out :=
  if s.busy then .next s.recordHazard else drive eng s.stepBound (accept i s)

end Sys2Proof.Machine
end

