-- ==== Sys2Proof/Machine/Functions.lean ====
section
/-! DEFINITION. The seven functions of the five sub-blocks (spec/00_scope.md R17): encodeText, decodeBits, apply, build, parse,
embed, extract. -/

namespace Sys2Proof.Machine

/-- `encodeText(S)`: the bytes of the characters, bit 7 first, in character order; fails at the first unencodable one (R100). -/
def encodeText (cs : Charset) : List Code → Result Bits
  | [] => .ok []
  | c :: rest =>
    match encChar cs c with
    | none => .err .unencodableCharacter
    | some e =>
      match encodeText cs rest with
      | .ok out => .ok (bits8 e ++ out)
      | .err x => .err x

/-- `decodeBits(B)`: each whole group of 8 bits as a character; the trailing bits are dropped (R106). -/
def decodeBits (cs : Charset) : Bits → List Code
  | a0 :: a1 :: a2 :: a3 :: a4 :: a5 :: a6 :: a7 :: rest =>
    decChar cs (byte8 a0 a1 a2 a3 a4 a5 a6 a7) :: decodeBits cs rest
  | _ => []

/-- `result[i] = bits[i] XOR key[i mod len(key)]`, with `i` counted from the first argument on (R130). -/
def xorFrom (key : Bits) : Nat → Bits → Bits
  | _, [] => []
  | i, b :: rest => (b ^^ key.getD (i % key.length) false) :: xorFrom key (i + 1) rest

/-- `apply(bits, keyBits)`: the repeating-key XOR; an empty key is degenerate whatever the bits are (R130). -/
def applyKey (bits key : Bits) : Result Bits :=
  if key.length = 0 then .err .degenerateKey else .ok (xorFrom key 0 bits)

/-- `build(cipherBits)`: the marker appended (R155). -/
def build (c : Bits) : Bits := c ++ marker

/-- The detector over a bit sequence, up to and including the first match (R150, R153): its registers then, and whether it
matched. -/
def scan (m : MatchMin) : Detector → Bits → Detector × Bool
  | x, [] => (x, false)
  | x, d :: rest => if (x.scanBit d).isMatch m then (x.scanBit d, true) else scan m (x.scanBit d) rest

/-- The detector at the start of a scan: `WIN <- 0`, `NCNT <- 0` (R150). -/
def Detector.start : Detector := ⟨0, 0⟩

/-- `parse(raw)`: what stands before the first 24-bit window that matches (R160). -/
def parse (m : MatchMin) (raw : Bits) : Result Bits :=
  match scan m Detector.start raw with
  | (x, true) => .ok (raw.take (x.ncnt - 24))
  | (_, false) => .err .markerNotFound

/-- The pixels from index `i` on made to carry the bits of `f`, in row-major order (R180). -/
def embedFrom (w : Nat) : List Host.Cell → Nat → Bits → List Host.Cell
  | m, _, [] => m
  | m, i, d :: rest => embedFrom w (memWrite m (posAt w i) (withBlueBit (memRead m (posAt w i)) d)) (i + 1) rest

/-- `embed(carrier, frameBits)` on a carrier of `w` by `h` pixels (R180). -/
def embed (w h : Nat) (m : List Host.Cell) (f : Bits) : Result (List Host.Cell) :=
  if w * h < f.length then .err .insufficientCapacity else .ok (embedFrom w m 0 f)

/-- The blue LSBs of the first `n` pixels, in row-major order (R200). -/
def blueBits (w : Nat) (m : List Host.Cell) (n : Nat) : Bits := (List.range n).map fun i => pixelBit (memRead m (posAt w i))

/-- `extract(carrier)` on a carrier of `w` by `h` pixels: the blue LSBs up to and including the first match (R200). -/
def extract (mm : MatchMin) (w h : Nat) (m : List Host.Cell) : Result Bits :=
  match scan mm Detector.start (blueBits w m (w * h)) with
  | (x, true) => .ok (blueBits w m x.ncnt)
  | (_, false) => .err .markerNotFound

end Sys2Proof.Machine
end

