-- ==== Sys2Proof/Machine/Cipher.lean ====
section
/-! DEFINITION. The repeating_key_xor_cipher sub-block: XORK (spec/41_repeating_key_xor_cipher.md R131). -/

namespace Sys2Proof.Machine

/-- The engine step of XORK: `BITS` XOR the repeated `KEYB`, into `BITS` (R131). -/
def engineXork (s : State) : Out :=
  match applyKey s.bits s.keyb with
  | .err e => .next (s.raise e)
  | .ok out => .next { s with bits := out }.complete

/-- XORK, apply keystream (R131). -/
def execXork (s : State) : Out := runCommand .xork engineXork s

end Sys2Proof.Machine
end

