-- ==== Sys2Proof/Machine/Codec.lean ====
section
/-! DEFINITION. The bit_stream_encoder sub-block: ENCT, ENCK, DECB (spec/40_bit_stream_encoder.md). Each completes in one engine
step (spec/70_reset_and_hazards.md R322). -/

namespace Sys2Proof.Machine

/-- The engine step of ENCT: `TXT` encoded into `BITS` (R101); a result over `MAX_BITS` is refused (I1). -/
def engineEnct (s : State) : Out :=
  match encodeText s.params.charset s.txt with
  | .err e => .next (s.raise e)
  | .ok out => within out.length s.params.maxBits .bitsBound (.next { s with bits := out }.complete)

/-- The engine step of ENCK: `PWD` encoded into `KEYB` (R102); a result over `8 * MAX_PWD` is refused (I1). -/
def engineEnck (s : State) : Out :=
  match encodeText s.params.charset s.pwd with
  | .err e => .next (s.raise e)
  | .ok out => within out.length (8 * s.params.maxPwd) .keybBound (.next { s with keyb := out }.complete)

/-- The engine step of DECB: `BITS` decoded into `TXT` (R107); a result over `MAX_TXT` is refused (I1). -/
def engineDecb (s : State) : Out :=
  within (decodeBits s.params.charset s.bits).length s.params.maxTxt .txtBound
    (.next { s with txt := decodeBits s.params.charset s.bits }.complete)

/-- ENCT, encode message (R101). -/
def execEnct (s : State) : Out := runCommand .enct engineEnct s

/-- ENCK, encode password (R102). -/
def execEnck (s : State) : Out := runCommand .enck engineEnck s

/-- DECB, decode bits (R107). -/
def execDecb (s : State) : Out := runCommand .decb engineDecb s

end Sys2Proof.Machine
end

