-- ==== Sys2Proof/Machine/Framing.lean ====
section
/-! DEFINITION. The frame_marker_detector sub-block: FBLD, FPRS (spec/42_frame_marker_detector.md R156, R161). -/

namespace Sys2Proof.Machine

/-- The engine step of FBLD: the marker appended to `BITS` (R156); a result over `MAX_BITS` is refused (I1). -/
def engineFbld (s : State) : Out :=
  within (build s.bits).length s.params.maxBits .bitsBound (.next { s with bits := build s.bits }.complete)

/-- The detector unit run over `BITS` from its start, its registers left as the scan ends (R150, R160; log 16). -/
def State.scanBits (s : State) : State :=
  { s with
    win := (scan s.params.matchMin Detector.start s.bits).1.win
    ncnt := (scan s.params.matchMin Detector.start s.bits).1.ncnt }

/-- The engine step of FPRS: `BITS` cut before its first marker (R161). -/
def engineFprs (s : State) : Out :=
  match parse s.params.matchMin s.bits with
  | .err e => .next (s.scanBits.raise e)
  | .ok out => .next { s.scanBits with bits := out }.complete

/-- FBLD, append marker (R156). -/
def execFbld (s : State) : Out := runCommand .fbld engineFbld s

/-- FPRS, parse frame (R161). -/
def execFprs (s : State) : Out := runCommand .fprs engineFprs s

end Sys2Proof.Machine
end

