-- ==== Sys2Proof/Machine/Embedder.lean ====
section
/-! DEFINITION. The lsb_pixel_embedder sub-block: EMBD (spec/43_lsb_pixel_embedder.md R181, R182). -/

namespace Sys2Proof.Machine

/-- One pixel step of an embedding: the next pixel read, and written with bit `d` in its blue LSB (R182). -/
def State.embedPixel (s : State) (d : Bit) : State :=
  { s with
    carrier := memWrite s.carrier s.nextPos (withBlueBit (memRead s.carrier s.nextPos) d)
    pix := s.pix + 1 }

/-- An engine step of EMBD: the check, then a pixel step while `PIX < len(FRM)`, then the completion (R182). -/
def engineEmbd (s : State) : Out :=
  if s.checked then
    match s.frm[s.pix]? with
    | some d => .next (s.embedPixel d)
    | none => .next s.complete
  else if s.capacity < s.frm.length then .next (s.raise .insufficientCapacity)
  else .next { s with checked := true }

/-- EMBD, embed frame (R181). -/
def execEmbd (s : State) : Out := runCommand .embd engineEmbd s

end Sys2Proof.Machine
end

