-- ==== Sys2Proof/Machine/Extractor.lean ====
section
/-! DEFINITION. The lsb_pixel_extractor sub-block: EXTR (spec/44_lsb_pixel_extractor.md R201 to R203). -/

namespace Sys2Proof.Machine

/-- The state after one pixel step of a scan: the next pixel's bit appended to `RAW` and through the detector, and `XST` FOUND
on a match (R202). -/
def State.readPixel (s : State) : State :=
  { s with
    raw := s.raw ++ [pixelBit (memRead s.carrier s.nextPos)]
    win := (s.detector.scanBit (pixelBit (memRead s.carrier s.nextPos))).win
    ncnt := (s.detector.scanBit (pixelBit (memRead s.carrier s.nextPos))).ncnt
    pix := s.pix + 1
    xst := if (s.detector.scanBit (pixelBit (memRead s.carrier s.nextPos))).isMatch s.params.matchMin then .found
      else s.xst }

/-- An engine step of a scan that `found` completes: a pixel step while SCANNING and pixels remain, the failing completion when
none remains (R202, R203). `RAW` over `MAX_BITS` is refused (I1). With `XST` IDLE or EXHAUSTED no rule gives a running scan
a step, and no run comes there (log 12). -/
def scanStep (found : State → Out) (s : State) : Out :=
  match s.xst with
  | .found => found s
  | .scanning =>
    if s.pix < s.capacity then
      within (s.raw.length + 1) s.params.maxBits .bitsBound (.next s.readPixel)
    else .next ({ s with xst := .exhausted }.raise .markerNotFound)
  | .idle => .next s
  | .exhausted => .next s

/-- The completion of EXTR after a match: the raw bits, marker included, into `BITS` (R202). -/
def finishExtr (s : State) : Out := .next { s with bits := s.raw }.complete

/-- An engine step of EXTR (R202). -/
def engineExtr (s : State) : Out := scanStep finishExtr s

/-- EXTR, extract raw bits (R201). -/
def execExtr (s : State) : Out := runCommand .extr engineExtr s

end Sys2Proof.Machine
end

