-- ==== Sys2Proof/Machine/Paths.lean ====
section
/-! DEFINITION. The composite commands HIDE and RVEL (spec/45_pipelines.md R230, R240). -/

namespace Sys2Proof.Machine

/-- The cipher bits of a message under a password, or the first error met: the message's characters, the password's, then the
empty key (R230, R284). -/
def cipherBits (cs : Charset) (txt pwd : List Code) : Result Bits :=
  match encodeText cs txt with
  | .err e => .err e
  | .ok m =>
    match encodeText cs pwd with
    | .err e => .err e
    | .ok k => applyKey m k

/-- Step 1 of HIDE: the frame prepared in `FRM`, every error detected, no pixel touched (R230). A frame over `MAX_BITS` is refused
before its capacity is compared, as `FRM` is written first (I1; log 11). -/
def prepareHide (s : State) : Out :=
  match cipherBits s.params.charset s.txt s.pwd with
  | .err e => .next (s.raise e)
  | .ok c =>
    within (build c).length s.params.maxBits .bitsBound
      (if s.capacity < (build c).length then .next (s.raise .insufficientCapacity)
        else .next { s with frm := build c, checked := true })

/-- The completion of HIDE: the frame into `BITS`, the password's bits into `KEYB` (R230). The password was encodable in step 1
and has not changed since, so the error case is never met in a run. -/
def finishHide (s : State) : Out :=
  match encodeText s.params.charset s.pwd with
  | .err e => .next (s.raise e)
  | .ok k => within k.length (8 * s.params.maxPwd) .keybBound (.next { s with bits := s.frm, keyb := k }.complete)

/-- An engine step of HIDE: the preparation, the pixel steps of EMBD over `FRM`, the completion (R230). -/
def engineHide (s : State) : Out :=
  if s.checked then
    match s.frm[s.pix]? with
    | some d => .next (s.embedPixel d)
    | none => finishHide s
  else prepareHide s

/-- The completion of RVEL after a match: the marker stripped, the payload deciphered and decoded; `TXT`, `BITS` and `KEYB` are
committed together (R240). The parse never fails in a run (R204). -/
def finishRvel (s : State) : Out :=
  match parse s.params.matchMin s.raw with
  | .err e => .next (s.raise e)
  | .ok c =>
    match encodeText s.params.charset s.pwd with
    | .err e => .next (s.raise e)
    | .ok k =>
      match applyKey c k with
      | .err e => .next (s.raise e)
      | .ok p =>
        within (decodeBits s.params.charset p).length s.params.maxTxt .txtBound
          (within k.length (8 * s.params.maxPwd) .keybBound
            (.next { s with txt := decodeBits s.params.charset p, bits := p, keyb := k }.complete))

/-- An engine step of RVEL: the pixel steps of EXTR, the completion (R240). -/
def engineRvel (s : State) : Out := scanStep finishRvel s

/-- HIDE, the hide path (R230). -/
def execHide (s : State) : Out := runCommand .hide engineHide s

/-- RVEL, the reveal path (R240). -/
def execRvel (s : State) : Out := runCommand .rvel engineRvel s

end Sys2Proof.Machine
end

