-- ==== Sys2Proof/Machine/Dispatch.lean ====
section
/-! DEFINITION. The dispatch of the ten commands to their meanings (spec/30_encoding.md R77). -/

namespace Sys2Proof.Machine

def exec (i : Instr) (s : State) : Host.Outcome State Fault Refusal :=
  match i with
  | .enct => Sys2Proof.Machine.execEnct s
  | .enck => Sys2Proof.Machine.execEnck s
  | .decb => Sys2Proof.Machine.execDecb s
  | .xork => Sys2Proof.Machine.execXork s
  | .fbld => Sys2Proof.Machine.execFbld s
  | .fprs => Sys2Proof.Machine.execFprs s
  | .embd => Sys2Proof.Machine.execEmbd s
  | .extr => Sys2Proof.Machine.execExtr s
  | .hide => Sys2Proof.Machine.execHide s
  | .rvel => Sys2Proof.Machine.execRvel s

end Sys2Proof.Machine
end

