-- ==== Sys2Proof/Machine/HostOps.lean ====
section
/-! DEFINITION. The host's operations on the block and on its image: register reads and writes (spec/46_host_interface.md R250 to
R252; spec/10_state.md R26 to R36) and pixel reads and writes (R260). -/

namespace Sys2Proof.Machine

/-- The register number of `STATUS`, the one register the host may read while `BUSY = 1` (R26, R321). -/
def statusReg : Reg := 1

/-- The register number of `CMD` (R26). -/
def cmdReg : Reg := 0

/-- The value of a register, or `none` for a reserved number (R26 to R36). -/
def regRead (n : Reg) (s : State) : Option Word :=
  match n.toNat with
  | 0 => some 0
  | 1 => some (statusWord s)
  | 2 => some (lenView s.txt.length)
  | 3 => some (lenView s.pwd.length)
  | 4 => some (lenView s.bits.length)
  | 5 => some (lenView s.keyb.length)
  | 6 => some (s.carW.setWidth 32)
  | 7 => some (s.carH.setWidth 32)
  | 8 => some s.idx
  | 9 => some (s.txt.getD s.idx.toNat 0)
  | 10 => some (s.pwd.getD s.idx.toNat 0)
  | 11 => some (BitVec.ofNat 32 (s.bits.getD s.idx.toNat false).toNat)
  | 12 => some (BitVec.ofNat 32 (s.keyb.getD s.idx.toNat false).toNat)
  | _ => none

/-- A write of `v` to `CMD` while `BUSY = 0`: the command accepted, or the reserved word refused (R252, R79). -/
def issueCommand (v : Word) (s : State) : Out :=
  match decode v with
  | .command i => .next (accept i s)
  | .reservedField => .refused .reservedField
  | .reservedOpcode => .refused .reservedOpcode

/-- A write of `v` to a register while `BUSY = 0` (R251): a read-only register ignores it; a reserved number refuses it. -/
def regWrite (n : Reg) (v : Word) (s : State) : Out :=
  match n.toNat with
  | 0 => issueCommand v s
  | 1 => .next s
  | 2 => within v.toNat s.params.maxTxt .txtBound (.next { s with txt := resize 0 v.toNat s.txt })
  | 3 => within v.toNat s.params.maxPwd .pwdBound (.next { s with pwd := resize 0 v.toNat s.pwd })
  | 4 => within v.toNat s.params.maxBits .bitsBound (.next { s with bits := resize false v.toNat s.bits })
  | 5 => .next s
  | 6 => .next { s with carW := v.setWidth 16 }
  | 7 => .next { s with carH := v.setWidth 16 }
  | 8 => .next { s with idx := v }
  | 9 => .next { s with txt := s.txt.set s.idx.toNat v }
  | 10 => .next { s with pwd := s.pwd.set s.idx.toNat v }
  | 11 => .next { s with bits := s.bits.set s.idx.toNat (v.getLsbD 0) }
  | 12 => .next s
  | _ => .refused .reservedRegister

/-- `HostWrite(n, v)`: while `BUSY = 1` a hazard, whatever the register, and the write has no effect (R251, R320). DESIGN CHOICE
(log 23): of a reserved register too, which is then no refusal. -/
def hostWrite (n : Reg) (v : Word) (s : State) : Out :=
  if s.busy then .next s.recordHazard else regWrite n v s

/-- The value of a host variable; initially 0 (R81). -/
def State.var (s : State) (x : Var) : Word := Store.get 0 s.vars x

/-- A host variable set (R81). -/
def State.setVar (s : State) (x : Var) (v : Word) : State := { s with vars := Store.set 0 s.vars x v }

/-- A host read into `t` that breaks R321: the hazard recorded, and a free value read (R320; log 22). -/
def State.hazardRead (s : State) (t : Var) : State := s.recordHazard.setVar t (Config.hazardRead s.faults.length)

/-- `HostRead(n)` into host variable `t`: a hazard while `BUSY = 1` unless `n` is `STATUS` (R250). DESIGN CHOICE (log 23): for a
reserved `n` too, which is then no refusal. -/
def hostRead (n : Reg) (t : Var) (s : State) : Out :=
  if s.busy && n != statusReg then .next (s.hazardRead t)
  else match regRead n s with
    | some v => .next (s.setVar t v)
    | none => .refused .reservedRegister

/-- `HostPixWrite(row, col, (r, g, b))`: while `BUSY = 1` a hazard, and nothing is written (R260, R320); a channel above 255 is
no move of the host's (I7; log 13). DESIGN CHOICE (log 26): while `BUSY = 1` such a channel too is only a hazard, and no refusal. -/
def hostPixWrite (p : Pos) (r g b : Word) (s : State) : Out :=
  if s.busy then .next s.recordHazard
  else if r.toNat ≤ 255 ∧ g.toNat ≤ 255 ∧ b.toNat ≤ 255 then
    .next { s with carrier := memWrite s.carrier p ⟨r.setWidth 8, g.setWidth 8, b.setWidth 8⟩ }
  else .refused .channelRange

/-- A pixel as the word `PIXRD` gives: `r*65536 + g*256 + b` (R81). -/
def pixelWord (px : Pixel) : Word := BitVec.ofNat 32 (px.r.toNat * 65536 + px.g.toNat * 256 + px.b.toNat)

/-- `HostPixRead(row, col)` into host variable `t`: a hazard while `BUSY = 1` (R260). -/
def hostPixRead (p : Pos) (t : Var) (s : State) : Out :=
  if s.busy then .next (s.hazardRead t) else .next (s.setVar t (pixelWord (memRead s.carrier p)))

end Sys2Proof.Machine
end

