-- ==== Sys2Proof/Machine/HostProgram.lean ====
section
/-! DEFINITION. The meaning of each statement of a host program (spec/30_encoding.md R81) and the expansions of the
pseudo-instructions (R82). -/

namespace Sys2Proof.Machine

/-- A value, or the host variable standing in its place (R81). -/
def State.arg (s : State) (a : Arg) : Word :=
  match a with
  | .imm v => v
  | .var x => s.var x

/-- The host goes on to its next statement. -/
def State.advance (s : State) : State := { s with hpc := s.hpc + 1 }

/-- The host goes on to the statement a label names. -/
def State.jump (s : State) (label : Nat) : State := { s with hpc := label }

/-- After a host operation that answers a next state the host goes on to its next statement; a stop stays a stop. -/
def thenAdvance (o : Out) : Out :=
  match o with
  | .next s => .next s.advance
  | .fault r => .fault r
  | .refused r => .refused r

/-- `RUN`: `WR CMD, v`, then `WAIT` on `t`, as one step (R82, R323; log 5): a reserved word refused, else the whole command; the
poll that ends it leaves 0 in `t`. While `BUSY = 1` its write is a hazard, and R323 collapses no run with one: the model records
the hazard, leaves `t` a free value and goes on (log 22); a host that may do so is written with `WR` and the loop of `expand`. -/
def hostRun (t : Var) (v : Word) (s : State) : Out :=
  if s.busy then .next (s.hazardRead t)
  else match decode v with
    | .command i =>
      match exec i s with
      | .next u => .next (u.setVar t 0)
      | .fault r => .fault r
      | .refused r => .refused r
    | .reservedField => .refused .reservedField
    | .reservedOpcode => .refused .reservedOpcode

/-- One statement of the host's program (R81). -/
def hostStmt (st : Stmt) (s : State) : Out :=
  match st with
  | .wr reg v => thenAdvance (hostWrite reg (s.arg v) s)
  | .rd reg t => thenAdvance (hostRead reg t s)
  | .pixWr row col r g b =>
    thenAdvance (hostPixWrite ⟨(s.arg row).toNat, (s.arg col).toNat⟩ (s.arg r) (s.arg g) (s.arg b) s)
  | .pixRd row col t => thenAdvance (hostPixRead ⟨(s.arg row).toNat, (s.arg col).toNat⟩ t s)
  | .andi t u v => .next (s.setVar t (s.var u &&& s.arg v)).advance
  | .shri t u v => .next (s.setVar t (s.var u >>> (s.arg v).toNat)).advance
  | .addi t u v => .next (s.setVar t (s.var u + s.arg v)).advance
  | .beq t v label => .next (if s.var t = s.arg v then s.jump label else s.advance)
  | .bne t v label => .next (if s.var t = s.arg v then s.advance else s.jump label)
  | .jmp label => .next (s.jump label)
  | .halt => .next { s with halted := true }
  | .run t v => thenAdvance (hostRun t (s.arg v) s)

/-- The `IDX` and data-window writes that load a buffer's elements from number `j` on (R82). DESIGN CHOICE (log 24): a `j` of 2^32 or
more, which no 32-bit value of R81 is, is written modulo 2^32. -/
def loadElems (window : Reg) : Nat → List Word → List Stmt
  | _, [] => []
  | j, v :: rest => .wr 8 (.imm (BitVec.ofNat 32 j)) :: .wr window (.imm v) :: loadElems window (j + 1) rest

/-- The writes that load a whole buffer: its length, then each element (R82). DESIGN CHOICE (log 24): a length of 2^32 or more is
written modulo 2^32. -/
def loadBuffer (lenReg window : Reg) (vs : List Word) : List Stmt :=
  .wr lenReg (.imm (BitVec.ofNat 32 vs.length)) :: loadElems window 0 vs

/-- The statements a pseudo-instruction stands for, its first statement being number `base` of the program (R82). DESIGN CHOICE
(log 21): the `w` and `h` of `SETCAR` are values, and no host variable stands for one; a program that wants one writes the two `WR`
statements itself. DESIGN CHOICE (log 27): `WAIT` and `RUN` poll into the variable their operand names. -/
def expand (base : Nat) (p : Pseudo) : List Stmt :=
  match p with
  | .cmd i => [.wr cmdReg (.imm (encode i))]
  | .wait t => [.rd statusReg t, .andi t t (.imm 1), .bne t (.imm 0) base]
  | .run t i => [.wr cmdReg (.imm (encode i)), .rd statusReg t, .andi t t (.imm 1), .bne t (.imm 0) (base + 1)]
  | .err t => [.rd statusReg t, .shri t t (.imm 1), .andi t t (.imm 7)]
  | .xstate t => [.rd statusReg t, .shri t t (.imm 4), .andi t t (.imm 3)]
  | .setcar w h => [.wr 6 (.imm w), .wr 7 (.imm h)]
  | .ldtxt codes => loadBuffer 2 9 codes
  | .ldpwd codes => loadBuffer 3 10 codes
  | .ldbits bits => loadBuffer 4 11 (bits.map fun b => BitVec.ofNat 32 b.toNat)

/-- The program a list of pseudo-instructions and statements stands for, from statement number `base` on (R82). -/
def assemble : Nat → List (Pseudo ⊕ Stmt) → List Stmt
  | _, [] => []
  | base, .inl p :: rest => expand base p ++ assemble (base + (expand base p).length) rest
  | base, .inr st :: rest => st :: assemble (base + 1) rest

end Sys2Proof.Machine
end

