-- ==== Sys2Proof/Machine/Turns.lean ====
section
/-! DEFINITION. The turns of the two agents and of the reset input (spec/70_reset_and_hazards.md R310, R322, R325). -/

namespace Sys2Proof.Machine

/-- One engine step of a command (R322). -/
def engineStep (i : Instr) (s : State) : Out :=
  match i with
  | .enct => engineEnct s
  | .enck => engineEnck s
  | .decb => engineDecb s
  | .xork => engineXork s
  | .fbld => engineFbld s
  | .fprs => engineFprs s
  | .embd => engineEmbd s
  | .extr => engineExtr s
  | .hide => engineHide s
  | .rvel => engineRvel s

/-- The engine's turn: a step of the command in progress; with `PEND = none` it has none and nothing changes (R322). -/
def engineTurn (s : State) : Out :=
  match s.pend with
  | some i => engineStep i s
  | none => .next s

/-- The host's turn: its next statement; after `HALT`, and past its program's end, it has none and nothing changes
(R325; log 14, log 15). -/
def hostTurn (s : State) : Out :=
  if s.halted then .next s
  else match s.prog[s.hpc]? with
    | some st => hostStmt st s
    | none => .next s

/-- A turn taken. The reset input is taken after `HALT` as before it, a command still running or not (R310; log 25). -/
def takeTurn (turn : Turn) (s : State) : Out :=
  match turn with
  | .host => hostTurn s
  | .engine => engineTurn s
  | .reset => .next s.resetBlock

/-- Whose turn it is, and the state with that turn taken off the schedule; with no turn scheduled the engine moves while it
has a step, else the host (R322; log 4). -/
def nextTurn (s : State) : Turn × State :=
  match s.sched with
  | turn :: rest => (turn, { s with sched := rest })
  | [] => (if s.pend.isSome then .engine else .host, s)

end Sys2Proof.Machine
end

