-- ==== Sys2Proof/Machine/Step.lean ====
section
/-! DEFINITION. One step of the machine: one turn of one agent (spec/70_reset_and_hazards.md R322), and how a command comes to be
the next thing the machine runs. -/

namespace Sys2Proof.Machine

/-- One step (R322). -/
def step (s : State) : Host.Outcome State Fault Refusal := takeTurn (nextTurn s).1 (nextTurn s).2

/-- `s` with a host about to `RUN` the command word `w`: the host's program is that one statement, the host stands at it and
has not halted, and the next turn is the host's (log 3). -/
def State.withFetchWord (s : State) (nbits w : Nat) : State :=
  { s with prog := [.run 0 (.imm (tableWord nbits w))], hpc := 0, halted := false, sched := [.host] }

end Sys2Proof.Machine
end

