-- ==== Sys2Proof/Safety.lean ====
section
/-! DEFINITION. The terms claims are stated in: what the host is about to do, runs of the engine and of command sequences, the end
of a run (spec/70_reset_and_hazards.md R325), and the invariants of the machine. -/

namespace Sys2Proof.Machine

/-! What the next step is. -/

/-- The next turn is the host's: it is scheduled, or nothing is scheduled and the engine has no step (R322, log 4). -/
def State.hostsTurn (s : State) : Prop := s.sched.head? = some .host ∨ (s.sched = [] ∧ s.pend = none)

/-- The next turn is the engine's: it is scheduled, or nothing is scheduled and the engine has a step (R322, log 4). -/
def State.enginesTurn (s : State) : Prop := s.sched.head? = some .engine ∨ (s.sched = [] ∧ s.pend ≠ none)

/-- The state with the next turn taken off the schedule. -/
def State.turnTaken (s : State) : State := { s with sched := s.sched.tail }

/-- The next turn is the host's, and the host stands at statement `st` (R81, R322). -/
def State.aboutTo (s : State) (st : Stmt) : Prop :=
  s.hostsTurn ∧ s.halted = false ∧ s.prog[s.hpc]? = some st

/-- The step reads `v` into host variable `x` and changes nothing else but the host's place (R61, R250). -/
def State.reads (s : State) (x : Var) (v : Word) : Prop :=
  step s = .next { s.turnTaken with vars := Store.set 0 s.vars x v, hpc := s.hpc + 1 }

/-- A statement that touches the block or the carrier, other than a read of `STATUS` (R81, R321). -/
def Stmt.touchesBlock : Stmt → Bool
  | .wr .. => true
  | .rd reg _ => reg != 1
  | .pixWr .. => true
  | .pixRd .. => true
  | .run .. => true
  | .andi .. => false
  | .shri .. => false
  | .addi .. => false
  | .beq .. => false
  | .bne .. => false
  | .jmp .. => false
  | .halt => false

/-! Runs. -/

/-- `n` turns of the engine, up to the first stop (R322). -/
def engineRun : Nat → State → Out
  | 0, s => .next s
  | n + 1, s =>
    match engineTurn s with
    | .next t => engineRun n t
    | .fault r => .fault r
    | .refused r => .refused r

/-- A sequence of commands, each run whole, up to the first that stops or reports an error (R231, R241). -/
def commandSequence : List Instr → State → Out
  | [], s => .next s
  | i :: rest, s =>
    match exec i s with
    | .next t => if t.errcode = 0 then commandSequence rest t else .next t
    | .fault r => .fault r
    | .refused r => .refused r

/-- The end of a host program's run: `HALT` executed, `BUSY = 0` and no fault recorded (R320, R325). A run that met a refusal
has no state at all (log 6). DESIGN CHOICE (log 25): after a `HALT` while `BUSY = 1` the reset input makes an end too, by clearing `BUSY`. -/
def State.isEnd (s : State) : Bool := s.halted && !s.busy && s.faults.isEmpty

/-! Bit sequences. -/

/-- The marker ends at position `j` of `bs`: the last 24 of its first `j` bits are `MARKER` (R14, R151). -/
def markerEndsAt (bs : Bits) (j : Nat) : Prop := 24 ≤ j ∧ j ≤ bs.length ∧ (bs.take j).drop (j - 24) = marker

/-- The first position at which the detector matches in `bs` (R151, R153). -/
def firstMatch (m : MatchMin) (bs : Bits) (j : Nat) : Prop :=
  matchMinBits m ≤ j ∧ markerEndsAt bs j ∧ ∀ i, matchMinBits m ≤ i → i < j → ¬ markerEndsAt bs i

/-- `MARKER` stands in `bs` as a contiguous subsequence (R162, R242). -/
def containsMarker (bs : Bits) : Prop := ∃ j, markerEndsAt bs j

/-! Invariants. -/

/-- The carrier and the host's variables are in canonical form. -/
def State.MemoryInv (s : State) : Prop := Memory.wf s.carrier ∧ Store.wf 0 s.vars

/-- `ERRCODE` is 0 or the code of one of the four error kinds (R30, I12). -/
def State.StatusInv (s : State) : Prop := s.errcode.toNat ≤ 4

/-- Every buffer keeps its bound, and `KEYB` holds whole bytes (R13, R21 to R24, I1). -/
structure State.BufferInv (s : State) : Prop where
  txt : s.txt.length ≤ s.params.maxTxt
  pwd : s.pwd.length ≤ s.params.maxPwd
  bits : s.bits.length ≤ s.params.maxBits
  keyb : s.keyb.length ≤ 8 * s.params.maxPwd
  keybBytes : s.keyb.length % 8 = 0
  raw : s.raw.length ≤ s.params.maxBits
  frm : s.frm.length ≤ s.params.maxBits

/-- A scan is running: the command in progress is EXTR or RVEL. -/
def State.isScan (s : State) : Prop := s.pend = some .extr ∨ s.pend = some .rvel

/-- An embedding is running: the command in progress is EMBD or HIDE. -/
def State.isEmbedding (s : State) : Prop := s.pend = some .embd ∨ s.pend = some .hide

/-- The engine's hidden state fits the command in progress. -/
structure State.EngineInv (s : State) : Prop where
  /-- `BUSY = 1` exactly when `PEND != none` (R38). -/
  busy : s.busy = s.pend.isSome
  /-- Outside the four pixel commands `RAW` and `FRM` are empty and `PIX` is 0 (R39, R41). -/
  quiet : ¬ s.isScan → ¬ s.isEmbedding → s.raw = [] ∧ s.frm = [] ∧ s.pix = 0 ∧ s.checked = false
  /-- `XST` is SCANNING only during a scan, and is SCANNING or FOUND throughout one (R203). -/
  scanning : s.xst = .scanning → s.isScan
  scanState : s.isScan → s.xst = .scanning ∨ s.xst = .found
  /-- `RAW` holds the blue LSBs of the pixels visited (R41, R202). -/
  raw : s.isScan → s.pix ≤ s.capacity ∧ s.frm = [] ∧ s.checked = false ∧ s.raw = blueBits s.carW.toNat s.carrier s.pix
  /-- The detector has scanned exactly `RAW`, and matched on its last bit if and only if `XST` is FOUND (R40, R203). -/
  window : s.isScan → s.ncnt = s.raw.length ∧
    scan s.params.matchMin Detector.start s.raw = (s.detector, s.xst == .found)
  /-- An embedding visits a pixel only after its check, and only pixels of its frame (R182). -/
  embedding : s.isEmbedding → s.raw = [] ∧ (s.checked = false → s.pix = 0) ∧
    (s.checked = true → s.frm.length ≤ s.capacity ∧ s.pix ≤ s.frm.length)

end Sys2Proof.Machine
end

