-- ==== Sys2Proof/Certificates/Slice0/Obligations.lean ====
section
/-! DEFINITION. The statements for the provers, from the numbered rules of spec/. Each docstring names its rules. A statement that
gives a whole next state leaves the engine's phase bit `checked` open: it is the model's own field (log 10). -/

open Sys2Proof Sys2Proof.Machine

/-! Encodings. -/

/-- R77: the ten words of the opcode map, and reserved words next to them (R79), written out bit by bit. -/
def Obligations.OpcodeMapWordsDecode : Prop :=
  decode 0b00000000000000000000000000000001#32 = .command .enct ∧
  decode 0b00000000000000000000000000000010#32 = .command .enck ∧
  decode 0b00000000000000000000000000000011#32 = .command .decb ∧
  decode 0b00000000000000000000000000000100#32 = .command .xork ∧
  decode 0b00000000000000000000000000000101#32 = .command .fbld ∧
  decode 0b00000000000000000000000000000110#32 = .command .fprs ∧
  decode 0b00000000000000000000000000000111#32 = .command .embd ∧
  decode 0b00000000000000000000000000001000#32 = .command .extr ∧
  decode 0b00000000000000000000000000001001#32 = .command .hide ∧
  decode 0b00000000000000000000000000001010#32 = .command .rvel ∧
  decode 0b00000000000000000000000000000000#32 = .reservedOpcode ∧
  decode 0b00000000000000000000000000001011#32 = .reservedOpcode ∧
  decode 0b00000000000000000000000000001111#32 = .reservedOpcode ∧
  decode 0b00000000000000000000000000010001#32 = .reservedField

/-- R71, over all 2^32 words: a word is reserved by its upper field, or is the word of exactly one command, or is reserved by
its opcode; so decoding and encoding agree in both directions. -/
def Obligations.DecodeIsExactOnAllWords : Prop :=
  ∀ (v : Word) (i : Instr),
    (decode v = .reservedField ↔ 16 ≤ v.toNat) ∧
    (decode v = .command i ↔ v = encode i) ∧
    (decode v = .reservedOpcode ↔ v.toNat = 0 ∨ (11 ≤ v.toNat ∧ v.toNat ≤ 15))

/-- R74: the value of an 8-bit group, and that `bits8` and `byte8` are inverse to each other. -/
def Obligations.BytesAndTheirBitsAgree : Prop :=
  (∀ a0 a1 a2 a3 a4 a5 a6 a7 : Bit, (byte8 a0 a1 a2 a3 a4 a5 a6 a7).toNat =
    a0.toNat * 128 + a1.toNat * 64 + a2.toNat * 32 + a3.toNat * 16 + a4.toNat * 8 + a5.toNat * 4 + a6.toNat * 2 +
      a7.toNat) ∧
  (∀ (v : Byte) (k : Nat), k < 8 → (bits8 v)[k]? = some (v.getLsbD (7 - k))) ∧
  (∀ v : Byte, byte8 (v.getLsbD 7) (v.getLsbD 6) (v.getLsbD 5) (v.getLsbD 4) (v.getLsbD 3) (v.getLsbD 2) (v.getLsbD 1)
      (v.getLsbD 0) = v) ∧
  (∀ a0 a1 a2 a3 a4 a5 a6 a7 : Bit, bits8 (byte8 a0 a1 a2 a3 a4 a5 a6 a7) = [a0, a1, a2, a3, a4, a5, a6, a7])

/-- R75: the spec's character set, and (I5) that `DEC` undoes `ENC` on every encodable code, for every character set. -/
def Obligations.CharacterSetsDecodeWhatTheyEncode : Prop :=
  (∀ (c : Code) (v : Byte), encChar .latin1 c = some v ↔ c.toNat ≤ 255 ∧ v.toNat = c.toNat) ∧
  (∀ v : Byte, (decChar .latin1 v).toNat = v.toNat) ∧
  (∀ (cs : Charset) (c : Code) (v : Byte), encChar cs c = some v → decChar cs v = c)

/-- R28: the status word is `XST << 4 | ERRCODE << 1 | BUSY`, and its other bits are 0; R31: the four values of `XST`. -/
def Obligations.StatusWordIsItsFields : Prop :=
  (∀ s : State, (statusWord s).toNat = 16 * s.xst.code.toNat + 2 * s.errcode.toNat + s.busy.toNat) ∧
  Xst.idle.code = 0 ∧ Xst.scanning.code = 1 ∧ Xst.found.code = 2 ∧ Xst.exhausted.code = 3

/-! Reset and the agents' turns. -/

/-- R44: the state after reset. -/
def Obligations.ResetStateIsTheSpecs : Prop :=
  State.reset.txt = [] ∧ State.reset.pwd = [] ∧ State.reset.bits = [] ∧ State.reset.keyb = [] ∧
  State.reset.busy = false ∧ State.reset.errcode = 0 ∧ State.reset.xst = .idle ∧
  State.reset.carW = 0 ∧ State.reset.carH = 0 ∧ State.reset.idx = 0 ∧ State.reset.pend = none ∧
  State.reset.pix = 0 ∧ State.reset.ncnt = 0 ∧ State.reset.win = 0 ∧ State.reset.raw = [] ∧ State.reset.frm = []

/-- R310, R311: the reset input, in any state, a command in progress included, takes one step to the block's reset state and
leaves the carrier as it is. -/
def Obligations.ResetInputResetsTheBlockNotTheCarrier : Prop :=
  ∀ s : State, s.sched.head? = some .reset →
    ∃ t, step s = .next t ∧
      t.txt = [] ∧ t.pwd = [] ∧ t.bits = [] ∧ t.keyb = [] ∧ t.busy = false ∧ t.errcode = 0 ∧ t.xst = .idle ∧
      t.carW = 0 ∧ t.carH = 0 ∧ t.idx = 0 ∧ t.pend = none ∧ t.pix = 0 ∧ t.ncnt = 0 ∧ t.win = 0 ∧ t.raw = [] ∧ t.frm = [] ∧
      t.carrier = s.carrier

/-- R82, R323 (the model's collapsed `RUN`, log 5): a host that runs a command word while the block is idle steps exactly as `exec`
of the decoded command does, then leaves 0 in its poll variable and goes on to its next statement; where the command is refused, so is
the step. R79: a reserved word is refused. -/
def Obligations.StepRunsTheDecodedCommand : Prop :=
  ∀ (s : State) (x : Var) (v : Arg), s.aboutTo (.run x v) → s.busy = false →
    (∀ i, decode (s.arg v) = .command i →
      (∀ t, exec i s.turnTaken = .next t →
        step s = .next { t with vars := Store.set 0 t.vars x 0, hpc := t.hpc + 1 }) ∧
      (∀ r, exec i s.turnTaken = .refused r → step s = .refused r)) ∧
    (decode (s.arg v) = .reservedField → step s = .refused .reservedField) ∧
    (decode (s.arg v) = .reservedOpcode → step s = .refused .reservedOpcode)

/-- R252: a write to `CMD` records the fault `HostHazard` while `BUSY = 1`, refuses a reserved word, and else accepts the command with exactly its acceptance
actions; `ERRCODE` is not changed. -/
def Obligations.CommandWriteIsAccepted : Prop :=
  ∀ (s : State) (v : Arg), s.aboutTo (.wr 0 v) →
    (s.busy = true → ∃ t, step s = .next t ∧ t.faults = .hostHazard :: s.faults) ∧
    (s.busy = false → decode (s.arg v) = .reservedField → step s = .refused .reservedField) ∧
    (s.busy = false → decode (s.arg v) = .reservedOpcode → step s = .refused .reservedOpcode) ∧
    (s.busy = false → ∀ i, decode (s.arg v) = .command i →
      ∃ c, let t := { s.turnTaken with pend := some i, busy := true, checked := c, hpc := s.hpc + 1 }
      (i ≠ .embd → i ≠ .hide → i ≠ .extr → i ≠ .rvel → step s = .next t) ∧
      (i = .embd → step s = .next { t with frm := s.bits, pix := 0 }) ∧
      (i = .hide → step s = .next { t with pix := 0 }) ∧
      (i = .extr ∨ i = .rvel →
        step s = .next { t with xst := .scanning, raw := [], win := 0, ncnt := 0, pix := 0 }))

/-- R321, R320: while `BUSY = 1` every host operation on the block or the carrier records the fault `HostHazard`, but for a read of
`STATUS` and reset; the host's own statements go on. That the operation has no other effect (log 6), and that a hazardous read or
`RUN` leaves some value `w` in its variable and the host at its next statement (log 22), and that a reserved register is no exception
(log 23), nor a channel above 255 (log 26), are the model's choices. -/
def Obligations.HostHazardWhileBusy : Prop :=
  ∀ s : State, s.busy = true →
    let marked : State := { s.turnTaken with faults := .hostHazard :: s.faults, hpc := s.hpc + 1 }
    (∀ n v, s.aboutTo (.wr n v) → step s = .next marked) ∧
    (∀ row col r g b, s.aboutTo (.pixWr row col r g b) → step s = .next marked) ∧
    (∀ st x, s.aboutTo st → (∃ n, n ≠ 1 ∧ st = .rd n x) ∨ (∃ row col, st = .pixRd row col x) ∨ (∃ v, st = .run x v) →
      ∃ w, step s = .next { marked with vars := Store.set 0 s.vars x w }) ∧
    (∀ i, exec i s = .next { s with faults := .hostHazard :: s.faults }) ∧
    (∀ x, s.aboutTo (.rd 1 x) → s.reads x (statusWord s)) ∧
    (∀ st, s.aboutTo st → st.touchesBlock = false → ∃ t, step s = .next t) ∧
    (s.sched.head? = some .reset → ∃ t, step s = .next t)

/-- R250 with R26 to R36: what a host read of each register gives while the block is idle; it changes nothing else. -/
def Obligations.HostReadsGiveTheRegisters : Prop :=
  ∀ (s : State) (n : Reg) (x : Var), s.busy = false → s.aboutTo (.rd n x) →
    (n = 0 → s.reads x 0) ∧
    (n = 1 → s.reads x (statusWord s)) ∧
    (n = 2 → s.txt.length < 2 ^ 32 → s.reads x (BitVec.ofNat 32 s.txt.length)) ∧
    (n = 3 → s.pwd.length < 2 ^ 32 → s.reads x (BitVec.ofNat 32 s.pwd.length)) ∧
    (n = 4 → s.bits.length < 2 ^ 32 → s.reads x (BitVec.ofNat 32 s.bits.length)) ∧
    (n = 5 → s.keyb.length < 2 ^ 32 → s.reads x (BitVec.ofNat 32 s.keyb.length)) ∧
    (n = 6 → s.reads x (s.carW.setWidth 32)) ∧
    (n = 7 → s.reads x (s.carH.setWidth 32)) ∧
    (n = 8 → s.reads x s.idx) ∧
    (n = 9 → s.reads x (if h : s.idx.toNat < s.txt.length then s.txt[s.idx.toNat] else 0)) ∧
    (n = 10 → s.reads x (if h : s.idx.toNat < s.pwd.length then s.pwd[s.idx.toNat] else 0)) ∧
    (n = 11 → s.reads x (if h : s.idx.toNat < s.bits.length then (if s.bits[s.idx.toNat] then 1 else 0) else 0)) ∧
    (n = 12 → s.reads x (if h : s.idx.toNat < s.keyb.length then (if s.keyb[s.idx.toNat] then 1 else 0) else 0)) ∧
    (13 ≤ n.toNat → step s = .refused .reservedRegister)

/-- R32: a host write to a length register resizes its buffer, cutting it short or filling it up with zeros; a length beyond the
buffer's bound is refused. -/
def Obligations.LengthWritesResizeTheBuffers : Prop :=
  ∀ (s : State) (v : Arg), s.busy = false →
    (s.aboutTo (.wr 2 v) →
      ((s.arg v).toNat ≤ s.params.maxTxt →
        ∃ l : List Code, step s = .next { s.turnTaken with txt := l, hpc := s.hpc + 1 } ∧ l.length = (s.arg v).toNat ∧
          ∀ j, j < (s.arg v).toNat → l[j]? = some (s.txt.getD j 0)) ∧
      (s.params.maxTxt < (s.arg v).toNat → step s = .refused .txtBound)) ∧
    (s.aboutTo (.wr 3 v) →
      ((s.arg v).toNat ≤ s.params.maxPwd →
        ∃ l : List Code, step s = .next { s.turnTaken with pwd := l, hpc := s.hpc + 1 } ∧ l.length = (s.arg v).toNat ∧
          ∀ j, j < (s.arg v).toNat → l[j]? = some (s.pwd.getD j 0)) ∧
      (s.params.maxPwd < (s.arg v).toNat → step s = .refused .pwdBound)) ∧
    (s.aboutTo (.wr 4 v) →
      ((s.arg v).toNat ≤ s.params.maxBits →
        ∃ l : Bits, step s = .next { s.turnTaken with bits := l, hpc := s.hpc + 1 } ∧ l.length = (s.arg v).toNat ∧
          ∀ j, j < (s.arg v).toNat → l[j]? = some (s.bits.getD j false)) ∧
      (s.params.maxBits < (s.arg v).toNat → step s = .refused .bitsBound))

/-- R35: a host write through a data window sets the element `IDX` selects, and is ignored beyond the buffer's end. -/
def Obligations.WindowWritesSetOneElement : Prop :=
  ∀ (s : State) (v : Arg), s.busy = false →
    (s.aboutTo (.wr 9 v) →
      ∃ l : List Code, step s = .next { s.turnTaken with txt := l, hpc := s.hpc + 1 } ∧ l.length = s.txt.length ∧
        ∀ j, l[j]? = if j = s.idx.toNat ∧ j < s.txt.length then some (s.arg v) else s.txt[j]?) ∧
    (s.aboutTo (.wr 10 v) →
      ∃ l : List Code, step s = .next { s.turnTaken with pwd := l, hpc := s.hpc + 1 } ∧ l.length = s.pwd.length ∧
        ∀ j, l[j]? = if j = s.idx.toNat ∧ j < s.pwd.length then some (s.arg v) else s.pwd[j]?) ∧
    (s.aboutTo (.wr 11 v) →
      ∃ l : Bits, step s = .next { s.turnTaken with bits := l, hpc := s.hpc + 1 } ∧ l.length = s.bits.length ∧
        ∀ j, l[j]? = if j = s.idx.toNat ∧ j < s.bits.length then some ((s.arg v).getLsbD 0) else s.bits[j]?)

/-- R251 with R28, R33, R34, R36: the other registers' writes. -/
def Obligations.OtherRegisterWrites : Prop :=
  ∀ (s : State) (n : Reg) (v : Arg), s.busy = false → s.aboutTo (.wr n v) →
    (n = 1 ∨ n = 5 ∨ n = 12 → step s = .next { s.turnTaken with hpc := s.hpc + 1 }) ∧
    (n = 6 → step s = .next { s.turnTaken with carW := (s.arg v).extractLsb' 0 16, hpc := s.hpc + 1 }) ∧
    (n = 7 → step s = .next { s.turnTaken with carH := (s.arg v).extractLsb' 0 16, hpc := s.hpc + 1 }) ∧
    (n = 8 → step s = .next { s.turnTaken with idx := s.arg v, hpc := s.hpc + 1 }) ∧
    (13 ≤ n.toNat → step s = .refused .reservedRegister)

/-- R260 with R52, R53: while the block is idle the host's pixel write replaces one whole pixel and no other, and its pixel read
changes nothing but the variable it reads into. -/
def Obligations.HostPixelAccess : Prop :=
  ∀ (s : State), s.busy = false →
    (∀ row col r g b, s.aboutTo (.pixWr row col r g b) →
      (s.arg r).toNat ≤ 255 → (s.arg g).toNat ≤ 255 → (s.arg b).toNat ≤ 255 →
      ∃ m, step s = .next { s.turnTaken with carrier := m, hpc := s.hpc + 1 } ∧
        memRead m ⟨(s.arg row).toNat, (s.arg col).toNat⟩ =
          ⟨BitVec.ofNat 8 (s.arg r).toNat, BitVec.ofNat 8 (s.arg g).toNat, BitVec.ofNat 8 (s.arg b).toNat⟩ ∧
        ∀ q : Pos, q.col < 2 ^ 32 → q ≠ ⟨(s.arg row).toNat, (s.arg col).toNat⟩ → memRead m q = memRead s.carrier q) ∧
    (∀ row col x, s.aboutTo (.pixRd row col x) →
      let px := memRead s.carrier ⟨(s.arg row).toNat, (s.arg col).toNat⟩
      s.reads x (BitVec.ofNat 32 (px.r.toNat * 65536 + px.g.toNat * 256 + px.b.toNat)))

/-- R81: the host-local statements change host state alone, in any state of the block. Two clauses are the model's own: that SHRI by
32 or more gives 0 (log 20), and that HALT is a bit which the host's later turns see (log 14). -/
def Obligations.HostLocalStatements : Prop :=
  ∀ (s : State) (x u : Var) (v : Arg) (label : Nat),
    (s.aboutTo (.andi x u v) → s.reads x (s.var u &&& s.arg v)) ∧
    (s.aboutTo (.shri x u v) → s.reads x (BitVec.ofNat 32 ((s.var u).toNat / 2 ^ (s.arg v).toNat))) ∧
    (s.aboutTo (.addi x u v) → s.reads x (BitVec.ofNat 32 ((s.var u).toNat + (s.arg v).toNat))) ∧
    (s.aboutTo (.beq x v label) →
      step s = .next { s.turnTaken with hpc := if s.var x = s.arg v then label else s.hpc + 1 }) ∧
    (s.aboutTo (.bne x v label) →
      step s = .next { s.turnTaken with hpc := if s.var x = s.arg v then s.hpc + 1 else label }) ∧
    (s.aboutTo (.jmp label) → step s = .next { s.turnTaken with hpc := label }) ∧
    (s.aboutTo .halt → step s = .next { s.turnTaken with halted := true })

/-- R295, R322 (and the model's choices of log 14 and 15): an agent that has no step changes nothing: the engine with no command
in progress, and the host after `HALT` or past its program's end. -/
def Obligations.AnAgentWithoutAStepChangesNothing : Prop :=
  ∀ s : State,
    (s.enginesTurn → s.pend = none → step s = .next s.turnTaken) ∧
    (s.hostsTurn → s.halted = true ∨ s.prog[s.hpc]? = none → step s = .next s.turnTaken)

/-! The engine's steps and the whole commands. -/

/-- R323 with R322 and R253: from acceptance, at most `W * H + 2` turns of the engine (one, but for the four pixel commands) give
exactly what `exec` answers in one step, for every command and every idle state; and on its turn (log 4) `step` takes one engine
step of the command in progress. -/
def Obligations.CollapsedCommandIsItsEngineSteps : Prop :=
  (∀ (i : Instr) (s : State), s.busy = false →
    exec i s = engineRun (s.carW.toNat * s.carH.toNat + 2) (accept i s) ∧
    (i ≠ .embd → i ≠ .extr → i ≠ .hide → i ≠ .rvel → exec i s = engineRun 1 (accept i s))) ∧
  (∀ (i : Instr) (s : State), s.enginesTurn → s.pend = some i → step s = engineStep i s.turnTaken)

/-- R253: every command issued to an idle block comes to its completion, unless a buffer's bound stops it (I1). -/
def Obligations.EveryCommandCompletes : Prop :=
  ∀ (i : Instr) (s : State), s.busy = false →
    (∃ t, exec i s = .next t ∧ t.busy = false ∧ t.pend = none) ∨
    exec i s = .refused .bitsBound ∨ exec i s = .refused .txtBound ∨ exec i s = .refused .keybBound

/-- R182: after acceptance and its check step EMBD visits one pixel a step; with R311, a reset after `k` pixels leaves a
carrier whose first `k` pixels carry the frame's bits and whose other bytes are as before. -/
def Obligations.EmbdVisitsOnePixelAStep : Prop :=
  ∀ (s : State) (k : Nat), s.busy = false → s.bits.length ≤ s.carW.toNat * s.carH.toNat → k ≤ s.bits.length →
    ∃ t, engineRun (k + 1) (accept .embd s) = .next t ∧ t.busy = true ∧ t.pend = some .embd ∧ t.pix = k ∧ t.frm = s.bits ∧
      t.bits = s.bits ∧
      (∀ i (h : i < s.bits.length), i < k → Memory.read t.carrier (blueAddr (posAt s.carW.toNat i)) =
        (Memory.read s.carrier (blueAddr (posAt s.carW.toNat i)) &&& 0xFE) ||| (if s.bits[i] then 1 else 0)) ∧
      (∀ a, (∀ i, i < k → a ≠ blueAddr (posAt s.carW.toNat i)) → Memory.read t.carrier a = Memory.read s.carrier a) ∧
      t.resetBlock.carrier = t.carrier

/-- R202: from acceptance EXTR reads one pixel a step, in row-major order, while no marker has ended. -/
def Obligations.ExtrReadsOnePixelAStep : Prop :=
  ∀ (s : State) (k : Nat), s.busy = false → k ≤ s.carW.toNat * s.carH.toNat → k ≤ s.params.maxBits →
    (∀ j, j ≤ k → ¬ firstMatch s.params.matchMin (blueBits s.carW.toNat s.carrier k) j) →
    ∃ t, engineRun k (accept .extr s) = .next t ∧ t.busy = true ∧ t.xst = .scanning ∧ t.pix = k ∧ t.ncnt = k ∧
      t.raw = blueBits s.carW.toNat s.carrier k ∧ t.bits = s.bits ∧ t.errcode = s.errcode ∧ t.carrier = s.carrier

/-! The bit_stream_encoder sub-block. -/

/-- R100 with R103, R104: `encodeText` gives 8 bits a character, bit 7 first, in character order, and fails exactly when some
character is unencodable. -/
def Obligations.EncodeTextGivesEachCharactersBits : Prop :=
  ∀ (cs : Charset) (txt : List Code),
    (∀ out, encodeText cs txt = .ok out → out.length = 8 * txt.length ∧
      ∀ j (h : j < txt.length), ∃ e, encChar cs txt[j] = some e ∧ ∀ k, k < 8 → out[8 * j + k]? = some (e.getLsbD (7 - k))) ∧
    ((∃ c ∈ txt, encChar cs c = none) ↔ encodeText cs txt = .err .unencodableCharacter) ∧
    ((∀ c ∈ txt, encChar cs c ≠ none) ↔ ∃ out, encodeText cs txt = .ok out)

/-- R106: `decodeBits` reads each whole group of 8 bits, bit 7 first, and drops the trailing bits. -/
def Obligations.DecodeBitsReadsWholeGroups : Prop :=
  ∀ (cs : Charset) (bs : Bits),
    (decodeBits cs bs).length = bs.length / 8 ∧
    ∀ j, j < bs.length / 8 → ∃ v : Byte, (decodeBits cs bs)[j]? = some (decChar cs v) ∧
      ∀ k, k < 8 → bs[8 * j + k]? = some (v.getLsbD (7 - k))

/-- R108: decoding the encoding of a text gives the text back, for every character set and every encodable text. -/
def Obligations.TextCodecRoundTrip : Prop :=
  ∀ (cs : Charset) (txt : List Code), (∀ c ∈ txt, encChar cs c ≠ none) →
    ∃ out, encodeText cs txt = .ok out ∧ decodeBits cs out = txt

/-- R109: with the spec's character set, encoding a decoded bit sequence gives its whole bytes back. -/
def Obligations.BitCodecRoundTrip : Prop :=
  ∀ bs : Bits, encodeText .latin1 (decodeBits .latin1 bs) = .ok (bs.take (8 * (bs.length / 8)))

/-- R101, R282, I1: what ENCT leaves, and that it leaves everything else. -/
def Obligations.EnctEncodesTheMessage : Prop :=
  ∀ s : State, s.busy = false →
    (∀ out, encodeText s.params.charset s.txt = .ok out → out.length ≤ s.params.maxBits →
      ∃ c, exec .enct s = .next { s with
        bits := out, errcode := 0, busy := false, pend := none, raw := [], frm := [], pix := 0, checked := c }) ∧
    (∀ out, encodeText s.params.charset s.txt = .ok out → s.params.maxBits < out.length →
      exec .enct s = .refused .bitsBound) ∧
    (encodeText s.params.charset s.txt = .err .unencodableCharacter →
      ∃ c, exec .enct s = .next { s with
        errcode := 4, busy := false, pend := none, raw := [], frm := [], pix := 0, checked := c })

/-- R102, R282, I1: what ENCK leaves, and that it leaves everything else; an empty password is no error here. -/
def Obligations.EnckEncodesThePassword : Prop :=
  ∀ s : State, s.busy = false →
    (∀ out, encodeText s.params.charset s.pwd = .ok out → out.length ≤ 8 * s.params.maxPwd →
      ∃ c, exec .enck s = .next { s with
        keyb := out, errcode := 0, busy := false, pend := none, raw := [], frm := [], pix := 0, checked := c }) ∧
    (∀ out, encodeText s.params.charset s.pwd = .ok out → 8 * s.params.maxPwd < out.length →
      exec .enck s = .refused .keybBound) ∧
    (encodeText s.params.charset s.pwd = .err .unencodableCharacter →
      ∃ c, exec .enck s = .next { s with
        errcode := 4, busy := false, pend := none, raw := [], frm := [], pix := 0, checked := c })

/-- R107, I1: what DECB leaves, and that it leaves everything else. -/
def Obligations.DecbDecodesTheBits : Prop :=
  ∀ s : State, s.busy = false →
    (s.bits.length / 8 ≤ s.params.maxTxt →
      ∃ c, exec .decb s = .next { s with
        txt := decodeBits s.params.charset s.bits
        errcode := 0, busy := false, pend := none, raw := [], frm := [], pix := 0, checked := c }) ∧
    (s.params.maxTxt < s.bits.length / 8 → exec .decb s = .refused .txtBound)

/-- R110 with R109: with the spec's character set, ENCT after DECB succeeds and leaves the whole bytes of `BITS`. -/
def Obligations.EnctAfterDecbSucceeds : Prop :=
  ∀ s t : State, s.busy = false → s.params.charset = .latin1 → s.bits.length ≤ s.params.maxBits → exec .decb s = .next t →
    ∃ u, exec .enct t = .next u ∧ u.errcode = 0 ∧ u.bits = s.bits.take (8 * (s.bits.length / 8))

/-! The repeating_key_xor_cipher sub-block. -/

/-- R130 with R133: the repeated-key XOR, bit by bit. -/
def Obligations.ApplyXorsTheRepeatedKey : Prop :=
  ∀ bs key : Bits,
    (key = [] → applyKey bs key = .err .degenerateKey) ∧
    (key ≠ [] → ∃ out, applyKey bs key = .ok out ∧ out.length = bs.length ∧
      ∀ i (h : i < bs.length), out[i]? = some (bs[i] ^^ key.getD (i % key.length) false))

/-- R132: applying the same key twice gives the bits back. -/
def Obligations.ApplyIsAnInvolution : Prop :=
  ∀ bs key : Bits, key ≠ [] → ∃ out, applyKey bs key = .ok out ∧ applyKey out key = .ok bs

/-- R134: on whole bytes the cipher XORs message byte `j` with password byte `j mod m`. -/
def Obligations.ApplyXorsBytes : Prop :=
  ∀ vs us : List Byte, us ≠ [] →
    applyKey (bitsOfBytes vs) (bitsOfBytes us) =
      .ok (bitsOfBytes (vs.mapIdx fun j v => v ^^^ us.getD (j % us.length) 0))

/-- R131, R282: what XORK leaves, and that it leaves everything else. -/
def Obligations.XorkAppliesTheKeystream : Prop :=
  ∀ s : State, s.busy = false →
    (∀ out, applyKey s.bits s.keyb = .ok out →
      ∃ c, exec .xork s = .next { s with
        bits := out, errcode := 0, busy := false, pend := none, raw := [], frm := [], pix := 0, checked := c }) ∧
    (s.keyb = [] →
      ∃ c, exec .xork s = .next { s with
        errcode := 1, busy := false, pend := none, raw := [], frm := [], pix := 0, checked := c })

/-! The frame_marker_detector sub-block. -/

/-- R151: after `n >= 24` scanned bits the window holds the last 24 of them, earliest bit most significant, so the detector matches
exactly when the marker ends there and enough bits were scanned. -/
def Obligations.WindowHoldsTheLastBits : Prop :=
  ∀ (m : MatchMin) (bs : Bits), 24 ≤ bs.length →
    (bs.foldl Detector.scanBit Detector.start).ncnt = bs.length ∧
    (∀ k, k < 24 → (bs.foldl Detector.scanBit Detector.start).win.getLsbD (23 - k) = bs.getD (bs.length - 24 + k) false) ∧
    ((bs.foldl Detector.scanBit Detector.start).isMatch m = true ↔
      matchMinBits m ≤ bs.length ∧ bs.drop (bs.length - 24) = marker)

/-- R160 with R153: `parse` gives what stands before the first window that matches, and fails exactly when none does. -/
def Obligations.ParseStopsAtTheFirstMarker : Prop :=
  ∀ (m : MatchMin) (raw : Bits),
    (∀ j, firstMatch m raw j → parse m raw = .ok (raw.take (j - 24))) ∧
    ((∀ j, ¬ firstMatch m raw j) → parse m raw = .err .markerNotFound)

/-- R162: when a frame parses back to its cipher bits, and what it parses to otherwise. -/
def Obligations.FrameParsesBackUnlessItCollides : Prop :=
  ∀ (m : MatchMin) (c : Bits),
    (parse m (c ++ marker) = .ok c ↔
      (∀ j, matchMinBits m ≤ j → ¬ markerEndsAt c j) ∧ matchMinBits m ≤ c.length + 24) ∧
    (∀ j, firstMatch m c j → parse m (c ++ marker) = .ok (c.take (j - 24))) ∧
    ((∀ j, matchMinBits m ≤ j → ¬ markerEndsAt c j) → c.length + 24 < matchMinBits m →
      parse m (c ++ marker) = .err .markerNotFound)

/-- R156, I1: what FBLD leaves, and that it leaves everything else. -/
def Obligations.FbldAppendsTheMarker : Prop :=
  ∀ s : State, s.busy = false →
    (s.bits.length + 24 ≤ s.params.maxBits →
      ∃ c, exec .fbld s = .next { s with
        bits := s.bits ++ List.replicate 22 false ++ [true, true]
        errcode := 0, busy := false, pend := none, raw := [], frm := [], pix := 0, checked := c }) ∧
    (s.params.maxBits < s.bits.length + 24 → exec .fbld s = .refused .bitsBound)

/-- R161, R282: what FPRS leaves, and that it leaves everything else. That `WIN` and `NCNT` stay as its own scan left them is the
model's inference, not R161's (log 16). -/
def Obligations.FprsCutsAtTheFirstMarker : Prop :=
  ∀ s : State, s.busy = false →
    (∀ j, firstMatch s.params.matchMin s.bits j →
      ∃ c, exec .fprs s = .next { s with
        bits := s.bits.take (j - 24), win := 0x000003, ncnt := j
        errcode := 0, busy := false, pend := none, raw := [], frm := [], pix := 0, checked := c }) ∧
    ((∀ j, ¬ firstMatch s.params.matchMin s.bits j) →
      ∃ w c, exec .fprs s = .next { s with
        win := w, ncnt := s.bits.length
        errcode := 3, busy := false, pend := none, raw := [], frm := [], pix := 0, checked := c })

/-! The lsb_pixel_embedder sub-block. -/

/-- R181, R183, R184: what EMBD leaves. With enough pixels, the blue LSB of pixel `i` becomes bit `i` of `BITS`, every other byte of
the carrier and every other field is as before; with too few, nothing but the status changes. -/
def Obligations.EmbdWritesTheBlueBits : Prop :=
  ∀ s : State, s.busy = false →
    (s.bits.length ≤ s.carW.toNat * s.carH.toNat →
      ∃ m c, exec .embd s = .next { s with
          carrier := m
          errcode := 0, busy := false, pend := none, raw := [], frm := [], pix := 0, checked := c } ∧
        (∀ i (h : i < s.bits.length), Memory.read m (blueAddr (posAt s.carW.toNat i)) =
          (Memory.read s.carrier (blueAddr (posAt s.carW.toNat i)) &&& 0xFE) ||| (if s.bits[i] then 1 else 0)) ∧
        (∀ a, (∀ i, i < s.bits.length → a ≠ blueAddr (posAt s.carW.toNat i)) →
          Memory.read m a = Memory.read s.carrier a)) ∧
    (s.carW.toNat * s.carH.toNat < s.bits.length →
      ∃ c, exec .embd s = .next { s with
        errcode := 2, busy := false, pend := none, raw := [], frm := [], pix := 0, checked := c })

/-! The lsb_pixel_extractor sub-block. -/

/-- R201, R203, R205, I1: what EXTR leaves. It takes the blue LSBs up to and including the first marker; without one it reads all
`W * H` pixels and reports MarkerNotFound; everything else, the carrier above all, is as before. That `WIN` and `NCNT` stay as the
scan left them (3 and `j`, or `W * H`) is the model's inference, not R201's (log 16). -/
def Obligations.ExtrReadsUpToTheFirstMarker : Prop :=
  ∀ s : State, s.busy = false →
    let px := blueBits s.carW.toNat s.carrier (s.carW.toNat * s.carH.toNat)
    (∀ j, firstMatch s.params.matchMin px j → j ≤ s.params.maxBits →
      ∃ c, exec .extr s = .next { s with
        bits := px.take j, xst := .found, win := 0x000003, ncnt := j
        errcode := 0, busy := false, pend := none, raw := [], frm := [], pix := 0, checked := c }) ∧
    ((∀ j, ¬ firstMatch s.params.matchMin px j) → s.carW.toNat * s.carH.toNat ≤ s.params.maxBits →
      ∃ w c, exec .extr s = .next { s with
        xst := .exhausted, win := w, ncnt := s.carW.toNat * s.carH.toNat
        errcode := 3, busy := false, pend := none, raw := [], frm := [], pix := 0, checked := c }) ∧
    (s.params.maxBits < s.carW.toNat * s.carH.toNat → (∀ j, j ≤ s.params.maxBits → ¬ firstMatch s.params.matchMin px j) →
      exec .extr s = .refused .bitsBound)

/-- R204: FPRS after a successful EXTR strips exactly the trailing marker. -/
def Obligations.FprsAfterExtrStripsTheMarker : Prop :=
  ∀ s t : State, s.busy = false → exec .extr s = .next t → t.errcode = 0 →
    24 ≤ t.bits.length ∧ t.bits.drop (t.bits.length - 24) = marker ∧
    ∃ u, exec .fprs t = .next u ∧ u.errcode = 0 ∧ u.bits = t.bits.take (t.bits.length - 24)

/-! The hide and reveal paths. -/

/-- R230, R183: what a successful HIDE leaves. -/
def Obligations.HideEmbedsTheEncipheredFrame : Prop :=
  ∀ (s : State) (m k c : Bits), s.busy = false →
    encodeText s.params.charset s.txt = .ok m → encodeText s.params.charset s.pwd = .ok k → applyKey m k = .ok c →
    c.length + 24 ≤ s.params.maxBits → c.length + 24 ≤ s.carW.toNat * s.carH.toNat → k.length ≤ 8 * s.params.maxPwd →
    ∃ mem b, exec .hide s = .next { s with
        bits := c ++ marker, keyb := k, carrier := mem
        errcode := 0, busy := false, pend := none, raw := [], frm := [], pix := 0, checked := b } ∧
      (∀ i (h : i < (c ++ marker).length), Memory.read mem (blueAddr (posAt s.carW.toNat i)) =
        (Memory.read s.carrier (blueAddr (posAt s.carW.toNat i)) &&& 0xFE) ||| (if (c ++ marker)[i] then 1 else 0)) ∧
      (∀ a, (∀ i, i < c.length + 24 → a ≠ blueAddr (posAt s.carW.toNat i)) →
        Memory.read mem a = Memory.read s.carrier a)

/-- R230, R284: the errors of HIDE in the order they are checked; a failing HIDE leaves the carrier and every buffer unchanged. I1: a
frame over `MAX_BITS` and a keystream over `8 * MAX_PWD` are refused; that the frame is refused before its capacity is compared, and
the keystream only at the completion, is the model's inference (log 11). -/
def Obligations.HideReportsTheFirstError : Prop :=
  ∀ s : State, s.busy = false →
    let failed (code : BitVec 3) := ∃ b, exec .hide s = .next { s with
      errcode := code, busy := false, pend := none, raw := [], frm := [], pix := 0, checked := b }
    ((∃ c ∈ s.txt, encChar s.params.charset c = none) → failed 4) ∧
    ((∀ c ∈ s.txt, encChar s.params.charset c ≠ none) → (∃ c ∈ s.pwd, encChar s.params.charset c = none) → failed 4) ∧
    ((∀ c ∈ s.txt, encChar s.params.charset c ≠ none) → s.pwd = [] → failed 1) ∧
    ((∀ c ∈ s.txt, encChar s.params.charset c ≠ none) → (∀ c ∈ s.pwd, encChar s.params.charset c ≠ none) → s.pwd ≠ [] →
      (s.params.maxBits < 8 * s.txt.length + 24 → exec .hide s = .refused .bitsBound) ∧
      (8 * s.txt.length + 24 ≤ s.params.maxBits → s.carW.toNat * s.carH.toNat < 8 * s.txt.length + 24 → failed 2) ∧
      (8 * s.txt.length + 24 ≤ s.params.maxBits → 8 * s.txt.length + 24 ≤ s.carW.toNat * s.carH.toNat →
        s.params.maxPwd < s.pwd.length → exec .hide s = .refused .keybBound))

/-- R240: what a successful RVEL leaves. That `WIN` and `NCNT` stay as the scan left them (3 and `j`) is the model's inference, not
R240's (log 16). -/
def Obligations.RvelRevealsTheMessage : Prop :=
  ∀ (s : State) (j : Nat) (k p : Bits), s.busy = false →
    firstMatch s.params.matchMin (blueBits s.carW.toNat s.carrier (s.carW.toNat * s.carH.toNat)) j →
    j ≤ s.params.maxBits → encodeText s.params.charset s.pwd = .ok k →
    applyKey (blueBits s.carW.toNat s.carrier (j - 24)) k = .ok p →
    (j - 24) / 8 ≤ s.params.maxTxt → k.length ≤ 8 * s.params.maxPwd →
    ∃ b, exec .rvel s = .next { s with
      txt := decodeBits s.params.charset p, bits := p, keyb := k, xst := .found, win := 0x000003, ncnt := j
      errcode := 0, busy := false, pend := none, raw := [], frm := [], pix := 0, checked := b }

/-- R240, R284: the errors of RVEL in the order they are met; a failing RVEL changes no buffer and not the carrier. I1: a `RAW` over
`MAX_BITS`, a text over `MAX_TXT` and a keystream over `8 * MAX_PWD` are refused; that `RAW` is checked at each pixel, and the text
before the keystream at the completion, is the model's inference (log 11). -/
def Obligations.RvelReportsTheFirstError : Prop :=
  ∀ s : State, s.busy = false →
    let px := blueBits s.carW.toNat s.carrier (s.carW.toNat * s.carH.toNat)
    let failed (x : Xst) (code : BitVec 3) := ∃ w n b, exec .rvel s = .next { s with
      xst := x, win := w, ncnt := n
      errcode := code, busy := false, pend := none, raw := [], frm := [], pix := 0, checked := b }
    ((∀ j, ¬ firstMatch s.params.matchMin px j) → s.carW.toNat * s.carH.toNat ≤ s.params.maxBits → failed .exhausted 3) ∧
    (∀ j, firstMatch s.params.matchMin px j → j ≤ s.params.maxBits →
      ((∃ c ∈ s.pwd, encChar s.params.charset c = none) → failed .found 4) ∧
      (s.pwd = [] → failed .found 1) ∧
      ((∀ c ∈ s.pwd, encChar s.params.charset c ≠ none) → s.pwd ≠ [] →
        (s.params.maxTxt < (j - 24) / 8 → exec .rvel s = .refused .txtBound) ∧
        ((j - 24) / 8 ≤ s.params.maxTxt → s.params.maxPwd < s.pwd.length → exec .rvel s = .refused .keybBound))) ∧
    (s.params.maxBits < s.carW.toNat * s.carH.toNat → (∀ j, j ≤ s.params.maxBits → ¬ firstMatch s.params.matchMin px j) →
      exec .rvel s = .refused .bitsBound)

/-- R231: a successful HIDE ends in exactly the state the sequence ENCT, ENCK, XORK, FBLD, EMBD ends in; a failing one reports the
error of that sequence's first failing command and changes no buffer. The bounds are such that no command of the sequence is
refused (I1). -/
def Obligations.HideIsTheDiscreteSequence : Prop :=
  ∀ s t : State, s.busy = false →
    8 * s.txt.length + 24 ≤ s.params.maxBits → s.pwd.length ≤ s.params.maxPwd → exec .hide s = .next t →
    (t.errcode = 0 → commandSequence [.enct, .enck, .xork, .fbld, .embd] s = .next t) ∧
    (t.errcode ≠ 0 → ∃ u, commandSequence [.enct, .enck, .xork, .fbld, .embd] s = .next u ∧
      u.errcode = t.errcode ∧ u.carrier = t.carrier ∧ t.txt = s.txt ∧ t.pwd = s.pwd ∧ t.bits = s.bits ∧ t.keyb = s.keyb)

/-- R241: a successful RVEL ends in exactly the state the sequence EXTR, FPRS, ENCK, XORK, DECB ends in; a failing one reports the
error of that sequence's first failing command and changes no buffer. -/
def Obligations.RvelIsTheDiscreteSequence : Prop :=
  ∀ s t : State, s.busy = false → exec .rvel s = .next t →
    (t.errcode = 0 → commandSequence [.extr, .fprs, .enck, .xork, .decb] s = .next t) ∧
    (t.errcode ≠ 0 → ∃ u, commandSequence [.extr, .fprs, .enck, .xork, .decb] s = .next u ∧
      u.errcode = t.errcode ∧ u.xst = t.xst ∧ u.carrier = t.carrier ∧
      t.txt = s.txt ∧ t.pwd = s.pwd ∧ t.bits = s.bits ∧ t.keyb = s.keyb)

/-- R242: after a successful HIDE, an RVEL with the same password gives the message back exactly when the cipher bits do not contain
the marker (with `MATCH_MIN = 24`). -/
def Obligations.HideThenRvelReturnsTheMessage : Prop :=
  ∀ (s t : State) (m k c : Bits), s.busy = false →
    s.params.matchMin = .fullWindow → s.txt.length ≤ s.params.maxTxt → exec .hide s = .next t → t.errcode = 0 →
    encodeText s.params.charset s.txt = .ok m → encodeText s.params.charset s.pwd = .ok k → applyKey m k = .ok c →
    ((∃ u, exec .rvel t = .next u ∧ u.errcode = 0 ∧ u.txt = s.txt) ↔ ¬ containsMarker c)

/-- R243 with R242: an RVEL with another password still succeeds, and gives the message enciphered with both keystreams, where the
cipher bits do not contain the marker; a collided frame is left out. -/
def Obligations.RvelWithAnotherPasswordStillSucceeds : Prop :=
  ∀ (s t : State) (m k c k' : Bits) (pwd' : List Code), s.busy = false →
    s.params.matchMin = .fullWindow → s.txt.length ≤ s.params.maxTxt → exec .hide s = .next t → t.errcode = 0 →
    encodeText s.params.charset s.txt = .ok m → encodeText s.params.charset s.pwd = .ok k → applyKey m k = .ok c →
    ¬ containsMarker c →
    encodeText s.params.charset pwd' = .ok k' → k' ≠ [] → k'.length ≤ 8 * s.params.maxPwd →
    ∃ u, exec .rvel { t with pwd := pwd' } = .next u ∧ u.errcode = 0 ∧ u.xst = .found ∧
      applyKey c k' = .ok u.bits ∧ u.txt = decodeBits s.params.charset u.bits

/-- R244: HIDE and RVEL read no buffer but `TXT` (HIDE only) and `PWD`: other contents of the working buffers change neither what
they answer nor what they leave in the carrier. -/
def Obligations.PathsReadNoWorkingBuffer : Prop :=
  (∀ (s t : State) (b k : Bits), s.busy = false → exec .hide s = .next t →
    ∃ u, exec .hide { s with bits := b, keyb := k } = .next u ∧ u.errcode = t.errcode ∧ u.xst = t.xst ∧
      u.carrier = t.carrier ∧ (t.errcode = 0 → u = t)) ∧
  (∀ (s t : State) (b k : Bits) (txt : List Code), s.busy = false → exec .rvel s = .next t →
    ∃ u, exec .rvel { s with txt := txt, bits := b, keyb := k } = .next u ∧ u.errcode = t.errcode ∧ u.xst = t.xst ∧
      u.carrier = t.carrier ∧ (t.errcode = 0 → u = t))

/-! Rules of every command. -/

/-- R282, R283: after any failed command everything is as it was, carrier and buffers included, but for the status and the engine's
hidden registers; `XST` is as R282 says. -/
def Obligations.ErrorsArePrecise : Prop :=
  ∀ (i : Instr) (s t : State), s.busy = false → exec i s = .next t → t.errcode ≠ 0 →
    (∃ w n b, t = { s with
      errcode := t.errcode, xst := t.xst, win := w, ncnt := n
      busy := false, pend := none, raw := [], frm := [], pix := 0, checked := b }) ∧
    (i ≠ .extr → i ≠ .rvel → t.xst = s.xst) ∧
    (i = .extr ∨ i = .rvel → (t.errcode = 3 → t.xst = .exhausted) ∧ (t.errcode ≠ 3 → t.xst = .found))

/-- R78, R280: each command reports only the errors the table gives it. -/
def Obligations.EachCommandReportsOnlyItsErrors : Prop :=
  ∀ (i : Instr) (s t : State), s.busy = false → exec i s = .next t →
    t.errcode = 0 ∨
    (t.errcode = 4 ∧ (i = .enct ∨ i = .enck ∨ i = .hide ∨ i = .rvel)) ∨
    (t.errcode = 1 ∧ (i = .xork ∨ i = .hide ∨ i = .rvel)) ∨
    (t.errcode = 2 ∧ (i = .embd ∨ i = .hide)) ∨
    (t.errcode = 3 ∧ (i = .fprs ∨ i = .extr ∨ i = .rvel))

/-- R22, R34, R56, R31, R24: what no command writes, and which commands alone write the carrier, `XST`, `KEYB` and `TXT`; that the three
scans alone write `WIN` and `NCNT` is log 16. -/
def Obligations.CommandsWriteOnlyTheirState : Prop :=
  ∀ (i : Instr) (s t : State), s.busy = false → exec i s = .next t →
    t.pwd = s.pwd ∧ t.idx = s.idx ∧ t.carW = s.carW ∧ t.carH = s.carH ∧ t.params = s.params ∧
    t.prog = s.prog ∧ t.hpc = s.hpc ∧ t.vars = s.vars ∧ t.halted = s.halted ∧ t.sched = s.sched ∧ t.faults = s.faults ∧
    (i ≠ .embd → i ≠ .hide → t.carrier = s.carrier) ∧
    (i ≠ .extr → i ≠ .rvel → t.xst = s.xst) ∧
    (i ≠ .enck → i ≠ .hide → i ≠ .rvel → t.keyb = s.keyb) ∧
    (i ≠ .decb → i ≠ .rvel → t.txt = s.txt) ∧
    (i = .enck ∨ i = .decb ∨ i = .embd → t.bits = s.bits) ∧
    (i ≠ .fprs → i ≠ .extr → i ≠ .rvel → t.win = s.win ∧ t.ncnt = s.ncnt)

/-! Invariants: from every state, not only from reset. -/

/-- R12, R13: no step changes the parameters. -/
def Obligations.StepKeepsTheParameters : Prop :=
  ∀ s t : State, step s = .next t → t.params = s.params

/-- The carrier and the host's variables keep their canonical form (log 1, log 2). -/
def Obligations.StepKeepsMemoryCanonical : Prop :=
  ∀ s t : State, s.MemoryInv → step s = .next t → t.MemoryInv

/-- R30, I12: `ERRCODE` never holds 5, 6 or 7. -/
def Obligations.StepKeepsErrcodeDefined : Prop :=
  ∀ s t : State, s.StatusInv → step s = .next t → t.StatusInv

/-- R13, R21 to R24, I1: every buffer keeps its bound, and `KEYB` holds whole bytes. -/
def Obligations.StepKeepsTheBufferBounds : Prop :=
  ∀ s t : State, s.BufferInv → step s = .next t → t.BufferInv

/-- R38 to R41, R203: the engine's hidden state fits the command in progress: `BUSY` and `PEND`, the bits read, the window, the
extractor state, the embedding's place. -/
def Obligations.StepKeepsTheEngineConsistent : Prop :=
  ∀ s t : State, s.EngineInv → step s = .next t → t.EngineInv

/-- R44, R310: the block's state after reset meets all four invariants. The carrier, the host's variables and the phase bit in it, of
which the rules say nothing, are the model's choices (log 1, log 3, log 10). -/
def Obligations.ResetMeetsTheInvariants : Prop :=
  State.reset.MemoryInv ∧ State.reset.StatusInv ∧ State.reset.BufferInv ∧ State.reset.EngineInv

/-- R320, R325: no fault is recorded at reset, a step records one exactly for a host operation that breaks R321, no later step clears one,
reset included, and a run ends only with none. The model's choices: that the marks are a list in State (log 6); that HALT is a bit and a run
ends in every state with that bit, `BUSY = 0` and no mark (log 14), a state left by a reset after a HALT while `BUSY = 1` included, of
which R325 says nothing (log 25); that an access to a reserved register (log 23) or a write of a channel above 255 (log 26) while
`BUSY = 1` is such an operation. -/
def Obligations.FaultMarksAreKept : Prop :=
  State.reset.faults = [] ∧
  (∀ s t : State, step s = .next t →
    (t.faults = .hostHazard :: s.faults ∧ s.busy = true ∧ ∃ st, s.aboutTo st ∧ st.touchesBlock = true) ∨
    (t.faults = s.faults ∧ ¬ (s.busy = true ∧ ∃ st, s.aboutTo st ∧ st.touchesBlock = true))) ∧
  (∀ s t : State, s.faults ≠ [] → step s = .next t → t.faults ≠ []) ∧
  (∀ s : State, s.isEnd = true ↔ s.halted = true ∧ s.busy = false ∧ s.faults = [])
end

