-- ==== Sys2Proof/Laws/Detector.lean ====
section
/-! SUPPORT. The laws of the detector, the scan and the marker. -/

namespace Sys2Proof.Machine

theorem marker_length : marker.length = 24 := rfl

theorem matchMin_ge (m : MatchMin) : 24 ≤ matchMinBits m := by cases m <;> decide

/-- The count after a bit sequence. -/
theorem feed_ncnt (bs : Bits) (x : Detector) : (bs.foldl Detector.scanBit x).ncnt = x.ncnt + bs.length := by
  induction bs generalizing x with
  | nil => rfl
  | cons b r ih => simp [ih, Detector.scanBit]; omega

/-- The window after one bit. -/
theorem scanBit_win (x : Detector) (d : Bit) (k : Nat) (hk : k < 24) :
    (x.scanBit d).win.getLsbD k = if k = 0 then d else x.win.getLsbD (k - 1) := by
  simp [Detector.scanBit, hk]
  cases k with
  | zero => cases d <;> simp
  | succ k =>
    have e : (BitVec.ofNat 24 d.toNat).getLsbD (k + 1) = false := by cases d <;> simp
    rw [← BitVec.getLsbD_eq_getElem, ← BitVec.getLsbD_eq_getElem, e]; simp

/-- The window after a bit sequence. -/
theorem feed_win (bs : Bits) (x : Detector) (k : Nat) (hk : k < 24) :
    (bs.foldl Detector.scanBit x).win.getLsbD k =
      if k < bs.length then bs.getD (bs.length - 1 - k) false else x.win.getLsbD (k - bs.length) := by
  induction bs generalizing x with
  | nil => simp
  | cons b r ih =>
    simp only [List.foldl_cons, ih, List.length_cons]
    split
    · rename_i h
      rw [if_pos (by omega)]
      have : r.length + 1 - 1 - k = (r.length - 1 - k) + 1 := by omega
      rw [this]; simp [List.getD]
    · rename_i h
      rw [scanBit_win _ _ _ (by omega)]
      split
      · rename_i h0
        rw [if_pos (by omega)]
        have : r.length + 1 - 1 - k = 0 := by omega
        rw [this]; rfl
      · rw [if_neg (by omega)]; congr 1

theorem win_eq_marker (w : BitVec 24) (f : Nat → Bool) (h : ∀ k, k < 24 → w.getLsbD (23 - k) = f k) :
    w = markerWindow ↔ ∀ k, k < 24 → marker[k]? = some (f k) := by
  have hm : ∀ k, k < 24 → marker[k]? = some (markerWindow.getLsbD (23 - k)) := by decide
  constructor
  · rintro rfl k hk; rw [hm k hk, h k hk]
  · intro hf
    apply BitVec.eq_of_getLsbD_eq
    intro i hi
    have h1 := h (23 - i) (by omega)
    have h2 := hf (23 - i) (by omega)
    rw [hm _ (by omega)] at h2
    have : 23 - (23 - i) = i := by omega
    rw [this] at h1 h2
    simp at h2
    rw [h1, h2]

/-- When the detector matches at the end of a bit sequence. -/
theorem feed_start_isMatch (m : MatchMin) (bs : Bits) (hl : 24 ≤ bs.length) :
    (bs.foldl Detector.scanBit Detector.start).isMatch m = true ↔
      matchMinBits m ≤ bs.length ∧ bs.drop (bs.length - 24) = marker := by
  have hw : ∀ k, k < 24 → (bs.foldl Detector.scanBit Detector.start).win.getLsbD (23 - k) = bs.getD (bs.length - 24 + k) false := by
    intro k hk
    rw [feed_win _ _ _ (by omega), if_pos (by omega)]
    congr 1; omega
  have := win_eq_marker _ _ hw
  simp only [Detector.isMatch, Bool.and_eq_true, decide_eq_true_eq, feed_ncnt, Detector.start, Nat.zero_add, beq_iff_eq]
  refine and_congr_right fun _ => ?_
  change (bs.foldl Detector.scanBit Detector.start).win = markerWindow ↔ _
  rw [this]
  constructor
  · intro h
    apply List.ext_getElem?
    intro k
    by_cases hk : k < 24
    · rw [h k hk, List.getElem?_drop, List.getD_eq_getElem?_getD, List.getElem?_eq_getElem (by omega)]; rfl
    · have e1 : (bs.drop (bs.length - 24))[k]? = none := by simp; omega
      have e2 : marker[k]? = none := by simp [marker_length]; omega
      rw [e1, e2]
  · intro h k hk
    rw [← h, List.getElem?_drop, List.getD_eq_getElem?_getD, List.getElem?_eq_getElem (by omega)]; rfl

/-- When the detector matches after `j` bits of a sequence. -/
theorem isMatch_take (m : MatchMin) (bs : Bits) (j : Nat) (hj : j ≤ bs.length) :
    ((bs.take j).foldl Detector.scanBit Detector.start).isMatch m = true ↔ matchMinBits m ≤ j ∧ markerEndsAt bs j := by
  have hl : (bs.take j).length = j := by simp [hj]
  by_cases h : matchMinBits m ≤ j
  · have := matchMin_ge m
    rw [feed_start_isMatch _ _ (by omega), hl]
    simp [markerEndsAt, h, hj]; omega
  · have : ((bs.take j).foldl Detector.scanBit Detector.start).isMatch m = false := by
      simp [Detector.isMatch, feed_ncnt, Detector.start, hj]; intro; omega
    simp [this, h]

/-- A scan stops at its first match, or reads the whole sequence. -/
theorem scan_spec (m : MatchMin) : ∀ (bs : Bits) (x : Detector),
    (∃ j, 1 ≤ j ∧ j ≤ bs.length ∧ ((bs.take j).foldl Detector.scanBit x).isMatch m = true ∧
      (∀ i, 1 ≤ i → i < j → ((bs.take i).foldl Detector.scanBit x).isMatch m = false) ∧
      scan m x bs = ((bs.take j).foldl Detector.scanBit x, true)) ∨
    ((∀ i, 1 ≤ i → i ≤ bs.length → ((bs.take i).foldl Detector.scanBit x).isMatch m = false) ∧
      scan m x bs = (bs.foldl Detector.scanBit x, false))
  | [], x => by right; exact ⟨fun i h1 h2 => by simp at h2; omega, rfl⟩
  | d :: r, x => by
    by_cases hd : (x.scanBit d).isMatch m = true
    · left
      exact ⟨1, by omega, by simp, by simpa using hd, fun i h1 h2 => by omega, by simp [scan, hd]⟩
    · have hd' : (x.scanBit d).isMatch m = false := by simpa using hd
      have key : ∀ i, 1 ≤ i → ((d :: r).take i).foldl Detector.scanBit x = (r.take (i-1)).foldl Detector.scanBit (x.scanBit d) := by
        intro i hi; obtain ⟨i, rfl⟩ : ∃ k, i = k + 1 := ⟨i-1, by omega⟩; simp
      rcases scan_spec m r (x.scanBit d) with ⟨j, h1, h2, h3, h4, h5⟩ | ⟨h1, h2⟩
      · left
        refine ⟨j+1, by omega, by simp [h2], ?_, ?_, ?_⟩
        · rw [key _ (by omega)]; simpa using h3
        · intro i hi1 hi2
          rw [key _ hi1]
          by_cases hi : i = 1
          · subst hi; simpa using hd'
          · exact h4 (i-1) (by omega) (by omega)
        · simp [scan, hd', h5]
      · right
        refine ⟨?_, by simp [scan, hd', h2]⟩
        intro i hi1 hi2
        rw [key _ hi1]
        by_cases hi : i = 1
        · subst hi; simpa using hd'
        · exact h1 (i-1) (by omega) (by simp at hi2; omega)

theorem scan_start_of_firstMatch {m : MatchMin} {bs : Bits} {j : Nat} (h : firstMatch m bs j) :
    scan m Detector.start bs = ((bs.take j).foldl Detector.scanBit Detector.start, true) := by
  obtain ⟨h1, h2, h3⟩ := h
  have h24 := matchMin_ge m
  rcases scan_spec m bs Detector.start with ⟨i, a1, a2, a3, a4, a5⟩ | ⟨a1, a2⟩
  · rw [isMatch_take _ _ _ a2] at a3
    have : i = j := by
      rcases lt_trichotomy i j with hl | he | hg
      · exact absurd a3.2 (h3 i a3.1 hl)
      · exact he
      · have := a4 j (by omega) hg
        have h' := (isMatch_take m bs j h2.2.1).2 ⟨h1, h2⟩
        simp [this] at h'
    rw [a5, this]
  · have := a1 j (by omega) h2.2.1
    have h' := (isMatch_take m bs j h2.2.1).2 ⟨h1, h2⟩
    simp [this] at h'

/-- A scan without a match reads the whole sequence. -/
theorem scan_start_of_no_match {m : MatchMin} {bs : Bits} (h : ∀ j, ¬ firstMatch m bs j) :
    scan m Detector.start bs = (bs.foldl Detector.scanBit Detector.start, false) := by
  rcases scan_spec m bs Detector.start with ⟨i, a1, a2, a3, a4, a5⟩ | ⟨a1, a2⟩
  · exfalso
    rw [isMatch_take _ _ _ a2] at a3
    refine h i ⟨a3.1, a3.2, fun k hk1 hk2 hk3 => ?_⟩
    have := a4 k (by have := matchMin_ge m; omega) hk2
    have h' := (isMatch_take m bs k hk3.2.1).2 ⟨hk1, hk3⟩
    simp [this] at h'
  · exact a2

theorem firstMatch_win {m : MatchMin} {bs : Bits} {j : Nat} (h : firstMatch m bs j) :
    (bs.take j).foldl Detector.scanBit Detector.start = ⟨0x000003, j⟩ := by
  have h' := (isMatch_take m bs j h.2.1.2.1).2 ⟨h.1, h.2.1⟩
  have hn := feed_ncnt (bs.take j) Detector.start
  simp only [Detector.isMatch, Bool.and_eq_true, beq_iff_eq] at h'
  have hl : (bs.take j).length = j := by simp [h.2.1.2.1]
  rw [hl] at hn
  cases hx : (bs.take j).foldl Detector.scanBit Detector.start with
  | mk w n => rw [hx] at h' hn; simp [markerWindow, Detector.start] at h' hn; simp [h', hn]

/-- A scan stops at the first match, with the marker in its window. -/
theorem scan_firstMatch {m : MatchMin} {bs : Bits} {j : Nat} (h : firstMatch m bs j) :
    scan m Detector.start bs = (⟨0x000003, j⟩, true) := by
  rw [scan_start_of_firstMatch h, firstMatch_win h]

/-- A marker that ends somewhere gives a first match. -/
theorem exists_firstMatch {m : MatchMin} {bs : Bits} {j : Nat} (h1 : matchMinBits m ≤ j) (h2 : markerEndsAt bs j) :
    ∃ i, i ≤ j ∧ firstMatch m bs i := by
  induction j using Nat.strong_induction_on with
  | _ j ih =>
    by_cases h : ∃ i, matchMinBits m ≤ i ∧ i < j ∧ markerEndsAt bs i
    · obtain ⟨i, a, b, c⟩ := h
      obtain ⟨k, hk, hk2⟩ := ih i b a c
      exact ⟨k, by omega, hk2⟩
    · push Not at h
      exact ⟨j, le_rfl, h1, h2, h⟩

theorem firstMatch_or_none (m : MatchMin) (bs : Bits) : (∃ j, firstMatch m bs j) ∨ ∀ j, ¬ firstMatch m bs j := by
  by_cases h : ∃ j, firstMatch m bs j
  · exact .inl h
  · exact .inr (by simpa using h)

/-- A sequence has at most one first match. -/
theorem firstMatch_unique {m : MatchMin} {bs : Bits} {i j : Nat} (hi : firstMatch m bs i) (hj : firstMatch m bs j) : i = j := by
  rcases lt_trichotomy i j with h | h | h
  · exact absurd hi.2.1 (hj.2.2 i hi.1 h)
  · exact h
  · exact absurd hj.2.1 (hi.2.2 j hj.1 h)

theorem firstMatch_take {m : MatchMin} {bs : Bits} {j : Nat} (h : firstMatch m bs j) : firstMatch m (bs.take j) j := by
  obtain ⟨h1, h2, h3⟩ := h
  have hj := h2.2.1
  have key : ∀ i, i ≤ j → (markerEndsAt (bs.take j) i ↔ markerEndsAt bs i) := by
    intro i hi
    simp only [markerEndsAt, List.take_take, Nat.min_eq_left hi, List.length_take]
    constructor <;> rintro ⟨a, b, c⟩ <;> exact ⟨a, by omega, c⟩
  exact ⟨h1, (key j le_rfl).2 h2, fun i a b c => h3 i a b ((key i (by omega)).1 c)⟩

theorem markerEndsAt_append_lt {c d : Bits} {j : Nat} (h : j ≤ c.length) : markerEndsAt (c ++ d) j ↔ markerEndsAt c j := by
  unfold markerEndsAt
  rw [List.take_append_of_le_length h]
  simp [h]; omega

theorem firstMatch_append {m : MatchMin} {c d : Bits} {j : Nat} (h : firstMatch m c j) : firstMatch m (c ++ d) j := by
  obtain ⟨h1, h2, h3⟩ := h
  have := h2.2.1
  refine ⟨h1, (markerEndsAt_append_lt this).2 h2, fun i a b c' => h3 i a b ((markerEndsAt_append_lt (by omega)).1 c')⟩

/-- No marker ends inside the appended marker but at its end: `MARKER` has no border. -/
theorem markerEndsAt_frame {c : Bits} {j : Nat} (hc : c.length < j) (h : markerEndsAt (c ++ marker) j) :
    j = c.length + 24 := by
  obtain ⟨h1, h2, h3⟩ := h
  simp [marker_length] at h2
  by_contra hne
  -- bit at last position of window
  have hget : ∀ k, k < 24 → (c ++ marker)[j - 24 + k]? = marker[k]? := by
    intro k hk
    have := congrArg (fun l => l[k]?) h3
    simp only [List.getElem?_drop] at this
    rwa [List.getElem?_take_of_lt (by omega)] at this
  have e23 := hget 23 (by omega)
  have e22 := hget 22 (by omega)
  rw [List.getElem?_append_right (by omega)] at e23
  obtain ⟨t, ht⟩ : ∃ t, j = c.length + t := ⟨j - c.length, by omega⟩
  have i1 : j - 24 + 23 - c.length = t - 1 := by omega
  rw [i1] at e23
  have ht' : t < 24 := by omega
  have ht1 : 1 ≤ t := by omega
  have m23 : marker[23]? = some true := rfl
  have m22 : marker[22]? = some true := rfl
  rw [m23] at e23; rw [m22] at e22
  have : t = 23 := by
    have := ht'; have := ht1
    interval_cases t <;> revert e23 <;> decide
  subst this
  rw [List.getElem?_append_right (by omega)] at e22
  have i2 : j - 24 + 22 - c.length = 21 := by omega
  rw [i2] at e22
  exact absurd e22 (by decide)

theorem markerEndsAt_frame_end (c : Bits) : markerEndsAt (c ++ marker) (c.length + 24) := by
  refine ⟨by omega, by simp [marker_length], ?_⟩
  rw [List.take_of_length_le (by simp [marker_length])]
  simp

/-- A frame without a collision first matches at its end. -/
theorem firstMatch_frame {m : MatchMin} {c : Bits} (h : ∀ j, matchMinBits m ≤ j → ¬ markerEndsAt c j)
    (h2 : matchMinBits m ≤ c.length + 24) :
    firstMatch m (c ++ marker) (c.length + 24) := by
  refine ⟨h2, markerEndsAt_frame_end c, fun i h1 h3 h4 => ?_⟩
  by_cases hi : i ≤ c.length
  · exact h i h1 ((markerEndsAt_append_lt hi).1 h4)
  · have := markerEndsAt_frame (by omega) h4; omega

theorem frame_cases (m : MatchMin) (c : Bits) :
    (∃ j, firstMatch m c j) ∨ (∀ j, matchMinBits m ≤ j → ¬ markerEndsAt c j) := by
  by_cases h : ∃ j, matchMinBits m ≤ j ∧ markerEndsAt c j
  · obtain ⟨j, h1, h2⟩ := h
    obtain ⟨i, -, hi⟩ := exists_firstMatch h1 h2
    exact .inl ⟨i, hi⟩
  · right; push Not at h; exact h

/-- A scan without a match goes on with the next bit. -/
theorem scan_append_none {m : MatchMin} : ∀ {bs : Bits} {x y : Detector} (d : Bit), scan m x bs = (y, false) →
    scan m x (bs ++ [d]) = (y.scanBit d, (y.scanBit d).isMatch m)
  | [], x, y, d, h => by
    simp [scan] at h; subst h
    by_cases hm : (x.scanBit d).isMatch m = true <;> simp [scan, hm]
  | b :: r, x, y, d, h => by
    unfold scan at h
    split at h
    · simp at h
    · rename_i hb
      have := scan_append_none d h
      simp [scan, hb, this]

end Sys2Proof.Machine
end

