-- ==== Sys2Proof/Laws/State.lean ====
section
/-! SUPPORT. What each named update of the state does to each field: one lemma per field per update, true by `rfl`. -/

namespace Sys2Proof.Machine

section

variable (s : State)

@[simp] theorem State.begin_txt (i : Instr) : (s.begin i).txt = s.txt := rfl
@[simp] theorem State.begin_pwd (i : Instr) : (s.begin i).pwd = s.pwd := rfl
@[simp] theorem State.begin_bits (i : Instr) : (s.begin i).bits = s.bits := rfl
@[simp] theorem State.begin_keyb (i : Instr) : (s.begin i).keyb = s.keyb := rfl
@[simp] theorem State.begin_busy (i : Instr) : (s.begin i).busy = true := rfl
@[simp] theorem State.begin_errcode (i : Instr) : (s.begin i).errcode = s.errcode := rfl
@[simp] theorem State.begin_xst (i : Instr) : (s.begin i).xst = s.xst := rfl
@[simp] theorem State.begin_carW (i : Instr) : (s.begin i).carW = s.carW := rfl
@[simp] theorem State.begin_carH (i : Instr) : (s.begin i).carH = s.carH := rfl
@[simp] theorem State.begin_idx (i : Instr) : (s.begin i).idx = s.idx := rfl
@[simp] theorem State.begin_pend (i : Instr) : (s.begin i).pend = some i := rfl
@[simp] theorem State.begin_pix (i : Instr) : (s.begin i).pix = s.pix := rfl
@[simp] theorem State.begin_win (i : Instr) : (s.begin i).win = s.win := rfl
@[simp] theorem State.begin_ncnt (i : Instr) : (s.begin i).ncnt = s.ncnt := rfl
@[simp] theorem State.begin_raw (i : Instr) : (s.begin i).raw = s.raw := rfl
@[simp] theorem State.begin_frm (i : Instr) : (s.begin i).frm = s.frm := rfl
@[simp] theorem State.begin_checked (i : Instr) : (s.begin i).checked = false := rfl
@[simp] theorem State.begin_carrier (i : Instr) : (s.begin i).carrier = s.carrier := rfl
@[simp] theorem State.begin_params (i : Instr) : (s.begin i).params = s.params := rfl
@[simp] theorem State.begin_prog (i : Instr) : (s.begin i).prog = s.prog := rfl
@[simp] theorem State.begin_hpc (i : Instr) : (s.begin i).hpc = s.hpc := rfl
@[simp] theorem State.begin_vars (i : Instr) : (s.begin i).vars = s.vars := rfl
@[simp] theorem State.begin_halted (i : Instr) : (s.begin i).halted = s.halted := rfl
@[simp] theorem State.begin_sched (i : Instr) : (s.begin i).sched = s.sched := rfl
@[simp] theorem State.begin_faults (i : Instr) : (s.begin i).faults = s.faults := rfl

@[simp] theorem State.finish_txt (code : BitVec 3) : (s.finish code).txt = s.txt := rfl
@[simp] theorem State.finish_pwd (code : BitVec 3) : (s.finish code).pwd = s.pwd := rfl
@[simp] theorem State.finish_bits (code : BitVec 3) : (s.finish code).bits = s.bits := rfl
@[simp] theorem State.finish_keyb (code : BitVec 3) : (s.finish code).keyb = s.keyb := rfl
@[simp] theorem State.finish_busy (code : BitVec 3) : (s.finish code).busy = false := rfl
@[simp] theorem State.finish_errcode (code : BitVec 3) : (s.finish code).errcode = code := rfl
@[simp] theorem State.finish_xst (code : BitVec 3) : (s.finish code).xst = s.xst := rfl
@[simp] theorem State.finish_carW (code : BitVec 3) : (s.finish code).carW = s.carW := rfl
@[simp] theorem State.finish_carH (code : BitVec 3) : (s.finish code).carH = s.carH := rfl
@[simp] theorem State.finish_idx (code : BitVec 3) : (s.finish code).idx = s.idx := rfl
@[simp] theorem State.finish_pend (code : BitVec 3) : (s.finish code).pend = none := rfl
@[simp] theorem State.finish_pix (code : BitVec 3) : (s.finish code).pix = 0 := rfl
@[simp] theorem State.finish_win (code : BitVec 3) : (s.finish code).win = s.win := rfl
@[simp] theorem State.finish_ncnt (code : BitVec 3) : (s.finish code).ncnt = s.ncnt := rfl
@[simp] theorem State.finish_raw (code : BitVec 3) : (s.finish code).raw = [] := rfl
@[simp] theorem State.finish_frm (code : BitVec 3) : (s.finish code).frm = [] := rfl
@[simp] theorem State.finish_checked (code : BitVec 3) : (s.finish code).checked = false := rfl
@[simp] theorem State.finish_carrier (code : BitVec 3) : (s.finish code).carrier = s.carrier := rfl
@[simp] theorem State.finish_params (code : BitVec 3) : (s.finish code).params = s.params := rfl
@[simp] theorem State.finish_prog (code : BitVec 3) : (s.finish code).prog = s.prog := rfl
@[simp] theorem State.finish_hpc (code : BitVec 3) : (s.finish code).hpc = s.hpc := rfl
@[simp] theorem State.finish_vars (code : BitVec 3) : (s.finish code).vars = s.vars := rfl
@[simp] theorem State.finish_halted (code : BitVec 3) : (s.finish code).halted = s.halted := rfl
@[simp] theorem State.finish_sched (code : BitVec 3) : (s.finish code).sched = s.sched := rfl
@[simp] theorem State.finish_faults (code : BitVec 3) : (s.finish code).faults = s.faults := rfl

@[simp] theorem State.complete_txt : (s.complete).txt = s.txt := rfl
@[simp] theorem State.complete_pwd : (s.complete).pwd = s.pwd := rfl
@[simp] theorem State.complete_bits : (s.complete).bits = s.bits := rfl
@[simp] theorem State.complete_keyb : (s.complete).keyb = s.keyb := rfl
@[simp] theorem State.complete_busy : (s.complete).busy = false := rfl
@[simp] theorem State.complete_errcode : (s.complete).errcode = 0 := rfl
@[simp] theorem State.complete_xst : (s.complete).xst = s.xst := rfl
@[simp] theorem State.complete_carW : (s.complete).carW = s.carW := rfl
@[simp] theorem State.complete_carH : (s.complete).carH = s.carH := rfl
@[simp] theorem State.complete_idx : (s.complete).idx = s.idx := rfl
@[simp] theorem State.complete_pend : (s.complete).pend = none := rfl
@[simp] theorem State.complete_pix : (s.complete).pix = 0 := rfl
@[simp] theorem State.complete_win : (s.complete).win = s.win := rfl
@[simp] theorem State.complete_ncnt : (s.complete).ncnt = s.ncnt := rfl
@[simp] theorem State.complete_raw : (s.complete).raw = [] := rfl
@[simp] theorem State.complete_frm : (s.complete).frm = [] := rfl
@[simp] theorem State.complete_checked : (s.complete).checked = false := rfl
@[simp] theorem State.complete_carrier : (s.complete).carrier = s.carrier := rfl
@[simp] theorem State.complete_params : (s.complete).params = s.params := rfl
@[simp] theorem State.complete_prog : (s.complete).prog = s.prog := rfl
@[simp] theorem State.complete_hpc : (s.complete).hpc = s.hpc := rfl
@[simp] theorem State.complete_vars : (s.complete).vars = s.vars := rfl
@[simp] theorem State.complete_halted : (s.complete).halted = s.halted := rfl
@[simp] theorem State.complete_sched : (s.complete).sched = s.sched := rfl
@[simp] theorem State.complete_faults : (s.complete).faults = s.faults := rfl

@[simp] theorem State.raise_txt (e : CmdError) : (s.raise e).txt = s.txt := rfl
@[simp] theorem State.raise_pwd (e : CmdError) : (s.raise e).pwd = s.pwd := rfl
@[simp] theorem State.raise_bits (e : CmdError) : (s.raise e).bits = s.bits := rfl
@[simp] theorem State.raise_keyb (e : CmdError) : (s.raise e).keyb = s.keyb := rfl
@[simp] theorem State.raise_busy (e : CmdError) : (s.raise e).busy = false := rfl
@[simp] theorem State.raise_errcode (e : CmdError) : (s.raise e).errcode = e.code := rfl
@[simp] theorem State.raise_xst (e : CmdError) : (s.raise e).xst = s.xst := rfl
@[simp] theorem State.raise_carW (e : CmdError) : (s.raise e).carW = s.carW := rfl
@[simp] theorem State.raise_carH (e : CmdError) : (s.raise e).carH = s.carH := rfl
@[simp] theorem State.raise_idx (e : CmdError) : (s.raise e).idx = s.idx := rfl
@[simp] theorem State.raise_pend (e : CmdError) : (s.raise e).pend = none := rfl
@[simp] theorem State.raise_pix (e : CmdError) : (s.raise e).pix = 0 := rfl
@[simp] theorem State.raise_win (e : CmdError) : (s.raise e).win = s.win := rfl
@[simp] theorem State.raise_ncnt (e : CmdError) : (s.raise e).ncnt = s.ncnt := rfl
@[simp] theorem State.raise_raw (e : CmdError) : (s.raise e).raw = [] := rfl
@[simp] theorem State.raise_frm (e : CmdError) : (s.raise e).frm = [] := rfl
@[simp] theorem State.raise_checked (e : CmdError) : (s.raise e).checked = false := rfl
@[simp] theorem State.raise_carrier (e : CmdError) : (s.raise e).carrier = s.carrier := rfl
@[simp] theorem State.raise_params (e : CmdError) : (s.raise e).params = s.params := rfl
@[simp] theorem State.raise_prog (e : CmdError) : (s.raise e).prog = s.prog := rfl
@[simp] theorem State.raise_hpc (e : CmdError) : (s.raise e).hpc = s.hpc := rfl
@[simp] theorem State.raise_vars (e : CmdError) : (s.raise e).vars = s.vars := rfl
@[simp] theorem State.raise_halted (e : CmdError) : (s.raise e).halted = s.halted := rfl
@[simp] theorem State.raise_sched (e : CmdError) : (s.raise e).sched = s.sched := rfl
@[simp] theorem State.raise_faults (e : CmdError) : (s.raise e).faults = s.faults := rfl

@[simp] theorem State.resetBlock_txt : (s.resetBlock).txt = [] := rfl
@[simp] theorem State.resetBlock_pwd : (s.resetBlock).pwd = [] := rfl
@[simp] theorem State.resetBlock_bits : (s.resetBlock).bits = [] := rfl
@[simp] theorem State.resetBlock_keyb : (s.resetBlock).keyb = [] := rfl
@[simp] theorem State.resetBlock_busy : (s.resetBlock).busy = false := rfl
@[simp] theorem State.resetBlock_errcode : (s.resetBlock).errcode = 0 := rfl
@[simp] theorem State.resetBlock_xst : (s.resetBlock).xst = .idle := rfl
@[simp] theorem State.resetBlock_carW : (s.resetBlock).carW = 0 := rfl
@[simp] theorem State.resetBlock_carH : (s.resetBlock).carH = 0 := rfl
@[simp] theorem State.resetBlock_idx : (s.resetBlock).idx = 0 := rfl
@[simp] theorem State.resetBlock_pend : (s.resetBlock).pend = none := rfl
@[simp] theorem State.resetBlock_pix : (s.resetBlock).pix = 0 := rfl
@[simp] theorem State.resetBlock_win : (s.resetBlock).win = 0 := rfl
@[simp] theorem State.resetBlock_ncnt : (s.resetBlock).ncnt = 0 := rfl
@[simp] theorem State.resetBlock_raw : (s.resetBlock).raw = [] := rfl
@[simp] theorem State.resetBlock_frm : (s.resetBlock).frm = [] := rfl
@[simp] theorem State.resetBlock_checked : (s.resetBlock).checked = false := rfl
@[simp] theorem State.resetBlock_carrier : (s.resetBlock).carrier = s.carrier := rfl
@[simp] theorem State.resetBlock_params : (s.resetBlock).params = s.params := rfl
@[simp] theorem State.resetBlock_prog : (s.resetBlock).prog = s.prog := rfl
@[simp] theorem State.resetBlock_hpc : (s.resetBlock).hpc = s.hpc := rfl
@[simp] theorem State.resetBlock_vars : (s.resetBlock).vars = s.vars := rfl
@[simp] theorem State.resetBlock_halted : (s.resetBlock).halted = s.halted := rfl
@[simp] theorem State.resetBlock_sched : (s.resetBlock).sched = s.sched := rfl
@[simp] theorem State.resetBlock_faults : (s.resetBlock).faults = s.faults := rfl

@[simp] theorem State.scanBits_txt : (s.scanBits).txt = s.txt := rfl
@[simp] theorem State.scanBits_pwd : (s.scanBits).pwd = s.pwd := rfl
@[simp] theorem State.scanBits_bits : (s.scanBits).bits = s.bits := rfl
@[simp] theorem State.scanBits_keyb : (s.scanBits).keyb = s.keyb := rfl
@[simp] theorem State.scanBits_busy : (s.scanBits).busy = s.busy := rfl
@[simp] theorem State.scanBits_errcode : (s.scanBits).errcode = s.errcode := rfl
@[simp] theorem State.scanBits_xst : (s.scanBits).xst = s.xst := rfl
@[simp] theorem State.scanBits_carW : (s.scanBits).carW = s.carW := rfl
@[simp] theorem State.scanBits_carH : (s.scanBits).carH = s.carH := rfl
@[simp] theorem State.scanBits_idx : (s.scanBits).idx = s.idx := rfl
@[simp] theorem State.scanBits_pend : (s.scanBits).pend = s.pend := rfl
@[simp] theorem State.scanBits_pix : (s.scanBits).pix = s.pix := rfl
@[simp] theorem State.scanBits_win : (s.scanBits).win = (scan s.params.matchMin Detector.start s.bits).1.win := rfl
@[simp] theorem State.scanBits_ncnt : (s.scanBits).ncnt = (scan s.params.matchMin Detector.start s.bits).1.ncnt := rfl
@[simp] theorem State.scanBits_raw : (s.scanBits).raw = s.raw := rfl
@[simp] theorem State.scanBits_frm : (s.scanBits).frm = s.frm := rfl
@[simp] theorem State.scanBits_checked : (s.scanBits).checked = s.checked := rfl
@[simp] theorem State.scanBits_carrier : (s.scanBits).carrier = s.carrier := rfl
@[simp] theorem State.scanBits_params : (s.scanBits).params = s.params := rfl
@[simp] theorem State.scanBits_prog : (s.scanBits).prog = s.prog := rfl
@[simp] theorem State.scanBits_hpc : (s.scanBits).hpc = s.hpc := rfl
@[simp] theorem State.scanBits_vars : (s.scanBits).vars = s.vars := rfl
@[simp] theorem State.scanBits_halted : (s.scanBits).halted = s.halted := rfl
@[simp] theorem State.scanBits_sched : (s.scanBits).sched = s.sched := rfl
@[simp] theorem State.scanBits_faults : (s.scanBits).faults = s.faults := rfl

@[simp] theorem State.embedPixel_txt (d : Bit) : (s.embedPixel d).txt = s.txt := rfl
@[simp] theorem State.embedPixel_pwd (d : Bit) : (s.embedPixel d).pwd = s.pwd := rfl
@[simp] theorem State.embedPixel_bits (d : Bit) : (s.embedPixel d).bits = s.bits := rfl
@[simp] theorem State.embedPixel_keyb (d : Bit) : (s.embedPixel d).keyb = s.keyb := rfl
@[simp] theorem State.embedPixel_busy (d : Bit) : (s.embedPixel d).busy = s.busy := rfl
@[simp] theorem State.embedPixel_errcode (d : Bit) : (s.embedPixel d).errcode = s.errcode := rfl
@[simp] theorem State.embedPixel_xst (d : Bit) : (s.embedPixel d).xst = s.xst := rfl
@[simp] theorem State.embedPixel_carW (d : Bit) : (s.embedPixel d).carW = s.carW := rfl
@[simp] theorem State.embedPixel_carH (d : Bit) : (s.embedPixel d).carH = s.carH := rfl
@[simp] theorem State.embedPixel_idx (d : Bit) : (s.embedPixel d).idx = s.idx := rfl
@[simp] theorem State.embedPixel_pend (d : Bit) : (s.embedPixel d).pend = s.pend := rfl
@[simp] theorem State.embedPixel_pix (d : Bit) : (s.embedPixel d).pix = s.pix + 1 := rfl
@[simp] theorem State.embedPixel_win (d : Bit) : (s.embedPixel d).win = s.win := rfl
@[simp] theorem State.embedPixel_ncnt (d : Bit) : (s.embedPixel d).ncnt = s.ncnt := rfl
@[simp] theorem State.embedPixel_raw (d : Bit) : (s.embedPixel d).raw = s.raw := rfl
@[simp] theorem State.embedPixel_frm (d : Bit) : (s.embedPixel d).frm = s.frm := rfl
@[simp] theorem State.embedPixel_checked (d : Bit) : (s.embedPixel d).checked = s.checked := rfl
@[simp] theorem State.embedPixel_carrier (d : Bit) : (s.embedPixel d).carrier = memWrite s.carrier s.nextPos (withBlueBit (memRead s.carrier s.nextPos) d) := rfl
@[simp] theorem State.embedPixel_params (d : Bit) : (s.embedPixel d).params = s.params := rfl
@[simp] theorem State.embedPixel_prog (d : Bit) : (s.embedPixel d).prog = s.prog := rfl
@[simp] theorem State.embedPixel_hpc (d : Bit) : (s.embedPixel d).hpc = s.hpc := rfl
@[simp] theorem State.embedPixel_vars (d : Bit) : (s.embedPixel d).vars = s.vars := rfl
@[simp] theorem State.embedPixel_halted (d : Bit) : (s.embedPixel d).halted = s.halted := rfl
@[simp] theorem State.embedPixel_sched (d : Bit) : (s.embedPixel d).sched = s.sched := rfl
@[simp] theorem State.embedPixel_faults (d : Bit) : (s.embedPixel d).faults = s.faults := rfl

@[simp] theorem State.setVar_txt (x : Var) (v : Word) : (s.setVar x v).txt = s.txt := rfl
@[simp] theorem State.setVar_pwd (x : Var) (v : Word) : (s.setVar x v).pwd = s.pwd := rfl
@[simp] theorem State.setVar_bits (x : Var) (v : Word) : (s.setVar x v).bits = s.bits := rfl
@[simp] theorem State.setVar_keyb (x : Var) (v : Word) : (s.setVar x v).keyb = s.keyb := rfl
@[simp] theorem State.setVar_busy (x : Var) (v : Word) : (s.setVar x v).busy = s.busy := rfl
@[simp] theorem State.setVar_errcode (x : Var) (v : Word) : (s.setVar x v).errcode = s.errcode := rfl
@[simp] theorem State.setVar_xst (x : Var) (v : Word) : (s.setVar x v).xst = s.xst := rfl
@[simp] theorem State.setVar_carW (x : Var) (v : Word) : (s.setVar x v).carW = s.carW := rfl
@[simp] theorem State.setVar_carH (x : Var) (v : Word) : (s.setVar x v).carH = s.carH := rfl
@[simp] theorem State.setVar_idx (x : Var) (v : Word) : (s.setVar x v).idx = s.idx := rfl
@[simp] theorem State.setVar_pend (x : Var) (v : Word) : (s.setVar x v).pend = s.pend := rfl
@[simp] theorem State.setVar_pix (x : Var) (v : Word) : (s.setVar x v).pix = s.pix := rfl
@[simp] theorem State.setVar_win (x : Var) (v : Word) : (s.setVar x v).win = s.win := rfl
@[simp] theorem State.setVar_ncnt (x : Var) (v : Word) : (s.setVar x v).ncnt = s.ncnt := rfl
@[simp] theorem State.setVar_raw (x : Var) (v : Word) : (s.setVar x v).raw = s.raw := rfl
@[simp] theorem State.setVar_frm (x : Var) (v : Word) : (s.setVar x v).frm = s.frm := rfl
@[simp] theorem State.setVar_checked (x : Var) (v : Word) : (s.setVar x v).checked = s.checked := rfl
@[simp] theorem State.setVar_carrier (x : Var) (v : Word) : (s.setVar x v).carrier = s.carrier := rfl
@[simp] theorem State.setVar_params (x : Var) (v : Word) : (s.setVar x v).params = s.params := rfl
@[simp] theorem State.setVar_prog (x : Var) (v : Word) : (s.setVar x v).prog = s.prog := rfl
@[simp] theorem State.setVar_hpc (x : Var) (v : Word) : (s.setVar x v).hpc = s.hpc := rfl
@[simp] theorem State.setVar_vars (x : Var) (v : Word) : (s.setVar x v).vars = Store.set 0 s.vars x v := rfl
@[simp] theorem State.setVar_halted (x : Var) (v : Word) : (s.setVar x v).halted = s.halted := rfl
@[simp] theorem State.setVar_sched (x : Var) (v : Word) : (s.setVar x v).sched = s.sched := rfl
@[simp] theorem State.setVar_faults (x : Var) (v : Word) : (s.setVar x v).faults = s.faults := rfl

@[simp] theorem State.advance_txt : (s.advance).txt = s.txt := rfl
@[simp] theorem State.advance_pwd : (s.advance).pwd = s.pwd := rfl
@[simp] theorem State.advance_bits : (s.advance).bits = s.bits := rfl
@[simp] theorem State.advance_keyb : (s.advance).keyb = s.keyb := rfl
@[simp] theorem State.advance_busy : (s.advance).busy = s.busy := rfl
@[simp] theorem State.advance_errcode : (s.advance).errcode = s.errcode := rfl
@[simp] theorem State.advance_xst : (s.advance).xst = s.xst := rfl
@[simp] theorem State.advance_carW : (s.advance).carW = s.carW := rfl
@[simp] theorem State.advance_carH : (s.advance).carH = s.carH := rfl
@[simp] theorem State.advance_idx : (s.advance).idx = s.idx := rfl
@[simp] theorem State.advance_pend : (s.advance).pend = s.pend := rfl
@[simp] theorem State.advance_pix : (s.advance).pix = s.pix := rfl
@[simp] theorem State.advance_win : (s.advance).win = s.win := rfl
@[simp] theorem State.advance_ncnt : (s.advance).ncnt = s.ncnt := rfl
@[simp] theorem State.advance_raw : (s.advance).raw = s.raw := rfl
@[simp] theorem State.advance_frm : (s.advance).frm = s.frm := rfl
@[simp] theorem State.advance_checked : (s.advance).checked = s.checked := rfl
@[simp] theorem State.advance_carrier : (s.advance).carrier = s.carrier := rfl
@[simp] theorem State.advance_params : (s.advance).params = s.params := rfl
@[simp] theorem State.advance_prog : (s.advance).prog = s.prog := rfl
@[simp] theorem State.advance_hpc : (s.advance).hpc = s.hpc + 1 := rfl
@[simp] theorem State.advance_vars : (s.advance).vars = s.vars := rfl
@[simp] theorem State.advance_halted : (s.advance).halted = s.halted := rfl
@[simp] theorem State.advance_sched : (s.advance).sched = s.sched := rfl
@[simp] theorem State.advance_faults : (s.advance).faults = s.faults := rfl

@[simp] theorem State.jump_txt (label : Nat) : (s.jump label).txt = s.txt := rfl
@[simp] theorem State.jump_pwd (label : Nat) : (s.jump label).pwd = s.pwd := rfl
@[simp] theorem State.jump_bits (label : Nat) : (s.jump label).bits = s.bits := rfl
@[simp] theorem State.jump_keyb (label : Nat) : (s.jump label).keyb = s.keyb := rfl
@[simp] theorem State.jump_busy (label : Nat) : (s.jump label).busy = s.busy := rfl
@[simp] theorem State.jump_errcode (label : Nat) : (s.jump label).errcode = s.errcode := rfl
@[simp] theorem State.jump_xst (label : Nat) : (s.jump label).xst = s.xst := rfl
@[simp] theorem State.jump_carW (label : Nat) : (s.jump label).carW = s.carW := rfl
@[simp] theorem State.jump_carH (label : Nat) : (s.jump label).carH = s.carH := rfl
@[simp] theorem State.jump_idx (label : Nat) : (s.jump label).idx = s.idx := rfl
@[simp] theorem State.jump_pend (label : Nat) : (s.jump label).pend = s.pend := rfl
@[simp] theorem State.jump_pix (label : Nat) : (s.jump label).pix = s.pix := rfl
@[simp] theorem State.jump_win (label : Nat) : (s.jump label).win = s.win := rfl
@[simp] theorem State.jump_ncnt (label : Nat) : (s.jump label).ncnt = s.ncnt := rfl
@[simp] theorem State.jump_raw (label : Nat) : (s.jump label).raw = s.raw := rfl
@[simp] theorem State.jump_frm (label : Nat) : (s.jump label).frm = s.frm := rfl
@[simp] theorem State.jump_checked (label : Nat) : (s.jump label).checked = s.checked := rfl
@[simp] theorem State.jump_carrier (label : Nat) : (s.jump label).carrier = s.carrier := rfl
@[simp] theorem State.jump_params (label : Nat) : (s.jump label).params = s.params := rfl
@[simp] theorem State.jump_prog (label : Nat) : (s.jump label).prog = s.prog := rfl
@[simp] theorem State.jump_hpc (label : Nat) : (s.jump label).hpc = label := rfl
@[simp] theorem State.jump_vars (label : Nat) : (s.jump label).vars = s.vars := rfl
@[simp] theorem State.jump_halted (label : Nat) : (s.jump label).halted = s.halted := rfl
@[simp] theorem State.jump_sched (label : Nat) : (s.jump label).sched = s.sched := rfl
@[simp] theorem State.jump_faults (label : Nat) : (s.jump label).faults = s.faults := rfl

@[simp] theorem State.recordHazard_txt : (s.recordHazard).txt = s.txt := rfl
@[simp] theorem State.recordHazard_pwd : (s.recordHazard).pwd = s.pwd := rfl
@[simp] theorem State.recordHazard_bits : (s.recordHazard).bits = s.bits := rfl
@[simp] theorem State.recordHazard_keyb : (s.recordHazard).keyb = s.keyb := rfl
@[simp] theorem State.recordHazard_busy : (s.recordHazard).busy = s.busy := rfl
@[simp] theorem State.recordHazard_errcode : (s.recordHazard).errcode = s.errcode := rfl
@[simp] theorem State.recordHazard_xst : (s.recordHazard).xst = s.xst := rfl
@[simp] theorem State.recordHazard_carW : (s.recordHazard).carW = s.carW := rfl
@[simp] theorem State.recordHazard_carH : (s.recordHazard).carH = s.carH := rfl
@[simp] theorem State.recordHazard_idx : (s.recordHazard).idx = s.idx := rfl
@[simp] theorem State.recordHazard_pend : (s.recordHazard).pend = s.pend := rfl
@[simp] theorem State.recordHazard_pix : (s.recordHazard).pix = s.pix := rfl
@[simp] theorem State.recordHazard_win : (s.recordHazard).win = s.win := rfl
@[simp] theorem State.recordHazard_ncnt : (s.recordHazard).ncnt = s.ncnt := rfl
@[simp] theorem State.recordHazard_raw : (s.recordHazard).raw = s.raw := rfl
@[simp] theorem State.recordHazard_frm : (s.recordHazard).frm = s.frm := rfl
@[simp] theorem State.recordHazard_checked : (s.recordHazard).checked = s.checked := rfl
@[simp] theorem State.recordHazard_carrier : (s.recordHazard).carrier = s.carrier := rfl
@[simp] theorem State.recordHazard_params : (s.recordHazard).params = s.params := rfl
@[simp] theorem State.recordHazard_prog : (s.recordHazard).prog = s.prog := rfl
@[simp] theorem State.recordHazard_hpc : (s.recordHazard).hpc = s.hpc := rfl
@[simp] theorem State.recordHazard_vars : (s.recordHazard).vars = s.vars := rfl
@[simp] theorem State.recordHazard_halted : (s.recordHazard).halted = s.halted := rfl
@[simp] theorem State.recordHazard_sched : (s.recordHazard).sched = s.sched := rfl
@[simp] theorem State.recordHazard_faults : (s.recordHazard).faults = .hostHazard :: s.faults := rfl

@[simp] theorem State.readPixel_txt : s.readPixel.txt = s.txt := rfl
@[simp] theorem State.readPixel_pwd : s.readPixel.pwd = s.pwd := rfl
@[simp] theorem State.readPixel_bits : s.readPixel.bits = s.bits := rfl
@[simp] theorem State.readPixel_keyb : s.readPixel.keyb = s.keyb := rfl
@[simp] theorem State.readPixel_busy : s.readPixel.busy = s.busy := rfl
@[simp] theorem State.readPixel_errcode : s.readPixel.errcode = s.errcode := rfl
@[simp] theorem State.readPixel_carW : s.readPixel.carW = s.carW := rfl
@[simp] theorem State.readPixel_carH : s.readPixel.carH = s.carH := rfl
@[simp] theorem State.readPixel_idx : s.readPixel.idx = s.idx := rfl
@[simp] theorem State.readPixel_pend : s.readPixel.pend = s.pend := rfl
@[simp] theorem State.readPixel_pix : s.readPixel.pix = s.pix + 1 := rfl
@[simp] theorem State.readPixel_raw : s.readPixel.raw = s.raw ++ [pixelBit (memRead s.carrier s.nextPos)] := rfl
@[simp] theorem State.readPixel_frm : s.readPixel.frm = s.frm := rfl
@[simp] theorem State.readPixel_checked : s.readPixel.checked = s.checked := rfl
@[simp] theorem State.readPixel_carrier : s.readPixel.carrier = s.carrier := rfl
@[simp] theorem State.readPixel_params : s.readPixel.params = s.params := rfl
@[simp] theorem State.readPixel_prog : s.readPixel.prog = s.prog := rfl
@[simp] theorem State.readPixel_hpc : s.readPixel.hpc = s.hpc := rfl
@[simp] theorem State.readPixel_vars : s.readPixel.vars = s.vars := rfl
@[simp] theorem State.readPixel_halted : s.readPixel.halted = s.halted := rfl
@[simp] theorem State.readPixel_sched : s.readPixel.sched = s.sched := rfl
@[simp] theorem State.readPixel_faults : s.readPixel.faults = s.faults := rfl

@[simp] theorem State.readPixel_detector :
    s.readPixel.detector = s.detector.scanBit (pixelBit (memRead s.carrier s.nextPos)) := rfl

theorem State.readPixel_xst :
    s.readPixel.xst = if s.readPixel.detector.isMatch s.params.matchMin then .found else s.xst := rfl

end

end Sys2Proof.Machine
end

