-- ==== Sys2Proof/Laws/Store.lean ====
section
/-! SUPPORT. The laws of the sparse stores and of the carrier: a read after a write, and that a write keeps the canonical form. -/

namespace Sys2Proof.Machine

variable {β : Type}

theorem Store.get_erase_same (d : β) (l : List (Nat × β)) (a : Nat) : Store.get d (Store.erase l a) a = d := by
  induction l with
  | nil => rfl
  | cons c l ih =>
    by_cases h : c.1 = a
    · simpa [Store.erase, h] using ih
    · simpa [Store.erase, Store.get, h] using ih

theorem Store.get_erase_other (d : β) (l : List (Nat × β)) {a b : Nat} (h : a ≠ b) :
    Store.get d (Store.erase l a) b = Store.get d l b := by
  induction l with
  | nil => rfl
  | cons c l ih =>
    by_cases hc : c.1 = a
    · have hb : c.1 ≠ b := hc ▸ h
      simpa [Store.erase, Store.get, hc, h, hb] using ih
    · by_cases hb : c.1 = b
      · simp [Store.erase, Store.get, hb, h.symm]
      · simpa [Store.erase, Store.get, hc, hb] using ih

theorem Store.get_insert (d : β) (l : List (Nat × β)) (a : Nat) (v : β) (hl : ∀ c ∈ l, c.1 ≠ a) (b : Nat) :
    Store.get d (Store.insert l a v) b = if a = b then v else Store.get d l b := by
  induction l with
  | nil => rfl
  | cons c l ih =>
    have hc : c.1 ≠ a := hl c (by simp)
    have ih := ih fun x hx => hl x (by simp [hx])
    unfold Store.insert
    split
    · simp [Store.get]
    · by_cases hb : c.1 = b
      · have : a ≠ b := fun e => hc (hb.trans e.symm)
        simp [Store.get, hb, this]
      · simp [Store.get, hb, ih]

theorem Store.erase_key_ne (l : List (Nat × β)) (a : Nat) : ∀ c ∈ Store.erase l a, c.1 ≠ a := by
  intro c hc
  simpa using (List.mem_filter.1 hc).2

/-- A read after a write: the value written at its own key, the value before at every other key. -/
theorem Store.get_set [DecidableEq β] (d : β) (l : List (Nat × β)) (a : Nat) (v : β) (b : Nat) :
    Store.get d (Store.set d l a v) b = if a = b then v else Store.get d l b := by
  unfold Store.set
  split
  · rename_i hv
    by_cases h : a = b
    · subst h; simp [Store.get_erase_same, hv]
    · simp [Store.get_erase_other d l h, h]
  · rw [Store.get_insert d _ a v (Store.erase_key_ne l a)]
    by_cases h : a = b
    · simp [h]
    · simp [h, Store.get_erase_other d l h]

theorem Store.mem_insert (l : List (Nat × β)) (a : Nat) (v : β) (c : Nat × β) :
    c ∈ Store.insert l a v ↔ c = (a, v) ∨ c ∈ l := by
  induction l with
  | nil => simp [Store.insert]
  | cons x l ih =>
    unfold Store.insert
    split
    · simp
    · simp only [List.mem_cons, ih]; tauto

theorem Store.wf_erase [DecidableEq β] {d : β} {l : List (Nat × β)} (h : Store.wf d l) (a : Nat) :
    Store.wf d (Store.erase l a) :=
  ⟨h.1.filter _, fun c hc => h.2 c (List.mem_filter.1 hc).1⟩

theorem Store.wf_insert [DecidableEq β] {d : β} {l : List (Nat × β)} (h : Store.wf d l) {a : Nat} {v : β} (hv : v ≠ d)
    (hl : ∀ c ∈ l, c.1 ≠ a) : Store.wf d (Store.insert l a v) := by
  refine ⟨?_, fun c hc => ?_⟩
  · obtain ⟨hp, -⟩ := h
    induction l with
    | nil => simp [Store.insert]
    | cons x l ih =>
      have hx : x.1 ≠ a := hl x (by simp)
      obtain ⟨h1, h2⟩ := List.pairwise_cons.1 hp
      unfold Store.insert
      split
      · rename_i hlt
        refine List.pairwise_cons.2 ⟨fun c hc => ?_, hp⟩
        rcases List.mem_cons.1 hc with rfl | hc
        · exact hlt
        · exact hlt.trans (h1 c hc)
      · refine List.pairwise_cons.2 ⟨fun c hc => ?_, ih (fun c hc => hl c (by simp [hc])) h2⟩
        rcases (Store.mem_insert l a v c).1 hc with rfl | hc
        · show x.1 < a; omega
        · exact h1 c hc
  · rcases (Store.mem_insert l a v c).1 hc with rfl | hc
    · exact hv
    · exact h.2 c hc

/-- A write keeps the canonical form. -/
theorem Store.wf_set [DecidableEq β] {d : β} {l : List (Nat × β)} (h : Store.wf d l) (a : Nat) (v : β) :
    Store.wf d (Store.set d l a v) := by
  unfold Store.set
  split
  · exact Store.wf_erase h a
  · rename_i hv
    exact Store.wf_insert (Store.wf_erase h a) hv (Store.erase_key_ne l a)

/-- A channel byte after a write. -/
@[simp] theorem Memory.read_write (m : List Host.Cell) (a : Nat) (v : Byte) (b : Nat) :
    Memory.read (Memory.write m a v) b = if a = b then v else Memory.read m b :=
  Store.get_set _ _ _ _ _

theorem Memory.wf_write {m : List Host.Cell} (h : Memory.wf m) (a : Nat) (v : Byte) : Memory.wf (Memory.write m a v) :=
  Store.wf_set h a v

/-- A pixel write keeps the carrier's canonical form. -/
theorem memWrite_wf {m : List Host.Cell} (h : Memory.wf m) (p : Pos) (px : Pixel) : Memory.wf (memWrite m p px) :=
  Memory.wf_write (Memory.wf_write (Memory.wf_write h _ _) _ _) _ _

/-- A channel byte after a pixel write. -/
theorem read_memWrite (m : List Host.Cell) (p : Pos) (px : Pixel) (a : Nat) :
    Memory.read (memWrite m p px) a =
      if blueAddr p = a then px.b else if greenAddr p = a then px.g else if redAddr p = a then px.r else Memory.read m a := by
  simp [memWrite]

/-- Two positions of columns below 2^32 with the same address are the same. -/
theorem redAddr_inj {p q : Pos} (hp : p.col < 2 ^ 32) (hq : q.col < 2 ^ 32) (h : redAddr p = redAddr q) : p = q := by
  obtain ⟨r, c⟩ := p
  obtain ⟨r', c'⟩ := q
  simp only [redAddr] at h hp hq ⊢
  have : r = r' := by omega
  have : c = c' := by omega
  simp [*]

/-- `MemRead` after `MemWrite` (R52, R53): the pixel written at its own position, the pixel before at every other. -/
theorem memRead_memWrite (m : List Host.Cell) {p q : Pos} (px : Pixel) (hp : p.col < 2 ^ 32) (hq : q.col < 2 ^ 32) :
    memRead (memWrite m p px) q = if p = q then px else memRead m q := by
  by_cases h : p = q
  · subst h
    simp [memRead, read_memWrite, redAddr, greenAddr, blueAddr]
  · have hne : redAddr p ≠ redAddr q := fun e => h (redAddr_inj hp hq e)
    have h3 : redAddr p % 3 = 0 ∧ redAddr q % 3 = 0 := by simp [redAddr]
    have e1 : blueAddr p ≠ redAddr q := by simp only [blueAddr]; omega
    have e2 : greenAddr p ≠ redAddr q := by simp only [greenAddr]; omega
    have e3 : blueAddr p ≠ greenAddr q := by simp only [blueAddr, greenAddr]; omega
    have e4 : redAddr p ≠ greenAddr q := by simp only [greenAddr]; omega
    have e5 : greenAddr p ≠ blueAddr q := by simp only [blueAddr, greenAddr]; omega
    have e6 : redAddr p ≠ blueAddr q := by simp only [blueAddr]; omega
    have e7 : greenAddr p ≠ greenAddr q := by simp only [greenAddr]; omega
    have e8 : blueAddr p ≠ blueAddr q := by simp only [blueAddr]; omega
    simp [memRead, read_memWrite, h, hne, e1, e2, e3, e4, e5, e6, e7, e8]

end Sys2Proof.Machine
end

