-- ==== Sys2Proof/Laws/Ops.lean ====
section
/-! SUPPORT. One lemma for each shared operation that says everything it can do, and the laws of the engine's run of one
command. -/

namespace Sys2Proof.Machine

/-! Guards and host operations. -/

theorem within_of_le {len bound : Nat} (h : len ≤ bound) (why : Refusal) (k : Out) : within len bound why k = k := if_pos h

theorem within_of_lt {len bound : Nat} (h : bound < len) (why : Refusal) (k : Out) :
    within len bound why k = .refused why := if_neg (by omega)

/-- A guard answers what stands behind it, and only if the bound holds. -/
theorem within_eq_next {len bound : Nat} {why : Refusal} {k : Out} {t : State} :
    within len bound why k = .next t ↔ len ≤ bound ∧ k = .next t := by
  unfold within; split <;> simp [*]

theorem thenAdvance_eq_next {o : Out} {t : State} : thenAdvance o = .next t ↔ ∃ u, o = .next u ∧ u.advance = t := by
  cases o <;> simp [thenAdvance]

theorem hostWrite_eq_next {n : Reg} {v : Word} {s t : State} :
    hostWrite n v s = .next t ↔
      (s.busy = true ∧ s.recordHazard = t) ∨ (s.busy = false ∧ regWrite n v s = .next t) := by
  unfold hostWrite; split <;> simp_all

theorem hostRead_eq_next {n : Reg} {x : Var} {s t : State} :
    hostRead n x s = .next t ↔
      (s.busy = true ∧ n ≠ statusReg ∧ s.hazardRead x = t) ∨
        ((s.busy = false ∨ n = statusReg) ∧ ∃ v, regRead n s = some v ∧ s.setVar x v = t) := by
  unfold hostRead
  split
  · simp_all
  · rename_i h
    have h' : s.busy = false ∨ n = statusReg := by
      cases hb : s.busy <;> simp_all
    have h'' : ¬ (s.busy = true ∧ n ≠ statusReg ∧ s.hazardRead x = t) := by
      rcases h' with h' | h' <;> simp [h']
    cases hr : regRead n s <;> simp [h', h'']

theorem hostPixWrite_eq_next {p : Pos} {r g b : Word} {s t : State} :
    hostPixWrite p r g b s = .next t ↔
      (s.busy = true ∧ s.recordHazard = t) ∨
        (s.busy = false ∧ (r.toNat ≤ 255 ∧ g.toNat ≤ 255 ∧ b.toNat ≤ 255) ∧
          { s with carrier := memWrite s.carrier p ⟨r.setWidth 8, g.setWidth 8, b.setWidth 8⟩ } = t) := by
  unfold hostPixWrite
  split
  · simp_all
  · split <;> simp_all

theorem hostPixRead_eq_next {p : Pos} {x : Var} {s t : State} :
    hostPixRead p x s = .next t ↔
      (s.busy = true ∧ s.hazardRead x = t) ∨
        (s.busy = false ∧ s.setVar x (pixelWord (memRead s.carrier p)) = t) := by
  unfold hostPixRead; split <;> simp_all

theorem hostRun_eq_next {x : Var} {v : Word} {s t : State} :
    hostRun x v s = .next t ↔
      (s.busy = true ∧ s.hazardRead x = t) ∨
        (s.busy = false ∧ ∃ i u, decode v = .command i ∧ exec i s = .next u ∧ u.setVar x 0 = t) := by
  unfold hostRun
  split
  · simp_all
  · cases decode v with
    | command i => cases h : exec i s <;> simp_all
    | reservedField => simp_all
    | reservedOpcode => simp_all

theorem issueCommand_eq_next {v : Word} {s t : State} :
    issueCommand v s = .next t ↔ ∃ i, decode v = .command i ∧ accept i s = t := by
  unfold issueCommand; cases decode v <;> simp

/-! The engine's run of one command. -/

/-- The engine step a command's meaning runs. -/
theorem exec_eq_runCommand (i : Instr) (s : State) : exec i s = runCommand i (engineStep i) s := by
  cases i <;> rfl

theorem runCommand_idle {i : Instr} {eng : State → Out} {s : State} (h : s.busy = false) :
    runCommand i eng s = drive eng s.stepBound (accept i s) := by simp [runCommand, h]

theorem runCommand_busy {i : Instr} {eng : State → Out} {s : State} (h : s.busy = true) :
    runCommand i eng s = .next s.recordHazard := by simp [runCommand, h]

/-- A command issued while `BUSY = 1` only records the hazard (R252, R320). -/
theorem exec_busy {i : Instr} {s : State} (h : s.busy = true) : exec i s = .next s.recordHazard := by
  rw [exec_eq_runCommand, runCommand_busy h]

theorem drive_succ {eng : State → Out} {n : Nat} {s t : State} (h : eng s = .next t) :
    drive eng (n + 1) s = if t.pend.isNone then .next t else drive eng n t := by simp [drive, h]

/-- One engine step that completes the command ends its run. -/
theorem drive_done {eng : State → Out} {n : Nat} {s t : State} (h : eng s = .next t) (hp : t.pend = none) :
    drive eng (n + 1) s = .next t := by simp [drive, h, hp]

/-- One engine step that does not complete the command. -/
theorem drive_more {eng : State → Out} {n : Nat} {s t : State} (h : eng s = .next t) (hp : t.pend.isSome) :
    drive eng (n + 1) s = drive eng n t := by
  rw [drive_succ h, if_neg (by simp [Option.isNone_iff_eq_none, Option.isSome_iff_ne_none.1 hp])]

theorem drive_refused {eng : State → Out} {n : Nat} {s : State} {r : Refusal} (h : eng s = .refused r) :
    drive eng (n + 1) s = .refused r := by simp [drive, h]

end Sys2Proof.Machine
end

