-- ==== Sys2Proof/Laws/Engine.lean ====
section
/-! SUPPORT. What one engine step of each command can do: if it answers next `t`, then the listed cases are all there are. And the
engine's run of a one-step command. -/

namespace Sys2Proof.Machine

variable {s t : State}

/-! What every acceptance leaves and sets (R252). -/

@[simp] theorem accept_txt (i : Instr) (s : State) : (accept i s).txt = s.txt := by cases i <;> rfl
@[simp] theorem accept_pwd (i : Instr) (s : State) : (accept i s).pwd = s.pwd := by cases i <;> rfl
@[simp] theorem accept_bits (i : Instr) (s : State) : (accept i s).bits = s.bits := by cases i <;> rfl
@[simp] theorem accept_keyb (i : Instr) (s : State) : (accept i s).keyb = s.keyb := by cases i <;> rfl
@[simp] theorem accept_errcode (i : Instr) (s : State) : (accept i s).errcode = s.errcode := by cases i <;> rfl
@[simp] theorem accept_carW (i : Instr) (s : State) : (accept i s).carW = s.carW := by cases i <;> rfl
@[simp] theorem accept_carH (i : Instr) (s : State) : (accept i s).carH = s.carH := by cases i <;> rfl
@[simp] theorem accept_idx (i : Instr) (s : State) : (accept i s).idx = s.idx := by cases i <;> rfl
@[simp] theorem accept_carrier (i : Instr) (s : State) : (accept i s).carrier = s.carrier := by cases i <;> rfl
@[simp] theorem accept_params (i : Instr) (s : State) : (accept i s).params = s.params := by cases i <;> rfl
@[simp] theorem accept_prog (i : Instr) (s : State) : (accept i s).prog = s.prog := by cases i <;> rfl
@[simp] theorem accept_hpc (i : Instr) (s : State) : (accept i s).hpc = s.hpc := by cases i <;> rfl
@[simp] theorem accept_vars (i : Instr) (s : State) : (accept i s).vars = s.vars := by cases i <;> rfl
@[simp] theorem accept_halted (i : Instr) (s : State) : (accept i s).halted = s.halted := by cases i <;> rfl
@[simp] theorem accept_sched (i : Instr) (s : State) : (accept i s).sched = s.sched := by cases i <;> rfl
@[simp] theorem accept_faults (i : Instr) (s : State) : (accept i s).faults = s.faults := by cases i <;> rfl
@[simp] theorem accept_pend (i : Instr) (s : State) : (accept i s).pend = some i := by cases i <;> rfl
@[simp] theorem accept_busy (i : Instr) (s : State) : (accept i s).busy = true := by cases i <;> rfl
@[simp] theorem accept_checked (i : Instr) (s : State) : (accept i s).checked = false := by cases i <;> rfl

theorem engineEnct_cases (h : engineEnct s = .next t) :
    (∃ e, encodeText s.params.charset s.txt = .err e ∧ t = s.raise e) ∨
    (∃ out, encodeText s.params.charset s.txt = .ok out ∧ out.length ≤ s.params.maxBits ∧
      t = { s with bits := out }.complete) := by
  unfold engineEnct at h
  split at h
  · rename_i e he; exact .inl ⟨e, he, by simpa using h.symm⟩
  · rename_i out ho
    obtain ⟨hl, h⟩ := within_eq_next.1 h
    exact .inr ⟨out, ho, hl, by simpa using h.symm⟩

theorem engineEnck_cases (h : engineEnck s = .next t) :
    (∃ e, encodeText s.params.charset s.pwd = .err e ∧ t = s.raise e) ∨
    (∃ out, encodeText s.params.charset s.pwd = .ok out ∧ out.length ≤ 8 * s.params.maxPwd ∧
      t = { s with keyb := out }.complete) := by
  unfold engineEnck at h
  split at h
  · rename_i e he; exact .inl ⟨e, he, by simpa using h.symm⟩
  · rename_i out ho
    obtain ⟨hl, h⟩ := within_eq_next.1 h
    exact .inr ⟨out, ho, hl, by simpa using h.symm⟩

theorem engineDecb_cases (h : engineDecb s = .next t) :
    (decodeBits s.params.charset s.bits).length ≤ s.params.maxTxt ∧
      t = { s with txt := decodeBits s.params.charset s.bits }.complete := by
  obtain ⟨hl, h⟩ := within_eq_next.1 h
  exact ⟨hl, by simpa using h.symm⟩

theorem engineXork_cases (h : engineXork s = .next t) :
    (∃ e, applyKey s.bits s.keyb = .err e ∧ t = s.raise e) ∨
    (∃ out, applyKey s.bits s.keyb = .ok out ∧ t = { s with bits := out }.complete) := by
  unfold engineXork at h
  split at h
  · rename_i e he; exact .inl ⟨e, he, by simpa using h.symm⟩
  · rename_i out ho; exact .inr ⟨out, ho, by simpa using h.symm⟩

theorem engineFbld_cases (h : engineFbld s = .next t) :
    (build s.bits).length ≤ s.params.maxBits ∧ t = { s with bits := build s.bits }.complete := by
  obtain ⟨hl, h⟩ := within_eq_next.1 h
  exact ⟨hl, by simpa using h.symm⟩

theorem engineFprs_cases (h : engineFprs s = .next t) :
    (∃ e, parse s.params.matchMin s.bits = .err e ∧ t = s.scanBits.raise e) ∨
    (∃ out, parse s.params.matchMin s.bits = .ok out ∧ t = { s.scanBits with bits := out }.complete) := by
  unfold engineFprs at h
  split at h
  · rename_i e he; exact .inl ⟨e, he, by simpa using h.symm⟩
  · rename_i out ho; exact .inr ⟨out, ho, by simpa using h.symm⟩

theorem engineEmbd_cases (h : engineEmbd s = .next t) :
    (s.checked = false ∧ s.capacity < s.frm.length ∧ t = s.raise .insufficientCapacity) ∨
    (s.checked = false ∧ s.frm.length ≤ s.capacity ∧ t = { s with checked := true }) ∨
    (∃ d, s.checked = true ∧ s.frm[s.pix]? = some d ∧ t = s.embedPixel d) ∨
    (s.checked = true ∧ s.frm.length ≤ s.pix ∧ t = s.complete) := by
  unfold engineEmbd at h
  split at h
  · rename_i hc
    split at h
    · rename_i d hd; exact .inr (.inr (.inl ⟨d, hc, hd, by simpa using h.symm⟩))
    · rename_i hd; exact .inr (.inr (.inr ⟨hc, List.getElem?_eq_none_iff.1 hd, by simpa using h.symm⟩))
  · rename_i hc
    have hc : s.checked = false := by simpa using hc
    split at h
    · rename_i hl; exact .inl ⟨hc, hl, by simpa using h.symm⟩
    · rename_i hl; exact .inr (.inl ⟨hc, Nat.not_lt.1 hl, by simpa using h.symm⟩)

/-- A scan's step: a completion of its own after a match, a pixel, a failing completion, or nothing (log 12). -/
theorem scanStep_cases {found : State → Out} (h : scanStep found s = .next t) :
    (s.xst = .found ∧ found s = .next t) ∨
    (s.xst = .scanning ∧ s.pix < s.capacity ∧ s.raw.length + 1 ≤ s.params.maxBits ∧ t = s.readPixel) ∨
    (s.xst = .scanning ∧ s.capacity ≤ s.pix ∧ t = { s with xst := .exhausted }.raise .markerNotFound) ∨
    ((s.xst = .idle ∨ s.xst = .exhausted) ∧ t = s) := by
  unfold scanStep at h
  split at h
  · rename_i hx; exact .inl ⟨hx, h⟩
  · rename_i hx
    split at h
    · rename_i hp
      obtain ⟨hl, h⟩ := within_eq_next.1 h
      exact .inr (.inl ⟨hx, hp, hl, by simpa using h.symm⟩)
    · rename_i hp; exact .inr (.inr (.inl ⟨hx, Nat.not_lt.1 hp, by simpa using h.symm⟩))
  · rename_i hx; exact .inr (.inr (.inr ⟨.inl hx, by simpa using h.symm⟩))
  · rename_i hx; exact .inr (.inr (.inr ⟨.inr hx, by simpa using h.symm⟩))

theorem finishExtr_eq (h : finishExtr s = .next t) : t = { s with bits := s.raw }.complete := by
  simpa [finishExtr] using h.symm

theorem prepareHide_cases (h : prepareHide s = .next t) :
    (∃ e, t = s.raise e) ∨
    (∃ c, cipherBits s.params.charset s.txt s.pwd = .ok c ∧ (build c).length ≤ s.params.maxBits ∧
      (build c).length ≤ s.capacity ∧ t = { s with frm := build c, checked := true }) := by
  unfold prepareHide at h
  split at h
  · rename_i e he; exact .inl ⟨e, by simpa using h.symm⟩
  · rename_i c hc
    obtain ⟨hl, h⟩ := within_eq_next.1 h
    split at h
    · exact .inl ⟨_, by simpa using h.symm⟩
    · rename_i hcap; exact .inr ⟨c, hc, hl, Nat.not_lt.1 hcap, by simpa using h.symm⟩

theorem finishHide_cases (h : finishHide s = .next t) :
    (∃ e, encodeText s.params.charset s.pwd = .err e ∧ t = s.raise e) ∨
    (∃ k, encodeText s.params.charset s.pwd = .ok k ∧ k.length ≤ 8 * s.params.maxPwd ∧
      t = { s with bits := s.frm, keyb := k }.complete) := by
  unfold finishHide at h
  split at h
  · rename_i e he; exact .inl ⟨e, he, by simpa using h.symm⟩
  · rename_i k hk
    obtain ⟨hl, h⟩ := within_eq_next.1 h
    exact .inr ⟨k, hk, hl, by simpa using h.symm⟩

theorem engineHide_cases (h : engineHide s = .next t) :
    (s.checked = false ∧ prepareHide s = .next t) ∨
    (∃ d, s.checked = true ∧ s.frm[s.pix]? = some d ∧ t = s.embedPixel d) ∨
    (s.checked = true ∧ s.frm.length ≤ s.pix ∧ finishHide s = .next t) := by
  unfold engineHide at h
  split at h
  · rename_i hc
    split at h
    · rename_i d hd; exact .inr (.inl ⟨d, hc, hd, by simpa using h.symm⟩)
    · rename_i hd; exact .inr (.inr ⟨hc, List.getElem?_eq_none_iff.1 hd, h⟩)
  · rename_i hc; exact .inl ⟨by simpa using hc, h⟩

theorem finishRvel_cases (h : finishRvel s = .next t) :
    (∃ e, t = s.raise e) ∨
    (∃ c k p, parse s.params.matchMin s.raw = .ok c ∧ encodeText s.params.charset s.pwd = .ok k ∧ applyKey c k = .ok p ∧
      (decodeBits s.params.charset p).length ≤ s.params.maxTxt ∧ k.length ≤ 8 * s.params.maxPwd ∧
      t = { s with txt := decodeBits s.params.charset p, bits := p, keyb := k }.complete) := by
  unfold finishRvel at h
  split at h
  · exact .inl ⟨_, by simpa using h.symm⟩
  · rename_i c hc
    split at h
    · exact .inl ⟨_, by simpa using h.symm⟩
    · rename_i k hk
      split at h
      · exact .inl ⟨_, by simpa using h.symm⟩
      · rename_i p hp
        obtain ⟨ht, h⟩ := within_eq_next.1 h
        obtain ⟨hl, h⟩ := within_eq_next.1 h
        exact .inr ⟨c, k, p, hc, hk, hp, ht, hl, by simpa using h.symm⟩

/-- A command's engine step completes it or leaves it in progress. -/
theorem engineStep_pend {i : Instr} (h : engineStep i s = .next t) : t.pend = none ∨ t.pend = s.pend := by
  cases i with
  | enct => rcases engineEnct_cases h with ⟨e, -, rfl⟩ | ⟨o, -, -, rfl⟩ <;> exact .inl rfl
  | enck => rcases engineEnck_cases h with ⟨e, -, rfl⟩ | ⟨o, -, -, rfl⟩ <;> exact .inl rfl
  | decb => obtain ⟨-, rfl⟩ := engineDecb_cases h; exact .inl rfl
  | xork => rcases engineXork_cases h with ⟨e, -, rfl⟩ | ⟨o, -, rfl⟩ <;> exact .inl rfl
  | fbld => obtain ⟨-, rfl⟩ := engineFbld_cases h; exact .inl rfl
  | fprs => rcases engineFprs_cases h with ⟨e, -, rfl⟩ | ⟨o, -, rfl⟩ <;> exact .inl rfl
  | embd =>
    rcases engineEmbd_cases h with ⟨-, -, rfl⟩ | ⟨-, -, rfl⟩ | ⟨d, -, -, rfl⟩ | ⟨-, -, rfl⟩
    exacts [.inl rfl, .inr rfl, .inr rfl, .inl rfl]
  | extr =>
    rcases scanStep_cases h with ⟨-, h⟩ | ⟨-, -, -, rfl⟩ | ⟨-, -, rfl⟩ | ⟨-, rfl⟩
    · rw [finishExtr_eq h]; exact .inl rfl
    exacts [.inr rfl, .inl rfl, .inr rfl]
  | hide =>
    rcases engineHide_cases h with ⟨-, h⟩ | ⟨d, -, -, rfl⟩ | ⟨-, -, h⟩
    · rcases prepareHide_cases h with ⟨e, rfl⟩ | ⟨c, -, -, -, rfl⟩
      exacts [.inl rfl, .inr rfl]
    · exact .inr rfl
    · rcases finishHide_cases h with ⟨e, -, rfl⟩ | ⟨k, -, -, rfl⟩ <;> exact .inl rfl
  | rvel =>
    rcases scanStep_cases h with ⟨-, h⟩ | ⟨-, -, -, rfl⟩ | ⟨-, -, rfl⟩ | ⟨-, rfl⟩
    · rcases finishRvel_cases h with ⟨e, rfl⟩ | ⟨c, k, p, -, -, -, -, -, rfl⟩ <;> exact .inl rfl
    exacts [.inr rfl, .inl rfl, .inr rfl]

/-- No engine step records or clears a fault (R320). -/
theorem engineStep_faults {i : Instr} (h : engineStep i s = .next t) : t.faults = s.faults := by
  cases i with
  | enct => rcases engineEnct_cases h with ⟨e, -, rfl⟩ | ⟨o, -, -, rfl⟩ <;> rfl
  | enck => rcases engineEnck_cases h with ⟨e, -, rfl⟩ | ⟨o, -, -, rfl⟩ <;> rfl
  | decb => obtain ⟨-, rfl⟩ := engineDecb_cases h; rfl
  | xork => rcases engineXork_cases h with ⟨e, -, rfl⟩ | ⟨o, -, rfl⟩ <;> rfl
  | fbld => obtain ⟨-, rfl⟩ := engineFbld_cases h; rfl
  | fprs => rcases engineFprs_cases h with ⟨e, -, rfl⟩ | ⟨o, -, rfl⟩ <;> rfl
  | embd => rcases engineEmbd_cases h with ⟨-, -, rfl⟩ | ⟨-, -, rfl⟩ | ⟨d, -, -, rfl⟩ | ⟨-, -, rfl⟩ <;> rfl
  | extr =>
    rcases scanStep_cases h with ⟨-, h⟩ | ⟨-, -, -, rfl⟩ | ⟨-, -, rfl⟩ | ⟨-, rfl⟩
    · rw [finishExtr_eq h]; rfl
    all_goals rfl
  | hide =>
    rcases engineHide_cases h with ⟨-, h⟩ | ⟨d, -, -, rfl⟩ | ⟨-, -, h⟩
    · rcases prepareHide_cases h with ⟨e, rfl⟩ | ⟨c, -, -, -, rfl⟩ <;> rfl
    · rfl
    · rcases finishHide_cases h with ⟨e, -, rfl⟩ | ⟨k, -, -, rfl⟩ <;> rfl
  | rvel =>
    rcases scanStep_cases h with ⟨-, h⟩ | ⟨-, -, -, rfl⟩ | ⟨-, -, rfl⟩ | ⟨-, rfl⟩
    · rcases finishRvel_cases h with ⟨e, rfl⟩ | ⟨c, k, p, -, -, -, -, -, rfl⟩ <;> rfl
    all_goals rfl

/-- A property that every engine step of the command in progress keeps holds after the command's run. -/
theorem drive_keeps {i : Instr} {P : State → Prop}
    (step : ∀ u v, P u → u.pend = some i → engineStep i u = .next v → P v) :
    ∀ n s, P s → s.pend = some i → drive (engineStep i) n s = .next t → P t
  | 0, s, hs, _, h => by simp only [drive, Host.Outcome.next.injEq] at h; exact h ▸ hs
  | n + 1, s, hs, hp, h => by
    unfold drive at h
    cases he : engineStep i s with
    | next u =>
      simp only [he] at h
      split at h
      · simp only [Host.Outcome.next.injEq] at h; exact h ▸ step s u hs hp he
      · rename_i hu
        rcases engineStep_pend he with hn | hn
        · simp [hn] at hu
        · exact drive_keeps step n u (step s u hs hp he) (hn.trans hp) h
    | fault r => simp [he] at h
    | refused r => simp [he] at h

/-- A property that acceptance gives and every engine step of the command keeps holds of what the command answers. -/
theorem exec_keeps {i : Instr} {P : State → Prop} (hb : s.busy = false)
    (step : ∀ u v, P u → u.pend = some i → engineStep i u = .next v → P v) (ha : P (accept i s))
    (h : exec i s = .next t) : P t := by
  rw [exec_eq_runCommand] at h
  rw [runCommand_idle hb] at h
  exact drive_keeps step _ _ ha (by cases i <;> rfl) h

/-- The engine's one step of a whole command that completes at once is the command. -/
theorem exec_one {i : Instr} (hb : s.busy = false) (h : engineStep i (accept i s) = .next t) (ht : t.pend = none) :
    exec i s = .next t := by
  rw [exec_eq_runCommand, runCommand_idle hb]; exact drive_done h ht

theorem exec_one_refused {i : Instr} {r : Refusal} (hb : s.busy = false)
    (h : engineStep i (accept i s) = .refused r) : exec i s = .refused r := by
  rw [exec_eq_runCommand, runCommand_idle hb]; exact drive_refused h

end Sys2Proof.Machine
end

