-- ==== Sys2Proof/Laws/Functions.lean ====
section
/-! SUPPORT. The laws of the encoder, the decoder and the cipher as functions. -/

namespace Sys2Proof.Machine

/-- The first character of an encodable text encodes, and so does the rest (R100). -/
theorem encodeText_cons_ok {cs : Charset} {c : Code} {rest : List Code} {out : Bits} :
    encodeText cs (c :: rest) = .ok out ↔
      ∃ e o, encChar cs c = some e ∧ encodeText cs rest = .ok o ∧ out = bits8 e ++ o := by
  simp only [encodeText]
  cases encChar cs c with
  | none => simp
  | some e => cases encodeText cs rest <;> simp [eq_comm]

/-- `encodeText` fails with one error only, on a character that is unencodable (R100). -/
theorem encodeText_err {cs : Charset} {txt : List Code} {x : CmdError} (h : encodeText cs txt = .err x) :
    x = .unencodableCharacter ∧ ∃ c ∈ txt, encChar cs c = none := by
  induction txt generalizing x with
  | nil => simp [encodeText] at h
  | cons c rest ih =>
    unfold encodeText at h
    cases he : encChar cs c with
    | none => simp [he] at h; exact ⟨h.symm, c, by simp, he⟩
    | some e =>
      cases hr : encodeText cs rest with
      | ok o => simp [he, hr] at h
      | err y =>
        simp [he, hr] at h; subst h
        obtain ⟨h1, d, hd, h2⟩ := ih hr
        exact ⟨h1, d, by simp [hd], h2⟩

theorem encodeText_ok_encodable {cs : Charset} {txt : List Code} {out : Bits} (h : encodeText cs txt = .ok out) :
    ∀ c ∈ txt, encChar cs c ≠ none := by
  induction txt generalizing out with
  | nil => simp
  | cons c rest ih =>
    obtain ⟨e, o, he, ho, -⟩ := encodeText_cons_ok.1 h
    intro d hd
    rcases List.mem_cons.1 hd with rfl | hd
    · simp [he]
    · exact ih ho d hd

@[simp] theorem bits8_length (v : Byte) : (bits8 v).length = 8 := rfl

theorem encodeText_length {cs : Charset} {txt : List Code} {out : Bits} (h : encodeText cs txt = .ok out) :
    out.length = 8 * txt.length := by
  induction txt generalizing out with
  | nil => simp [encodeText] at h; simp [← h]
  | cons c rest ih =>
    obtain ⟨e, o, -, ho, rfl⟩ := encodeText_cons_ok.1 h
    simp [ih ho]; omega

theorem byte8_bits (v : Byte) : byte8 (v.getLsbD 7) (v.getLsbD 6) (v.getLsbD 5) (v.getLsbD 4) (v.getLsbD 3) (v.getLsbD 2) (v.getLsbD 1)
      (v.getLsbD 0) = v := by revert v; decide +kernel

theorem bits8_byte8 : ∀ a0 a1 a2 a3 a4 a5 a6 a7 : Bit, bits8 (byte8 a0 a1 a2 a3 a4 a5 a6 a7) = [a0, a1, a2, a3, a4, a5, a6, a7] := by decide

theorem decodeBits_bits8_append (cs : Charset) (v : Byte) (rest : Bits) :
    decodeBits cs (bits8 v ++ rest) = decChar cs v :: decodeBits cs rest := by
  show decChar cs (byte8 _ _ _ _ _ _ _ _) :: _ = _
  rw [byte8_bits]; rfl

/-- A code that a table encodes stands in the row of its byte. -/
theorem encInRows_spec {c : Code} {v : Byte} : ∀ (rows : List CharRow) (n : Nat), encInRows c rows n = some v →
    n ≤ v.toNat ∧ ∃ row, rows[v.toNat - n]? = some row ∧ row.code = c
  | [], n, h => by simp [encInRows] at h
  | r :: rs, n, h => by
    unfold encInRows at h
    split at h
    · rename_i hc
      simp at hc h
      subst h
      have : (BitVec.ofNat 8 n).toNat = n := by simp; omega
      rw [this]; simp [hc]
    · obtain ⟨h1, row, h2, h3⟩ := encInRows_spec rs (n + 1) h
      refine ⟨by omega, row, ?_, h3⟩
      have : v.toNat - n = (v.toNat - (n + 1)) + 1 := by omega
      rw [this]; simpa using h2

/-- `DEC` undoes `ENC`. -/
theorem decChar_encChar {cs : Charset} {c : Code} {v : Byte} (h : encChar cs c = some v) : decChar cs v = c := by
  cases cs with
  | latin1 =>
    simp only [encChar] at h
    split at h
    · simp at h; subst h
      apply BitVec.eq_of_toNat_eq; simp [decChar]; omega
    · simp at h
  | table rows =>
    obtain ⟨-, row, h2, h3⟩ := encInRows_spec rows 0 h
    simp at h2
    simp [decChar, h2, h3]

theorem latin1_enc_dec (v : Byte) : encChar .latin1 (decChar .latin1 v) = some v := by
  have := v.isLt
  simp [encChar, decChar]; omega

theorem decodeBits_encodeText {cs : Charset} {txt : List Code} {out : Bits} (h : encodeText cs txt = .ok out) :
    decodeBits cs out = txt := by
  induction txt generalizing out with
  | nil => simp only [encodeText, Result.ok.injEq] at h; subst h; rfl
  | cons c rest ih =>
    obtain ⟨e, o, he, ho, rfl⟩ := encodeText_cons_ok.1 h
    rw [decodeBits_bits8_append, ih ho, decChar_encChar he]

/-- One character for each whole group of 8 bits (R106). -/
theorem decodeBits_length (cs : Charset) (bs : Bits) : (decodeBits cs bs).length = bs.length / 8 := by
  induction bs using decodeBits.induct with
  | case1 a0 a1 a2 a3 a4 a5 a6 a7 rest ih => simp [decodeBits, ih]; omega
  | case2 bs h =>
    have : bs.length < 8 := by
      rcases bs with _ | ⟨a0, _ | ⟨a1, _ | ⟨a2, _ | ⟨a3, _ | ⟨a4, _ | ⟨a5, _ | ⟨a6, _ | ⟨a7, r⟩⟩⟩⟩⟩⟩⟩⟩ <;>
        first
        | exact absurd rfl (h _ _ _ _ _ _ _ _ _)
        | simp
    have e : decodeBits cs bs = [] := decodeBits.eq_2 _ _ h
    rw [e]; simp only [List.length_nil]; omega

theorem encodeText_cases (cs : Charset) (txt : List Code) :
    (∃ o, encodeText cs txt = .ok o) ∨ encodeText cs txt = .err .unencodableCharacter := by
  cases h : encodeText cs txt with
  | ok o => exact .inl ⟨o, rfl⟩
  | err x => rw [(encodeText_err h).1]; exact .inr rfl

theorem encodeText_eq_nil {cs : Charset} {pwd : List Code} {k : Bits} (h : encodeText cs pwd = .ok k) : k = [] ↔ pwd = [] := by
  have := encodeText_length h
  rw [← List.length_eq_zero_iff, ← List.length_eq_zero_iff, this]; omega

theorem xorFrom_length (key : Bits) : ∀ (i : Nat) (bs : Bits), (xorFrom key i bs).length = bs.length
  | _, [] => rfl
  | i, b :: rest => by simp [xorFrom, xorFrom_length key (i+1) rest]

/-- Bit `j` of the result (R130). -/
theorem xorFrom_getElem? (key : Bits) : ∀ (i : Nat) (bs : Bits) (j : Nat),
    (xorFrom key i bs)[j]? = bs[j]?.map fun b => b ^^ key.getD ((i + j) % key.length) false
  | _, [], j => by simp [xorFrom]
  | i, b :: rest, 0 => by simp [xorFrom]
  | i, b :: rest, j + 1 => by
    simp only [xorFrom, List.getElem?_cons_succ, xorFrom_getElem? key (i+1) rest j]
    rw [Nat.add_assoc, Nat.add_comm 1 j]

theorem xorFrom_xorFrom (key : Bits) : ∀ (i : Nat) (bs : Bits), xorFrom key i (xorFrom key i bs) = bs
  | _, [] => rfl
  | i, b :: rest => by simp [xorFrom, xorFrom_xorFrom key (i+1) rest]

theorem applyKey_ok {bs key : Bits} (h : key ≠ []) : applyKey bs key = .ok (xorFrom key 0 bs) := by
  simp [applyKey, h]

theorem applyKey_eq_ok {bs key out : Bits} : applyKey bs key = .ok out ↔ key ≠ [] ∧ out = xorFrom key 0 bs := by
  unfold applyKey; split <;> simp_all [eq_comm]

theorem applyKey_err {bs key : Bits} {e : CmdError} : applyKey bs key = .err e ↔ key = [] ∧ e = .degenerateKey := by
  unfold applyKey; split <;> simp_all [eq_comm]

theorem applyKey_length {b k p : Bits} (h : applyKey b k = .ok p) : p.length = b.length := by
  obtain ⟨-, rfl⟩ := applyKey_eq_ok.1 h; exact xorFrom_length _ _ _

theorem bitsOfBytes_length (vs : List Byte) : (bitsOfBytes vs).length = 8 * vs.length := by
  induction vs with
  | nil => rfl
  | cons v r ih => simp [bitsOfBytes, ih]; omega

theorem bitsOfBytes_get (vs : List Byte) (j k : Nat) (hk : k < 8) :
    (bitsOfBytes vs)[8*j+k]? = vs[j]?.map fun v => v.getLsbD (7-k) := by
  induction vs generalizing j with
  | nil => simp [bitsOfBytes]
  | cons v r ih =>
    cases j with
    | zero =>
      simp only [bitsOfBytes]
      rw [List.getElem?_append_left (by simp; omega)]
      interval_cases k <;> simp [bits8]
    | succ j =>
      simp only [bitsOfBytes]
      rw [List.getElem?_append_right (by simp; omega)]
      have : 8 * (j + 1) + k - (bits8 v).length = 8 * j + k := by simp; omega
      rw [this, ih]; simp

end Sys2Proof.Machine
end

