-- ==== Sys2Proof/Laws/PerInstr.lean ====
section
/-! SUPPORT. What is said of every command as syntax, one lemma per command (spec/30_encoding.md R70, R71, R77, R80). -/

namespace Sys2Proof.Laws.Encoding

/-- The command is well formed; its word has the reserved field 0 and reads back as the command, as a word and as the table
numbers it. -/
def Statement (i : Instr) : Prop :=
  i.wellFormed = true ∧ rsvField (encode i) = 0 ∧ decode (encode i) = .command i ∧
    decodeTableWord 32 (encode i).toNat = some i

theorem enct : Statement .enct := by unfold Statement; decide
theorem enck : Statement .enck := by unfold Statement; decide
theorem decb : Statement .decb := by unfold Statement; decide
theorem xork : Statement .xork := by unfold Statement; decide
theorem fbld : Statement .fbld := by unfold Statement; decide
theorem fprs : Statement .fprs := by unfold Statement; decide
theorem embd : Statement .embd := by unfold Statement; decide
theorem extr : Statement .extr := by unfold Statement; decide
theorem hide : Statement .hide := by unfold Statement; decide
theorem rvel : Statement .rvel := by unfold Statement; decide

end Sys2Proof.Laws.Encoding
end

