-- ==== Sys2Proof/Laws/Pixels.lean ====
section
/-! SUPPORT. The laws of pixel positions, of an embedding and of the bits read back. -/

namespace Sys2Proof.Machine

theorem posAt_inj {w i j : Nat} (h : posAt w i = posAt w j) : i = j := by
  simp only [posAt, Pos.mk.injEq] at h
  rw [← Nat.div_add_mod i w, ← Nat.div_add_mod j w, h.1, h.2]

theorem posAt_col_lt {w i : Nat} (h : 0 < w) : (posAt w i).col < w := Nat.mod_lt _ h

theorem blueAddr_posAt_inj {w i j : Nat} (h0 : 0 < w) (hw : w ≤ 2 ^ 32)
    (h : blueAddr (posAt w i) = blueAddr (posAt w j)) : i = j := by
  have a1 := posAt_col_lt (i := i) h0
  have a2 := posAt_col_lt (i := j) h0
  have h' : redAddr (posAt w i) = redAddr (posAt w j) := Nat.add_right_cancel h
  exact posAt_inj (redAddr_inj (lt_of_lt_of_le a1 hw) (lt_of_lt_of_le a2 hw) h')

/-- A pixel written back with a bit in its blue LSB changes in its blue byte alone (R76). -/
theorem read_embedOne (m : List Host.Cell) (p : Pos) (d : Bit) (a : Nat) :
    Memory.read (memWrite m p (withBlueBit (memRead m p) d)) a =
      if blueAddr p = a then withBit (Memory.read m a) d else Memory.read m a := by
  rw [read_memWrite]
  by_cases hb : blueAddr p = a
  · subst hb; simp [withBlueBit, memRead]
  · rw [if_neg hb, if_neg hb]
    by_cases hg : greenAddr p = a
    · subst hg; simp [withBlueBit, memRead]
    · rw [if_neg hg]
      by_cases hr : redAddr p = a
      · subst hr; simp [withBlueBit, memRead]
      · rw [if_neg hr]

/-- An embedding changes no byte but the blue bytes it visits (R183). -/
theorem read_embedFrom_other {w : Nat} : ∀ (f : Bits) (m : List Host.Cell) (i a : Nat),
    (∀ j, i ≤ j → j < i + f.length → a ≠ blueAddr (posAt w j)) → Memory.read (embedFrom w m i f) a = Memory.read m a
  | [], _, _, _, _ => rfl
  | d :: r, m, i, a, h => by
    rw [embedFrom, read_embedFrom_other r _ (i+1) a (fun j h1 h2 => h j (by omega) (by simp; omega)), read_embedOne,
      if_neg (Ne.symm (h i le_rfl (by simp)))]

theorem withBit_eq (b : Byte) (d : Bit) : withBit b d = (b &&& 0xFE) ||| (if d then 1 else 0) := by
  cases d <;> rfl

theorem withBit_lsb (b : Byte) (d : Bit) : (withBit b d).getLsbD 0 = d := by
  cases d <;> simp [withBit, bitNat]

theorem pixelBit_withBlueBit (px : Pixel) (d : Bit) : pixelBit (withBlueBit px d) = d := by
  cases d <;> simp [pixelBit, withBlueBit, withBit, bitNat]

/-- blue bits after embedding -/
theorem pixelBit_memRead (m : List Host.Cell) (p : Pos) : pixelBit (memRead m p) = (Memory.read m (blueAddr p)).getLsbD 0 := rfl

/-- What an embedding leaves in the blue bytes it visits (R180). -/
theorem read_embedFrom_same {w : Nat} (h0 : 0 < w) (hw : w ≤ 2 ^ 32) :
    ∀ (f : Bits) (m : List Host.Cell) (i k : Nat) (h : k < f.length),
    Memory.read (embedFrom w m i f) (blueAddr (posAt w (i + k))) = withBit (Memory.read m (blueAddr (posAt w (i + k)))) f[k]
  | d :: r, m, i, 0, _ => by
    rw [embedFrom, read_embedFrom_other, read_embedOne]
    · simp
    · intro j h1 _ he
      have := blueAddr_posAt_inj h0 hw he; omega
  | d :: r, m, i, k + 1, h => by
    have e : i + (k + 1) = i + 1 + k := by omega
    rw [embedFrom, e, read_embedFrom_same h0 hw r _ (i+1) k (by simpa using h), read_embedOne, if_neg]
    · simp
    · intro he
      have := blueAddr_posAt_inj h0 hw he; omega

theorem blueBits_length (w : Nat) (m : List Host.Cell) (n : Nat) : (blueBits w m n).length = n := by simp [blueBits]

theorem blueBits_succ (w : Nat) (m : List Host.Cell) (n : Nat) :
    blueBits w m (n+1) = blueBits w m n ++ [pixelBit (memRead m (posAt w n))] := by
  simp [blueBits, List.range_succ]

theorem blueBits_take (w : Nat) (m : List Host.Cell) {j n : Nat} (h : j ≤ n) : (blueBits w m n).take j = blueBits w m j := by
  rw [blueBits, ← List.map_take, List.take_range, Nat.min_eq_left h, blueBits]

/-- The bits embedded are the bits read back (R184, R204). -/
theorem blueBits_embedFrom {w : Nat} (h0 : 0 < w) (hw : w ≤ 2 ^ 32) (f : Bits) (m : List Host.Cell) :
    blueBits w (embedFrom w m 0 f) f.length = f := by
  apply List.ext_getElem (by simp [blueBits_length])
  intro i h1 h2
  simp only [blueBits, List.getElem_map, List.getElem_range, pixelBit_memRead]
  have := read_embedFrom_same h0 hw f m 0 i h2
  rw [Nat.zero_add] at this
  rw [this, withBit_lsb]

end Sys2Proof.Machine
end

