-- ==== Sys2Proof/Laws/Scan.lean ====
section
/-! SUPPORT. The pixel loops: an embedding's, and a scan's up to its first match. -/

namespace Sys2Proof.Machine

/-- The pixel steps of an embedding, all at once. -/
theorem embed_loop (eng : State → Out)
    (heng : ∀ (u : State) (d : Bit), u.checked = true → u.frm[u.pix]? = some d → eng u = .next (u.embedPixel d)) (n : Nat) :
    ∀ (r : Bits) (s : State), s.checked = true → s.pend.isSome → s.frm.drop s.pix = r →
      drive eng (n + r.length) s =
        drive eng n { s with carrier := embedFrom s.carW.toNat s.carrier s.pix r, pix := s.pix + r.length }
  | [], s, _, _, _ => by simp [embedFrom]
  | d :: r, s, hc, hp, hr => by
    have hd : s.frm[s.pix]? = some d := by
      have := congrArg (fun l => l[0]?) hr
      simpa using this
    have hr' : s.frm.drop (s.pix + 1) = r := by
      have := congrArg List.tail hr
      simpa [List.tail_drop] using this
    rw [List.length_cons, ← Nat.add_assoc, drive_more (heng s d hc hd) (by simpa using hp),
      embed_loop eng heng n r (s.embedPixel d) (by simpa using hc) (by simpa using hp) (by simpa using hr')]
    simp [State.embedPixel, embedFrom, State.nextPos, Nat.add_assoc, Nat.add_comm 1]

theorem no_firstMatch_of_take {m : MatchMin} {w : Nat} {mem : List Host.Cell} {k n : Nat} (hk : k ≤ n)
    (h : ∀ j, j ≤ k → ¬ firstMatch m (blueBits w mem n) j) : ∀ j, j ≤ k → ¬ firstMatch m (blueBits w mem k) j := by
  intro j hj hf
  refine h j hj ?_
  have e : blueBits w mem n = blueBits w mem k ++ (blueBits w mem n).drop k := by
    rw [← blueBits_take w mem hk, List.take_append_drop]
  rw [e]; exact firstMatch_append hf

/-- What one pixel step of a scan does to `RAW` and to the detector. -/
theorem readPixel_eq {s : State} (hx : s.xst = .scanning) (hraw : s.raw = blueBits s.carW.toNat s.carrier s.pix)
    (hs : scan s.params.matchMin Detector.start s.raw = (s.detector, false)) :
    s.readPixel.raw = blueBits s.carW.toNat s.carrier (s.pix + 1) ∧
    scan s.params.matchMin Detector.start s.readPixel.raw = (s.readPixel.detector, s.readPixel.xst == .found) := by
  have h1 : s.readPixel.raw = blueBits s.carW.toNat s.carrier (s.pix + 1) := by
    rw [blueBits_succ, ← hraw]; rfl
  refine ⟨h1, ?_⟩
  rw [State.readPixel_raw, scan_append_none _ hs, State.readPixel_xst, State.readPixel_detector, hx]
  by_cases h : (s.detector.scanBit (pixelBit (memRead s.carrier s.nextPos))).isMatch s.params.matchMin <;> simp [h]

/-- `k` pixel steps of a scan without a match. -/
theorem scan_loop (i : Instr) (fin : State → Out) (hi : engineStep i = scanStep fin) (s : State) :
    ∀ (k n : Nat) (u : State), u.pend = some i → u.xst = .scanning → u.carW = s.carW → u.carH = s.carH →
      u.params = s.params → u.carrier = s.carrier →
      u.raw = blueBits s.carW.toNat s.carrier u.pix → scan s.params.matchMin Detector.start u.raw = (u.detector, false) →
      u.pix + k ≤ s.carW.toNat * s.carH.toNat → u.pix + k ≤ s.params.maxBits →
      (∀ j, j ≤ u.pix + k → ¬ firstMatch s.params.matchMin (blueBits s.carW.toNat s.carrier (u.pix + k)) j) →
      ∃ w, drive (engineStep i) (n + k) u = drive (engineStep i) n { u with
          raw := blueBits s.carW.toNat s.carrier (u.pix + k), pix := u.pix + k, win := w, ncnt := u.pix + k } ∧
        scan s.params.matchMin Detector.start (blueBits s.carW.toNat s.carrier (u.pix + k)) = (⟨w, u.pix + k⟩, false)
  | 0, n, u, h1, h2, h3, h4, h5, h6, h7, h8, h9, h10, h11 => by
    refine ⟨u.win, ?_, ?_⟩
    · have : u.ncnt = u.pix := by
        have hh := scan_start_of_no_match (m := s.params.matchMin) (bs := u.raw) (fun j hj => by
          rw [h7] at hj; exact h11 j (by have := hj.2.1.2.1; rw [blueBits_length] at this; omega) hj)
        rw [hh] at h8
        have := feed_ncnt u.raw Detector.start
        simp at h8
        rw [h8, h7, blueBits_length] at this
        simpa [State.detector, Detector.start] using this
      simp only [Nat.add_zero, ← this]
      cases u; simp_all
    · have hh : u.ncnt = u.pix := by
        have hh := scan_start_of_no_match (m := s.params.matchMin) (bs := u.raw) (fun j hj => by
          rw [h7] at hj; exact h11 j (by have := hj.2.1.2.1; rw [blueBits_length] at this; omega) hj)
        rw [hh] at h8
        have := feed_ncnt u.raw Detector.start
        simp at h8
        rw [h8, h7, blueBits_length] at this
        simpa [State.detector, Detector.start] using this
      simp [← h7, h8, State.detector, hh]
  | k + 1, n, u, h1, h2, h3, h4, h5, h6, h7, h8, h9, h10, h11 => by
    have hstep : engineStep i u = .next u.readPixel := by
      rw [hi]; unfold scanStep; rw [h2]; simp only
      rw [if_pos (by simp [State.capacity, h3, h4]; omega), h5, within_of_le]
      rw [h7, blueBits_length]; omega
    obtain ⟨e1, e2⟩ := readPixel_eq h2 (by rw [h3, h6]; exact h7) (by rw [h5]; exact h8)
    rw [h3, h6] at e1
    rw [h5] at e2
    have hx : u.readPixel.xst = .scanning := by
      by_contra hne
      have hf : u.readPixel.xst = .found := by
        rw [State.readPixel_xst] at hne ⊢; split at hne <;> simp_all
      rw [hf, e1] at e2
      obtain ⟨j, hj⟩ | hno := firstMatch_or_none s.params.matchMin (blueBits s.carW.toNat s.carrier (u.pix + 1))
      · have hj2 := hj.2.1.2.1
        rw [blueBits_length] at hj2
        refine h11 j (by omega) ?_
        have e : blueBits s.carW.toNat s.carrier (u.pix + (k+1)) = blueBits s.carW.toNat s.carrier (u.pix + 1) ++
            (blueBits s.carW.toNat s.carrier (u.pix + (k+1))).drop (u.pix + 1) := by
          rw [← blueBits_take s.carW.toNat s.carrier (j := u.pix+1) (n := u.pix + (k+1)) (by omega), List.take_append_drop]
        rw [e]; exact firstMatch_append hj
      · rw [scan_start_of_no_match hno] at e2; simp at e2
    have hn : n + (k + 1) = (n + k) + 1 := by omega
    rw [hn, drive_more hstep (by simp [h1])]
    have hpp : u.readPixel.pix = u.pix + 1 := rfl
    have hadd : u.pix + 1 + k = u.pix + (k + 1) := by omega
    obtain ⟨w, hw1, hw2⟩ := scan_loop i fin hi s k n u.readPixel h1 hx h3 h4 h5 h6 (by rw [hpp]; exact e1)
      (by rw [e2, hx]; rfl) (by rw [hpp]; omega) (by rw [hpp]; omega) (by rw [hpp, hadd]; exact h11)
    rw [hpp, hadd] at hw1 hw2
    refine ⟨w, ?_, hw2⟩
    rw [hw1]
    congr 1
    cases u
    simp_all [State.readPixel]

end Sys2Proof.Machine
end

