-- ==== Sys2Proof/Laws/Turns.lean ====
section
/-! SUPPORT. The next turn, and a step that is the host's statement. -/

namespace Sys2Proof.Machine

/-- The next turn, when it is the host's. -/
theorem nextTurn_host {s : State} (h : s.hostsTurn) : nextTurn s = (.host, s.turnTaken) := by
  rcases h with h | ⟨h, hp⟩
  · cases hs : s.sched with
    | nil => simp [hs] at h
    | cons x r => simp [hs] at h; subst h; simp [nextTurn, hs, State.turnTaken]
  · cases s; simp_all [nextTurn, State.turnTaken]

/-- The next turn, when it is the engine's. -/
theorem nextTurn_engine {s : State} (h : s.enginesTurn) : nextTurn s = (.engine, s.turnTaken) := by
  rcases h with h | ⟨h, hp⟩
  · cases hs : s.sched with
    | nil => simp [hs] at h
    | cons x r => simp [hs] at h; subst h; simp [nextTurn, hs, State.turnTaken]
  · cases s; simp_all [nextTurn, State.turnTaken, Option.isSome_iff_ne_none]

@[simp] theorem turnTaken_arg (s : State) (a : Arg) : s.turnTaken.arg a = s.arg a := by cases a <;> rfl

@[simp] theorem turnTaken_busy (s : State) : s.turnTaken.busy = s.busy := rfl

/-- A step of a host about to execute a statement is that statement. -/
theorem step_stmt {s : State} {st : Stmt} (h : s.aboutTo st) : step s = hostStmt st s.turnTaken := by
  obtain ⟨h, hh, hp⟩ := h
  have e1 : s.turnTaken.halted = false := hh
  have e2 : s.turnTaken.prog[s.turnTaken.hpc]? = some st := hp
  simp [step, nextTurn_host h, takeTurn, hostTurn, e1, e2]

/-- The length and the elements of a resized buffer (R32). -/
theorem resize_getElem {α} (d : α) (n : Nat) (l : List α) :
    (resize d n l).length = n ∧ ∀ j, j < n → (resize d n l)[j]? = some (l.getD j d) := by
  unfold resize
  split
  · rename_i h
    refine ⟨by simp [h], fun j hj => ?_⟩
    rw [List.getElem?_take_of_lt hj, List.getD_eq_getElem?_getD, List.getElem?_eq_getElem (by omega)]; rfl
  · refine ⟨by simp; omega, fun j hj => ?_⟩
    rw [List.getElem?_append]
    split
    · rename_i hl; simp [List.getD, hl]
    · rename_i hl; have : l[j]? = none := by simp; omega
      simp [List.getD, List.getElem?_replicate, this]; omega

/-- All that a register write that answers a next state can do (R251). -/
theorem regWrite_cases {n : Reg} {v : Word} {s t : State} (h : regWrite n v s = .next t) :
    (∃ i, decode v = .command i ∧ t = accept i s) ∨ t = s ∨
    (v.toNat ≤ s.params.maxTxt ∧ t = { s with txt := resize 0 v.toNat s.txt }) ∨
    (v.toNat ≤ s.params.maxPwd ∧ t = { s with pwd := resize 0 v.toNat s.pwd }) ∨
    (v.toNat ≤ s.params.maxBits ∧ t = { s with bits := resize false v.toNat s.bits }) ∨
    t = { s with carW := v.setWidth 16 } ∨ t = { s with carH := v.setWidth 16 } ∨ t = { s with idx := v } ∨
    t = { s with txt := s.txt.set s.idx.toNat v } ∨ t = { s with pwd := s.pwd.set s.idx.toNat v } ∨
    t = { s with bits := s.bits.set s.idx.toNat (v.getLsbD 0) } := by
  unfold regWrite at h
  split at h
  · obtain ⟨i, hd, rfl⟩ := issueCommand_eq_next.1 h
    exact .inl ⟨i, hd, rfl⟩
  all_goals
    first
    | (cases h; done)
    | (rw [within_eq_next] at h
       obtain ⟨hl, h⟩ := h
       cases h
       simp [hl])
    | (cases h
       simp)

/-- All that a host statement that answers a next state can do (R81). -/
theorem hostStmt_cases {st : Stmt} {s t : State} (h : hostStmt st s = .next t) :
    (∃ x v, t = (s.setVar x v).advance) ∨ (∃ label, t = s.jump label) ∨ t = { s with halted := true } ∨
    (∃ n v u, s.busy = false ∧ regWrite n v s = .next u ∧ t = u.advance) ∨
    (∃ p px, s.busy = false ∧ t = { s with carrier := memWrite s.carrier p px }.advance) ∨
    (∃ i u x, s.busy = false ∧ exec i s = .next u ∧ t = (u.setVar x 0).advance) ∨
    (s.busy = true ∧ st.touchesBlock = true ∧
      (t = s.recordHazard.advance ∨ ∃ x, t = (s.hazardRead x).advance)) := by
  cases st with
  | wr reg v =>
    obtain ⟨u, ho, rfl⟩ := thenAdvance_eq_next.1 h
    rcases hostWrite_eq_next.1 ho with ⟨hb, rfl⟩ | ⟨hb, h⟩
    · exact .inr (.inr (.inr (.inr (.inr (.inr ⟨hb, rfl, .inl rfl⟩)))))
    · exact .inr (.inr (.inr (.inl ⟨_, _, u, hb, h, rfl⟩)))
  | rd reg x =>
    obtain ⟨u, ho, rfl⟩ := thenAdvance_eq_next.1 h
    rcases hostRead_eq_next.1 ho with ⟨hb, hn, rfl⟩ | ⟨-, v, -, rfl⟩
    · exact .inr (.inr (.inr (.inr (.inr (.inr ⟨hb, by simpa [Stmt.touchesBlock, statusReg] using hn, .inr ⟨x, rfl⟩⟩)))))
    · exact .inl ⟨x, v, rfl⟩
  | pixWr row col r g b =>
    obtain ⟨u, ho, rfl⟩ := thenAdvance_eq_next.1 h
    rcases hostPixWrite_eq_next.1 ho with ⟨hb, rfl⟩ | ⟨hb, -, rfl⟩
    · exact .inr (.inr (.inr (.inr (.inr (.inr ⟨hb, rfl, .inl rfl⟩)))))
    · exact .inr (.inr (.inr (.inr (.inl ⟨_, _, hb, rfl⟩))))
  | pixRd row col x =>
    obtain ⟨u, ho, rfl⟩ := thenAdvance_eq_next.1 h
    rcases hostPixRead_eq_next.1 ho with ⟨hb, rfl⟩ | ⟨-, rfl⟩
    · exact .inr (.inr (.inr (.inr (.inr (.inr ⟨hb, rfl, .inr ⟨x, rfl⟩⟩)))))
    · exact .inl ⟨x, _, rfl⟩
  | andi x u v => simp only [hostStmt, Host.Outcome.next.injEq] at h; exact .inl ⟨x, _, h.symm⟩
  | shri x u v => simp only [hostStmt, Host.Outcome.next.injEq] at h; exact .inl ⟨x, _, h.symm⟩
  | addi x u v => simp only [hostStmt, Host.Outcome.next.injEq] at h; exact .inl ⟨x, _, h.symm⟩
  | beq x v label =>
    simp only [hostStmt, Host.Outcome.next.injEq] at h
    split at h
    exacts [.inr (.inl ⟨label, h.symm⟩), .inr (.inl ⟨s.hpc + 1, h.symm⟩)]
  | bne x v label =>
    simp only [hostStmt, Host.Outcome.next.injEq] at h
    split at h
    exacts [.inr (.inl ⟨s.hpc + 1, h.symm⟩), .inr (.inl ⟨label, h.symm⟩)]
  | jmp label => simp only [hostStmt, Host.Outcome.next.injEq] at h; exact .inr (.inl ⟨label, h.symm⟩)
  | halt => simp only [hostStmt, Host.Outcome.next.injEq] at h; exact .inr (.inr (.inl h.symm))
  | run x v =>
    obtain ⟨u, ho, rfl⟩ := thenAdvance_eq_next.1 h
    rcases hostRun_eq_next.1 ho with ⟨hb, rfl⟩ | ⟨hb, i, w, -, he, rfl⟩
    · exact .inr (.inr (.inr (.inr (.inr (.inr ⟨hb, rfl, .inr ⟨x, rfl⟩⟩)))))
    · exact .inr (.inr (.inr (.inr (.inr (.inl ⟨i, w, x, hb, he, rfl⟩)))))

/-- Whose turn is next, in the terms of claims; the state it starts from is always `turnTaken`. -/
theorem nextTurn_cases (s : State) :
    (s.hostsTurn ∧ nextTurn s = (.host, s.turnTaken)) ∨ (s.enginesTurn ∧ nextTurn s = (.engine, s.turnTaken)) ∨
      (s.sched.head? = some .reset ∧ nextTurn s = (.reset, s.turnTaken)) := by
  cases hs : s.sched with
  | nil =>
    by_cases hp : s.pend = none
    · have h : s.hostsTurn := .inr ⟨hs, hp⟩
      exact .inl ⟨h, nextTurn_host h⟩
    · have h : s.enginesTurn := .inr ⟨hs, hp⟩
      exact .inr (.inl ⟨h, nextTurn_engine h⟩)
  | cons turn rest =>
    cases turn with
    | host =>
      have h : s.hostsTurn := .inl (by simp [hs])
      exact .inl ⟨h, nextTurn_host h⟩
    | engine =>
      have h : s.enginesTurn := .inl (by simp [hs])
      exact .inr (.inl ⟨h, nextTurn_engine h⟩)
    | reset => exact .inr (.inr ⟨rfl, by simp [nextTurn, State.turnTaken, hs]⟩)

/-- All that a step that answers a next state can do: nothing but its turn, a reset, an engine step of the command in progress, or
the statement of the host's program it stands at (R322). -/
theorem step_cases {s t : State} (h : step s = .next t) :
    t = s.turnTaken ∨ t = s.turnTaken.resetBlock ∨
      (∃ i, s.enginesTurn ∧ s.pend = some i ∧ engineStep i s.turnTaken = .next t) ∨
      ∃ st, s.aboutTo st ∧ hostStmt st s.turnTaken = .next t := by
  rcases nextTurn_cases s with ⟨ht, hn⟩ | ⟨ht, hn⟩ | ⟨-, hn⟩
  · simp only [step, hn, takeTurn, hostTurn] at h
    split at h
    · exact .inl (by simpa using h.symm)
    · rename_i hh
      have hh : s.halted = false := eq_false_of_ne_true hh
      split at h
      · rename_i st hp; exact .inr (.inr (.inr ⟨st, ⟨ht, hh, hp⟩, h⟩))
      · exact .inl (by simpa using h.symm)
  · simp only [step, hn, takeTurn, engineTurn] at h
    split at h
    · rename_i i hp; exact .inr (.inr (.inl ⟨i, ht, hp, h⟩))
    · exact .inl (by simpa using h.symm)
  · simp only [step, hn, takeTurn, Host.Outcome.next.injEq] at h
    exact .inr (.inl h.symm)

/-- A step of the engine's turn with a command in progress is that command's engine step (R322). -/
theorem step_engine {s : State} {i : Instr} (h : s.enginesTurn) (hp : s.pend = some i) :
    step s = engineStep i s.turnTaken := by
  have hp' : s.turnTaken.pend = some i := hp
  simp [step, nextTurn_engine h, takeTurn, engineTurn, hp']

/-- An invariant of the machine: kept by a turn taken, by reset, by every engine step of the command in progress, by every
acceptance, by every host operation and by a hazard recorded, it is kept by every step. -/
theorem step_keeps {P : State → Prop}
    (hsched : ∀ s, P s → P s.turnTaken) (hreset : ∀ s, P s → P s.resetBlock)
    (heng : ∀ i s t, P s → s.pend = some i → engineStep i s = .next t → P t)
    (hacc : ∀ i s, s.busy = false → P s → P (accept i s))
    (hvar : ∀ s x v, P s → P (s.setVar x v)) (hjump : ∀ s l, P s → P (s.jump l))
    (hhalt : ∀ s, P s → P { s with halted := true })
    (hreg : ∀ n v s t, s.busy = false → P s → regWrite n v s = .next t → P t)
    (hpix : ∀ s p px, s.busy = false → P s → P { s with carrier := memWrite s.carrier p px })
    (hhaz : ∀ s, P s → P s.recordHazard)
    {s t : State} (hs : P s) (h : step s = .next t) : P t := by
  have hadv : ∀ s, P s → P s.advance := fun s hs => hjump s (s.hpc + 1) hs
  have hu := hsched s hs
  rcases step_cases h with rfl | rfl | ⟨i, -, hp, h⟩ | ⟨st, -, h⟩
  · exact hu
  · exact hreset _ hu
  · exact heng i _ t hu hp h
  · rcases hostStmt_cases h with ⟨x, v, rfl⟩ | ⟨l, rfl⟩ | rfl | ⟨n, v, w, hb, hw, rfl⟩ | ⟨p, px, hb, rfl⟩ | ⟨i, w, x, hb, hw, rfl⟩ |
        ⟨-, -, rfl | ⟨x, rfl⟩⟩
    · exact hadv _ (hvar _ _ _ hu)
    · exact hjump _ _ hu
    · exact hhalt _ hu
    · exact hadv _ (hreg _ _ _ _ hb hu hw)
    · exact hadv _ (hpix _ _ _ hb hu)
    · exact hadv _ (hvar _ _ _ (exec_keeps hb (heng i) (hacc i _ hb hu) hw))
    · exact hadv _ (hhaz _ hu)
    · exact hadv _ (hvar _ _ _ (hhaz _ hu))

end Sys2Proof.Machine
end

