-- ==== Sys2Proof/Tests/Slice0.lean ====
section
/-! SUPPORT. The model's own tests: each expected result is from spec/95_test_vectors.md, named by its vector, or worked out by hand
from the rule it names; and, for each statement with hypotheses, a state and operands that meet them. -/

namespace Sys2Proof.Tests

open Sys2Proof.Machine

set_option maxRecDepth 8000

/-! Helpers. -/

/-- A bit sequence written in 0 and 1, in stream order. -/
def bs (l : List Nat) : Bits := l.map (· == 1)

/-- A field of a next state. -/
def field {α : Type} (f : State → α) (o : Out) : Option α :=
  match o with
  | .next s => some (f s)
  | .fault _ => none
  | .refused _ => none

/-- Why a step was refused. -/
def refusal (o : Out) : Option Refusal :=
  match o with
  | .next _ => none
  | .fault _ => none
  | .refused r => some r

/-- `STATUS` after a step. -/
def status (o : Out) : Option Word := field statusWord o

/-- An idle block whose host stands at one statement. -/
def host (st : Stmt) : State := { State.reset with prog := [st] }

/-- A block with ENCT in progress whose host moves next, at one statement. -/
def busyHost (st : Stmt) : State := { State.reset with prog := [st], pend := some .enct, busy := true, sched := [.host] }

/-- Parameters small enough to meet every bound. -/
def small : Params := { matchMin := .fullWindow, charset := .latin1, maxTxt := 1, maxPwd := 1, maxBits := 32 }

/-- The 24 by 1 carrier that HIDE of an empty message leaves (V45-10): blue LSB 1 at columns 22 and 23. -/
def markerCarrier : List Host.Cell := [(68, 1), (71, 1)]

/-- A block bound to the carrier of V45-10, with the password "k". -/
def marked : State := { State.reset with carrier := markerCarrier, carW := 24, carH := 1, pwd := [0x6B] }

/-- A message "H" and a password "k" on a black 8 by 4 carrier: just enough pixels for the frame. -/
def hideH : State := { State.reset with txt := [0x48], pwd := [0x6B], carW := 8, carH := 4, params := small }

/-! Well-formedness refuses an ill-formed term. -/

theorem test_wf_default : Params.specDefault.wellFormed = true := by decide
theorem test_wf_maxBits_low : { small with maxBits := 23 : Params }.wellFormed = false := by decide
theorem test_wf_maxBits_high : { small with maxBits := 2 ^ 32 : Params }.wellFormed = false := by decide
theorem test_wf_charset : { small with charset := .table [⟨0, true⟩] : Params }.wellFormed = false := by decide
theorem test_wf_wr : Stmt.wellFormed 1 (.wr 13 (.imm 0)) = false := by decide
theorem test_wf_rd : Stmt.wellFormed 1 (.rd 15 0) = false := by decide
theorem test_wf_beq : Stmt.wellFormed 1 (.beq 0 (.imm 0) 1) = false := by decide
theorem test_wf_bne : Stmt.wellFormed 1 (.bne 0 (.imm 0) 1) = false := by decide
theorem test_wf_jmp : Stmt.wellFormed 1 (.jmp 1) = false := by decide
theorem test_wf_program : Program.wellFormed [.jmp 1, .halt] = true ∧ Program.wellFormed [.jmp 2, .halt] = false := by decide

/-! Decoding: words written out from R77, one per command, and reserved words (V46-8, V46-9). -/

theorem test_decode_enct : decode 0b00000000000000000000000000000001#32 = .command .enct := by decide
theorem test_decode_enck : decode 0b00000000000000000000000000000010#32 = .command .enck := by decide
theorem test_decode_decb : decode 0b00000000000000000000000000000011#32 = .command .decb := by decide
theorem test_decode_xork : decode 0b00000000000000000000000000000100#32 = .command .xork := by decide
theorem test_decode_fbld : decode 0b00000000000000000000000000000101#32 = .command .fbld := by decide
theorem test_decode_fprs : decode 0b00000000000000000000000000000110#32 = .command .fprs := by decide
theorem test_decode_embd : decode 0b00000000000000000000000000000111#32 = .command .embd := by decide
theorem test_decode_extr : decode 0b00000000000000000000000000001000#32 = .command .extr := by decide
theorem test_decode_hide : decode 0b00000000000000000000000000001001#32 = .command .hide := by decide
theorem test_decode_rvel : decode 0b00000000000000000000000000001010#32 = .command .rvel := by decide
theorem test_decode_reserved_field : decode 0x00000010 = .reservedField ∧ decode 0x80000001 = .reservedField := by decide
theorem test_decode_reserved_opcode : decode 0 = .reservedOpcode ∧ decode 0xB = .reservedOpcode ∧
    decode 0xF = .reservedOpcode := by decide
theorem test_decodeTableWord : decodeTableWord 32 9 = some .hide ∧ decodeTableWord 32 16 = none ∧
    decodeTableWord 32 0 = none := by decide
theorem test_withFetchWord : field State.errcode (step (State.reset.withFetchWord 32 4)) = some 1 := by decide

/-! The bit encodings. -/

theorem test_marker : marker = bs [0,0,0,0,0,0,0,0, 0,0,0,0,0,0,0,0, 0,0,0,0,0,0,1,1] := by decide
theorem test_bits8 : bits8 0x48 = bs [0,1,0,0,1,0,0,0] := by decide
theorem test_withBit : withBit 0x55 false = 0x54 ∧ withBit 0xAA true = 0xAB ∧ withBit 0xFF true = 0xFF := by decide

/-! ENCT, ENCK, DECB. -/

/-- V40-1. -/
theorem test_enct_hi : field State.bits (exec .enct { State.reset with txt := [0x48, 0x69] }) =
    some (bs [0,1,0,0,1,0,0,0, 0,1,1,0,1,0,0,1]) := by decide
/-- V40-4. -/
theorem test_enct_unencodable :
    let o := exec .enct { State.reset with txt := [0x48, 0x100], bits := bs [1,0,1] }
    field State.bits o = some (bs [1,0,1]) ∧ status o = some 0x00000008 := by decide
/-- V40-6. -/
theorem test_enck_k : field State.keyb (exec .enck { State.reset with pwd := [0x6B] }) =
    some (bs [0,1,1,0,1,0,1,1]) := by decide
/-- V40-7. -/
theorem test_enck_empty : status (exec .enck State.reset) = some 0 := by decide
/-- V40-9. -/
theorem test_decb_trailing : field State.txt (exec .decb { State.reset with bits := bs [1,0,1,0,1,0,1,0, 1,0,1] }) =
    some [0xAA] := by decide
/-- V40-10. -/
theorem test_decb_short : field State.txt (exec .decb { State.reset with bits := bs [1,0,1,0,1,0,1] }) = some [] := by decide

/-! XORK. -/

/-- V41-4. -/
theorem test_xork_repeats : field State.bits (exec .xork { State.reset with bits := bs [1,0,1,1,0], keyb := bs [1,0] }) =
    some (bs [0,0,0,1,1]) := by decide
/-- V41-3. -/
theorem test_xork_degenerate :
    let o := exec .xork { State.reset with bits := bs [1,0,1] }
    field State.bits o = some (bs [1,0,1]) ∧ status o = some 0x00000002 := by decide

/-! FBLD, FPRS. -/

/-- V42-1. -/
theorem test_fbld_empty : field State.bits (exec .fbld State.reset) = some marker := by decide
/-- I1, by hand: a frame of 25 bits does not fit 24. -/
theorem test_fbld_bound : refusal (exec .fbld { State.reset with bits := [true], params := { small with maxBits := 24 } }) =
    some .bitsBound := by decide
/-- V42-5 and V42-8. -/
theorem test_fprs_cuts :
    field State.bits (exec .fprs { State.reset with bits := true :: marker }) = some [true] ∧
    field State.bits (exec .fprs { State.reset with bits := marker ++ bs [1,1,1] }) = some [] := by decide
/-- V42-4 with `MATCH_MIN = 25`, V60-5. -/
theorem test_fprs_afterFullWindow :
    let o := exec .fprs { State.reset with bits := marker, params := { small with matchMin := .afterFullWindow } }
    field State.bits o = some marker ∧ status o = some 0x00000006 := by decide

/-! EMBD, EXTR. -/

/-- V43-5, on its four pixels. -/
theorem test_embd_pixels :
    let m := memWrite (memWrite (memWrite (memWrite [] ⟨0, 0⟩ ⟨200, 100, 0x55⟩) ⟨0, 1⟩ ⟨17, 34, 0xAA⟩) ⟨0, 2⟩ ⟨1, 2, 0xFF⟩)
      ⟨0, 3⟩ ⟨9, 9, 9⟩
    let o := field State.carrier (exec .embd { State.reset with bits := bs [0,1,1], carW := 3, carH := 1, carrier := m })
    (o.map fun c => (memRead c ⟨0, 0⟩, memRead c ⟨0, 1⟩, memRead c ⟨0, 2⟩, memRead c ⟨0, 3⟩)) =
      some (⟨200, 100, 0x54⟩, ⟨17, 34, 0xAB⟩, ⟨1, 2, 0xFF⟩, ⟨9, 9, 9⟩) := by decide
/-- V43-6. -/
theorem test_embd_capacity :
    status (exec .embd { State.reset with bits := [true], carW := 0, carH := 7 }) = some 0x00000004 := by decide
/-- V44-5, on a carrier of 24 by 1 pixels. -/
theorem test_extr_found :
    let o := exec .extr marked
    field State.bits o = some marker ∧ status o = some 0x00000020 := by decide
/-- V44-3. -/
theorem test_extr_empty : status (exec .extr State.reset) = some 0x00000036 := by decide

/-! HIDE, RVEL. -/

/-- V45-10. -/
theorem test_hide_empty_message :
    field State.carrier (exec .hide { State.reset with pwd := [0x6B], carW := 24, carH := 1 }) = some markerCarrier := by decide
/-- V45-6, V45-7 (the order of the errors). -/
theorem test_hide_priority :
    status (exec .hide { State.reset with txt := [0x100], carW := 1, carH := 1 }) = some 0x00000008 ∧
    status (exec .hide { State.reset with txt := [0x48, 0x69], carW := 1, carH := 1 }) = some 0x00000002 := by decide
/-- R134, R230, R240, by hand: "H" under "k" is 0x48 XOR 0x6B = 0x23, then the marker; RVEL gives "H" back. -/
theorem test_rvel_returns :
    (field (fun t => (t.bits, field State.txt (exec .rvel t))) (exec .hide hideH)) =
      some (bs [0,0,1,0,0,0,1,1] ++ marker, some [0x48]) := by decide
/-- V45-9, V45-13. -/
theorem test_rvel_errors :
    status (exec .rvel { marked with pwd := [] }) = some 0x00000022 ∧
    status (exec .rvel { marked with pwd := [0x100] }) = some 0x00000028 := by decide

/-! The host. -/

/-- V46-1. -/
theorem test_len_write : field State.txt (step { host (.wr 2 (.imm 3)) with txt := [0x48] }) = some [0x48, 0, 0] := by decide
/-- V46-4. -/
theorem test_window_write :
    field State.bits (step { host (.wr 11 (.imm 0xFFFFFFFE)) with bits := [true] }) = some [false] := by decide
/-- V46-5. -/
theorem test_carW_write : field State.carW (step (host (.wr 6 (.imm 0x00012345)))) = some 0x2345 := by decide
/-- V46-10, V46-11. -/
theorem test_hazard : field State.faults (step (busyHost (.rd 2 0))) = some [.hostHazard] ∧
    field State.faults (step (busyHost (.pixRd (.imm 0) (.imm 0) 0))) = some [.hostHazard] := ⟨rfl, rfl⟩
/-- R320: the mark outlives the reset input, and the run has no end. -/
theorem test_hazard_kept :
    let s : State := { busyHost (.wr 2 (.imm 3)) with prog := [.wr 2 (.imm 3), .halt], sched := [.host, .reset, .host] }
    field (fun t => (t.txt, t.busy, t.halted, t.faults, t.isEnd)) (Host.Core.run Sys2Proof.core 3 s) =
      some ([], false, true, [.hostHazard], false) := rfl
/-- V46-13. -/
theorem test_status_during_scan :
    field (fun t => t.var 5) (step { accept .extr (host (.rd 1 5)) with sched := [.host] }) = some 0x00000011 := by decide
/-- V46-12. -/
theorem test_reserved_register : refusal (step (host (.rd 13 0))) = some .reservedRegister := by decide
/-- R82, by hand: RUN HIDE from statement 4 on polls at statement 5. -/
theorem test_expand_run : expand 4 (.run 7 .hide) =
    [.wr 0 (.imm 9), .rd 1 7, .andi 7 7 (.imm 1), .bne 7 (.imm 0) 5] := by decide
/-- R82: LDTXT "Hi", as program P1 expands it. -/
theorem test_expand_ldtxt : expand 0 (.ldtxt [0x48, 0x69]) =
    [.wr 2 (.imm 2), .wr 8 (.imm 0), .wr 9 (.imm 0x48), .wr 8 (.imm 1), .wr 9 (.imm 0x69)] := by decide
/-- R325. -/
theorem test_end : (field State.isEnd (step (host .halt))) = some true := by decide

/-! States and operands that meet the statements' hypotheses, one theorem per statement that has any. -/

/-- A host that stands at its statement is about to execute it. -/
theorem host_aboutTo (st : Stmt) : (host st).aboutTo st := ⟨.inr ⟨rfl, rfl⟩, rfl, rfl⟩

theorem busyHost_aboutTo (st : Stmt) : (busyHost st).aboutTo st := ⟨.inl rfl, rfl, rfl⟩

/-- The first match of the marker alone, and of a bit and the marker under each threshold (R152). -/
theorem firstMatch_marker : firstMatch .fullWindow marker 24 :=
  ⟨le_refl _, ⟨le_refl _, le_refl _, by decide⟩, fun i h1 h2 => absurd h1 (Nat.not_le.2 h2)⟩

theorem firstMatch_after : firstMatch .afterFullWindow (true :: marker) 25 :=
  ⟨le_refl _, ⟨by decide, le_refl _, by decide⟩, fun i h1 h2 => absurd h1 (Nat.not_le.2 h2)⟩

/-- No marker ends in fewer than 24 bits. -/
theorem no_markerEndsAt_short {l : Bits} (h : l.length < 24) (j : Nat) : ¬ markerEndsAt l j :=
  fun ⟨h1, h2, _⟩ => absurd (h1.trans h2) (Nat.not_le.2 h)

theorem no_firstMatch_short (m : MatchMin) {l : Bits} (h : l.length < 24) (j : Nat) : ¬ firstMatch m l j :=
  fun hm => no_markerEndsAt_short h j hm.2.1

theorem blueBits_marked : blueBits 24 markerCarrier 24 = marker := by decide

theorem witness_CharacterSetsDecodeWhatTheyEncode :
    encChar .latin1 0xFF = some 0xFF ∧ encChar (.table [⟨0x20AC, true⟩]) 0x20AC = some 0 := by decide

theorem witness_ResetInputResetsTheBlockNotTheCarrier :
    ({ busyHost .halt with sched := [.reset], carrier := markerCarrier } : State).sched.head? = some .reset := rfl

theorem witness_StepRunsTheDecodedCommand :
    (host (.run 0 (.imm 4))).aboutTo (.run 0 (.imm 4)) ∧ (host (.run 0 (.imm 4))).busy = false ∧
      decode ((host (.run 0 (.imm 4))).arg (.imm 4)) = .command .xork ∧
      (∃ t, exec .xork (host (.run 0 (.imm 4))).turnTaken = .next t) ∧
      (∀ v, (host (.run 0 (.imm v))).aboutTo (.run 0 (.imm v)) ∧ (host (.run 0 (.imm v))).arg (.imm v) = v) ∧
      decode 0x10 = .reservedField ∧ decode 0xB = .reservedOpcode ∧
      exec .fbld { (host (.run 0 (.imm 5))) with params := { small with maxBits := 23 } }.turnTaken = .refused .bitsBound :=
  ⟨host_aboutTo _, rfl, by decide, ⟨_, rfl⟩, fun _ => ⟨host_aboutTo _, rfl⟩, by decide, by decide, rfl⟩

theorem witness_CommandWriteIsAccepted :
    (busyHost (.wr 0 (.imm 1))).aboutTo (.wr 0 (.imm 1)) ∧ (busyHost (.wr 0 (.imm 1))).busy = true ∧
    (∀ v, (host (.wr 0 (.imm v))).aboutTo (.wr 0 (.imm v)) ∧ (host (.wr 0 (.imm v))).busy = false ∧
      (host (.wr 0 (.imm v))).arg (.imm v) = v) ∧
    decode 0x10 = .reservedField ∧ decode 0 = .reservedOpcode ∧ decode 0xB = .reservedOpcode ∧
    decode 1 = .command .enct ∧ decode 7 = .command .embd ∧ decode 8 = .command .extr ∧ decode 9 = .command .hide ∧
    decode 0xA = .command .rvel :=
  ⟨busyHost_aboutTo _, rfl, fun v => ⟨host_aboutTo _, rfl, rfl⟩, by decide⟩

theorem witness_HostHazardWhileBusy : ∀ st : Stmt, (busyHost st).busy = true ∧ (busyHost st).aboutTo st ∧
    (0 : Reg) ≠ 1 ∧ Stmt.touchesBlock (.rd 1 0) = false ∧ Stmt.touchesBlock .halt = false ∧
    ({ busyHost st with sched := [.reset] } : State).sched.head? = some .reset :=
  fun st => ⟨rfl, busyHost_aboutTo st, by decide, by decide, by decide, rfl⟩

theorem witness_HostReadsGiveTheRegisters : ∀ n : Reg,
    (host (.rd n 0)).busy = false ∧ (host (.rd n 0)).aboutTo (.rd n 0) ∧ (host (.rd n 0)).txt.length < 2 ^ 32 ∧
      13 ≤ (13 : Reg).toNat ∧ ¬ 13 ≤ (12 : Reg).toNat :=
  fun _ => ⟨rfl, host_aboutTo _, Nat.two_pow_pos 32, by decide⟩

theorem witness_LengthWritesResizeTheBuffers : ∀ (n : Reg) (v : Word),
    ({ host (.wr n (.imm v)) with params := small } : State).busy = false ∧
      ({ host (.wr n (.imm v)) with params := small } : State).aboutTo (.wr n (.imm v)) ∧
      (1 : Word).toNat ≤ small.maxTxt ∧ small.maxTxt < (2 : Word).toNat ∧
      (1 : Word).toNat ≤ small.maxPwd ∧ small.maxPwd < (2 : Word).toNat ∧
      (32 : Word).toNat ≤ small.maxBits ∧ small.maxBits < (33 : Word).toNat :=
  fun n v => ⟨rfl, ⟨.inr ⟨rfl, rfl⟩, rfl, rfl⟩, by decide⟩

theorem witness_WindowWritesSetOneElement : ∀ n : Reg,
    (host (.wr n (.imm 1))).busy = false ∧ (host (.wr n (.imm 1))).aboutTo (.wr n (.imm 1)) :=
  fun _ => ⟨rfl, host_aboutTo _⟩

theorem witness_OtherRegisterWrites : ∀ n : Reg,
    (host (.wr n (.imm 1))).busy = false ∧ (host (.wr n (.imm 1))).aboutTo (.wr n (.imm 1)) ∧ 13 ≤ (13 : Reg).toNat :=
  fun _ => ⟨rfl, host_aboutTo _, by decide⟩

theorem witness_HostPixelAccess :
    let w : Stmt := .pixWr (.imm 0) (.imm 1) (.imm 255) (.imm 0) (.imm 255)
    (host w).busy = false ∧ (host w).aboutTo w ∧ ((host w).arg (.imm 255)).toNat ≤ 255 ∧
      (host (.pixRd (.imm 0) (.imm 1) 0)).aboutTo (.pixRd (.imm 0) (.imm 1) 0) ∧
      (⟨1, 0⟩ : Pos).col < 2 ^ 32 ∧ (⟨1, 0⟩ : Pos) ≠ ⟨0, 1⟩ :=
  ⟨rfl, host_aboutTo _, by decide, host_aboutTo _, Nat.two_pow_pos 32, by decide⟩

theorem witness_HostLocalStatements : ∀ st : Stmt, (host st).aboutTo st ∧ (busyHost st).aboutTo st :=
  fun st => ⟨host_aboutTo st, busyHost_aboutTo st⟩

theorem witness_AnAgentWithoutAStepChangesNothing :
    ({ State.reset with sched := [.engine] } : State).enginesTurn ∧ State.reset.pend = none ∧
    State.reset.hostsTurn ∧ State.reset.prog[State.reset.hpc]? = none ∧
    ({ host .halt with halted := true } : State).hostsTurn ∧ ({ host .halt with halted := true } : State).halted = true :=
  ⟨.inl rfl, rfl, .inr ⟨rfl, rfl⟩, rfl, .inr ⟨rfl, rfl⟩, rfl⟩

/-- Every statement about `exec` on an idle block: the state after reset is idle. -/
theorem witness_CollapsedCommandIsItsEngineSteps : State.reset.busy = false ∧ marked.busy = false ∧
    (accept .hide marked).enginesTurn ∧ (accept .hide marked).pend = some .hide := ⟨rfl, rfl, .inr ⟨rfl, nofun⟩, rfl⟩

theorem witness_EveryCommandCompletes : State.reset.busy = false ∧ hideH.busy = false := ⟨rfl, rfl⟩

theorem witness_EmbdVisitsOnePixelAStep :
    let s : State := { State.reset with bits := bs [0,1,1], carW := 3, carH := 1 }
    s.busy = false ∧ s.bits.length ≤ s.carW.toNat * s.carH.toNat ∧ 0 ≤ s.bits.length ∧ 3 ≤ s.bits.length := by decide

theorem witness_ExtrReadsOnePixelAStep :
    marked.busy = false ∧ 23 ≤ marked.carW.toNat * marked.carH.toNat ∧ 23 ≤ marked.params.maxBits ∧
      ∀ j, j ≤ 23 → ¬ firstMatch marked.params.matchMin (blueBits marked.carW.toNat marked.carrier 23) j :=
  ⟨rfl, by decide, by decide, fun j _ => no_firstMatch_short _ (by decide) j⟩

theorem witness_EncodeTextGivesEachCharactersBits :
    encodeText .latin1 [0x48] = .ok (bs [0,1,0,0,1,0,0,0]) ∧ (0 < [(0x48 : Code)].length) ∧
      encChar .latin1 0x100 = none ∧ encChar .latin1 0xFF ≠ none := by decide

theorem witness_DecodeBitsReadsWholeGroups : 0 < (bs [1,0,1,0,1,0,1,0, 1,0,1]).length / 8 := by decide

theorem all_of_one {cs : Charset} {c : Code} (h : encChar cs c ≠ none) : ∀ d ∈ [c], encChar cs d ≠ none :=
  fun d hd => by rw [List.mem_singleton.1 hd]; exact h

theorem unencodable_among : ∃ c ∈ [(0x100 : Code)], encChar .latin1 c = none := ⟨0x100, List.mem_singleton.2 rfl, rfl⟩

theorem witness_TextCodecRoundTrip : ∀ c ∈ [(0xFF : Code)], encChar .latin1 c ≠ none := all_of_one (by decide)

theorem witness_EnctEncodesTheMessage :
    hideH.busy = false ∧ encodeText hideH.params.charset hideH.txt = .ok (bs [0,1,0,0,1,0,0,0]) ∧ 8 ≤ hideH.params.maxBits ∧
    (∃ out, encodeText .latin1 [0x48, 0x48, 0x48, 0x48, 0x48] = .ok out ∧ small.maxBits < out.length) ∧
    encodeText .latin1 [0x100] = .err .unencodableCharacter :=
  ⟨rfl, by decide, by decide, ⟨_, rfl, by decide⟩, by decide⟩

theorem witness_EnckEncodesThePassword :
    hideH.busy = false ∧ encodeText hideH.params.charset hideH.pwd = .ok (bs [0,1,1,0,1,0,1,1]) ∧
    8 ≤ 8 * hideH.params.maxPwd ∧ (∃ out, encodeText .latin1 [0x48, 0x48] = .ok out ∧ 8 * small.maxPwd < out.length) ∧
    encodeText .latin1 [0x100] = .err .unencodableCharacter :=
  ⟨rfl, by decide, by decide, ⟨_, rfl, by decide⟩, by decide⟩

theorem witness_DecbDecodesTheBits :
    State.reset.busy = false ∧ (List.replicate 15 true).length / 8 ≤ small.maxTxt ∧
      small.maxTxt < (List.replicate 16 true).length / 8 := by decide

theorem witness_EnctAfterDecbSucceeds :
    let s : State := { State.reset with bits := bs [1,0,1,0,1,0,1,0, 1,0,1], params := small }
    s.busy = false ∧ s.params.charset = .latin1 ∧ s.bits.length ≤ s.params.maxBits ∧ ∃ t, exec .decb s = .next t :=
  ⟨rfl, rfl, by decide, _, rfl⟩

theorem witness_ApplyXorsTheRepeatedKey : ([] : Bits) = [] ∧ bs [1,0] ≠ [] ∧ 0 < (bs [1,0,1,1,0]).length := by decide

theorem witness_ApplyIsAnInvolution : bs [0] ≠ [] := by decide

theorem witness_ApplyXorsBytes : [(0x6B : Byte)] ≠ [] := by decide

theorem witness_XorkAppliesTheKeystream :
    State.reset.busy = false ∧ State.reset.keyb = [] ∧
      applyKey (bs [1,0,1,1,0]) (bs [1,0]) = .ok (bs [0,0,0,1,1]) := by decide

theorem witness_WindowHoldsTheLastBits : 24 ≤ marker.length ∧ 24 ≤ (true :: marker).length := by decide

theorem witness_ParseStopsAtTheFirstMarker :
    firstMatch .fullWindow marker 24 ∧ firstMatch .afterFullWindow (true :: marker) 25 ∧
      ∀ j, ¬ firstMatch .fullWindow (bs [0,0,1,1]) j :=
  ⟨firstMatch_marker, firstMatch_after, no_firstMatch_short _ (by decide)⟩

theorem witness_FrameParsesBackUnlessItCollides :
    firstMatch .fullWindow marker 24 ∧
    (∀ j, matchMinBits .afterFullWindow ≤ j → ¬ markerEndsAt [] j) ∧
      ([] : Bits).length + 24 < matchMinBits .afterFullWindow :=
  ⟨firstMatch_marker, fun j _ => no_markerEndsAt_short (by decide) j, by decide⟩

theorem witness_FbldAppendsTheMarker :
    State.reset.busy = false ∧ (List.replicate 8 true).length + 24 ≤ small.maxBits ∧
      small.maxBits < (List.replicate 9 true).length + 24 := by decide

theorem witness_FprsCutsAtTheFirstMarker :
    let s : State := { State.reset with bits := marker }
    s.busy = false ∧ firstMatch s.params.matchMin s.bits 24 ∧
      ∀ j, ¬ firstMatch State.reset.params.matchMin State.reset.bits j :=
  ⟨rfl, firstMatch_marker, no_firstMatch_short _ (by decide)⟩

theorem witness_EmbdWritesTheBlueBits :
    let s : State := { State.reset with bits := bs [0,1,1], carW := 3, carH := 1 }
    s.busy = false ∧ s.bits.length ≤ s.carW.toNat * s.carH.toNat ∧
      ({ s with carH := 0 } : State).carW.toNat * ({ s with carH := 0 } : State).carH.toNat < s.bits.length := by decide

theorem witness_ExtrReadsUpToTheFirstMarker :
    marked.busy = false ∧
    firstMatch marked.params.matchMin
      (blueBits marked.carW.toNat marked.carrier (marked.carW.toNat * marked.carH.toNat)) 24 ∧
    24 ≤ small.maxBits ∧
    (∀ j, ¬ firstMatch State.reset.params.matchMin
      (blueBits State.reset.carW.toNat State.reset.carrier (State.reset.carW.toNat * State.reset.carH.toNat)) j) ∧
    State.reset.carW.toNat * State.reset.carH.toNat ≤ State.reset.params.maxBits ∧
    ({ small with maxBits := 23 } : Params).maxBits < marked.carW.toNat * marked.carH.toNat ∧
    (∀ j, j ≤ 23 → ¬ firstMatch .fullWindow marker j) :=
  ⟨rfl, blueBits_marked ▸ firstMatch_marker, by decide, no_firstMatch_short _ (by decide), by decide, by decide,
    fun j hj hm => absurd (hm.1.trans hj) (by decide)⟩

theorem witness_FprsAfterExtrStripsTheMarker :
    marked.busy = false ∧ ∃ t, exec .extr marked = .next t ∧ t.errcode = 0 := ⟨rfl, _, rfl, rfl⟩

/-- The cipher bits of `hideH`, by hand: 0x48 XOR 0x6B = 0x23. -/
theorem hideH_cipher :
    encodeText hideH.params.charset hideH.txt = .ok (bs [0,1,0,0,1,0,0,0]) ∧
    encodeText hideH.params.charset hideH.pwd = .ok (bs [0,1,1,0,1,0,1,1]) ∧
    applyKey (bs [0,1,0,0,1,0,0,0]) (bs [0,1,1,0,1,0,1,1]) = .ok (bs [0,0,1,0,0,0,1,1]) := by decide

theorem witness_HideEmbedsTheEncipheredFrame :
    hideH.busy = false ∧ (bs [0,0,1,0,0,0,1,1]).length + 24 ≤ hideH.params.maxBits ∧
      (bs [0,0,1,0,0,0,1,1]).length + 24 ≤ hideH.carW.toNat * hideH.carH.toNat ∧
      (bs [0,1,1,0,1,0,1,1]).length ≤ 8 * hideH.params.maxPwd := by decide

theorem witness_HideReportsTheFirstError :
    hideH.busy = false ∧ (∃ c ∈ [(0x100 : Code)], encChar .latin1 c = none) ∧ (∀ c ∈ hideH.txt, encChar .latin1 c ≠ none) ∧
      (∀ c ∈ hideH.pwd, encChar .latin1 c ≠ none) ∧ hideH.pwd ≠ [] ∧ 8 * hideH.txt.length + 24 ≤ hideH.params.maxBits ∧
      ({ hideH with carH := 3 } : State).carW.toNat * ({ hideH with carH := 3 } : State).carH.toNat <
        8 * hideH.txt.length + 24 ∧
      8 * hideH.txt.length + 24 ≤ hideH.carW.toNat * hideH.carH.toNat ∧
      ({ small with maxBits := 31 } : Params).maxBits < 8 * hideH.txt.length + 24 ∧
      ({ small with maxPwd := 0 } : Params).maxPwd < hideH.pwd.length :=
  ⟨rfl, unencodable_among, all_of_one (by decide), all_of_one (by decide), by decide⟩

theorem witness_RvelRevealsTheMessage :
    marked.busy = false ∧
    firstMatch marked.params.matchMin
      (blueBits marked.carW.toNat marked.carrier (marked.carW.toNat * marked.carH.toNat)) 24 ∧
    24 ≤ marked.params.maxBits ∧ encodeText marked.params.charset marked.pwd = .ok (bs [0,1,1,0,1,0,1,1]) ∧
    applyKey (blueBits marked.carW.toNat marked.carrier (24 - 24)) (bs [0,1,1,0,1,0,1,1]) = .ok [] ∧
    (24 - 24) / 8 ≤ marked.params.maxTxt ∧ (bs [0,1,1,0,1,0,1,1]).length ≤ 8 * marked.params.maxPwd :=
  ⟨rfl, blueBits_marked ▸ firstMatch_marker, by decide⟩

theorem witness_RvelReportsTheFirstError :
    marked.busy = false ∧
    (∀ j, ¬ firstMatch State.reset.params.matchMin
      (blueBits State.reset.carW.toNat State.reset.carrier (State.reset.carW.toNat * State.reset.carH.toNat)) j) ∧
    State.reset.carW.toNat * State.reset.carH.toNat ≤ State.reset.params.maxBits ∧
    firstMatch marked.params.matchMin
      (blueBits marked.carW.toNat marked.carrier (marked.carW.toNat * marked.carH.toNat)) 24 ∧
    24 ≤ marked.params.maxBits ∧ (∃ c ∈ [(0x100 : Code)], encChar .latin1 c = none) ∧
    ({ marked with pwd := [] } : State).pwd = [] ∧ (∀ c ∈ marked.pwd, encChar .latin1 c ≠ none) ∧ marked.pwd ≠ [] ∧
    ({ small with maxPwd := 0 } : Params).maxPwd < marked.pwd.length ∧ (24 - 24) / 8 ≤ small.maxTxt :=
  ⟨rfl, no_firstMatch_short _ (by decide), by decide, blueBits_marked ▸ firstMatch_marker, by decide, unencodable_among,
    rfl, all_of_one (by decide), by decide⟩

/-- The blue bits that HIDE of "H" leaves: the cipher byte 0x23, then the marker. -/
theorem firstMatch_hideH : ∀ {l : Bits}, l = bs [0,0,1,0,0,0,1,1] ++ marker → firstMatch .fullWindow l 32 := by
  rintro _ rfl
  have h : ∀ i, i < 32 → 24 ≤ i → ((bs [0,0,1,0,0,0,1,1] ++ marker).take i).drop (i - 24) ≠ marker := by decide
  exact ⟨by decide, ⟨by decide, by decide, by decide⟩, fun i hi hl hm => h i hl hi hm.2.2⟩

/-- The bounds on `TXT` and `RAW`: the carrier that HIDE of "H" leaves, read with `MAX_TXT = 0`, and one with more pixels than
`MAX_BITS`. -/
theorem witness_RvelReportsTheFirstError_bounds :
    (∃ t, exec .hide hideH = .next t ∧ firstMatch .fullWindow (blueBits 8 t.carrier 32) 32 ∧
      ({ small with maxTxt := 0 } : Params).maxTxt < (32 - 24) / 8 ∧ 32 ≤ small.maxBits) ∧
    ({ small with maxBits := 23 } : Params).maxBits < marked.carW.toNat * marked.carH.toNat ∧
    (∀ j, j ≤ 23 → ¬ firstMatch .fullWindow marker j) :=
  ⟨⟨_, rfl, firstMatch_hideH (by decide), by decide, by decide⟩, by decide, fun j hj hm => absurd (hm.1.trans hj) (by decide)⟩

theorem hideH_succeeds : ∃ t, exec .hide hideH = .next t ∧ t.errcode = 0 := ⟨_, rfl, rfl⟩

theorem hideH_fails : ∃ t, exec .hide { hideH with pwd := [] } = .next t ∧ t.errcode ≠ 0 := ⟨_, rfl, by decide⟩

theorem witness_HideIsTheDiscreteSequence :
    hideH.busy = false ∧ 8 * hideH.txt.length + 24 ≤ hideH.params.maxBits ∧ hideH.pwd.length ≤ hideH.params.maxPwd ∧
    (∃ t, exec .hide hideH = .next t ∧ t.errcode = 0) ∧
    (∃ t, exec .hide { hideH with pwd := [] } = .next t ∧ t.errcode ≠ 0) :=
  ⟨rfl, by decide, by decide, hideH_succeeds, hideH_fails⟩

theorem witness_RvelIsTheDiscreteSequence :
    marked.busy = false ∧ (∃ t, exec .rvel marked = .next t ∧ t.errcode = 0) ∧
      (∃ t, exec .rvel { marked with pwd := [] } = .next t ∧ t.errcode ≠ 0) :=
  ⟨rfl, ⟨_, rfl, rfl⟩, ⟨_, rfl, by decide⟩⟩

/-- With `hideH_cipher` and `hideH_succeeds`; the other direction, a cipher that contains the marker: V42-7. -/
theorem witness_HideThenRvelReturnsTheMessage :
    hideH.busy = false ∧ hideH.params.matchMin = .fullWindow ∧ hideH.txt.length ≤ hideH.params.maxTxt ∧
    (∃ t, exec .hide hideH = .next t ∧ t.errcode = 0) ∧ ¬ containsMarker (bs [0,0,1,0,0,0,1,1]) ∧
    applyKey (bitsOfBytes [0x6B, 0x6B, 0x68]) (bitsOfBytes [0x6B]) = .ok marker ∧ containsMarker marker :=
  ⟨rfl, rfl, by decide, hideH_succeeds, fun ⟨j, h⟩ => no_markerEndsAt_short (by decide) j h, by decide, 24, firstMatch_marker.2.1⟩

theorem witness_RvelWithAnotherPasswordStillSucceeds :
    hideH.busy = false ∧ hideH.params.matchMin = .fullWindow ∧ hideH.txt.length ≤ hideH.params.maxTxt ∧
    (∃ t, exec .hide hideH = .next t ∧ t.errcode = 0) ∧ ¬ containsMarker (bs [0,0,1,0,0,0,1,1]) ∧
    encodeText hideH.params.charset [0x77] = .ok (bs [0,1,1,1,0,1,1,1]) ∧ bs [0,1,1,1,0,1,1,1] ≠ [] ∧
    (bs [0,1,1,1,0,1,1,1]).length ≤ 8 * hideH.params.maxPwd :=
  ⟨rfl, rfl, by decide, hideH_succeeds, fun ⟨j, h⟩ => no_markerEndsAt_short (by decide) j h, by decide⟩

theorem witness_PathsReadNoWorkingBuffer : hideH.busy = false ∧ marked.busy = false ∧ (∃ t, exec .hide hideH = .next t) ∧ ∃ t, exec .rvel marked = .next t :=
  ⟨rfl, rfl, hideH_succeeds.imp fun _ h => h.1, ⟨_, rfl⟩⟩

theorem witness_ErrorsArePrecise : State.reset.busy = false ∧ marked.busy = false ∧
    (∃ t, exec .xork State.reset = .next t ∧ t.errcode ≠ 0) ∧ (∃ t, exec .extr State.reset = .next t ∧ t.errcode = 3) ∧
    (∃ t, exec .rvel { marked with pwd := [] } = .next t ∧ t.errcode ≠ 0 ∧ t.errcode ≠ 3) :=
  ⟨rfl, rfl, ⟨_, rfl, by decide⟩, ⟨_, rfl, rfl⟩, ⟨_, rfl, by decide, by decide⟩⟩

theorem witness_EachCommandReportsOnlyItsErrors : State.reset.busy = false ∧
    (∃ t, exec .enct State.reset = .next t ∧ t.errcode = 0) ∧
    (∃ t, exec .enck { State.reset with pwd := [0x100] } = .next t ∧ t.errcode = 4) ∧
    (∃ t, exec .xork State.reset = .next t ∧ t.errcode = 1) ∧
    (∃ t, exec .embd { State.reset with bits := [true] } = .next t ∧ t.errcode = 2) ∧
    (∃ t, exec .fprs State.reset = .next t ∧ t.errcode = 3) :=
  ⟨rfl, ⟨_, rfl, rfl⟩, ⟨_, rfl, rfl⟩, ⟨_, rfl, rfl⟩, ⟨_, rfl, rfl⟩, ⟨_, rfl, rfl⟩⟩

theorem witness_CommandsWriteOnlyTheirState : State.reset.busy = false ∧ ∀ i, ∃ t, exec i State.reset = .next t :=
  ⟨rfl, fun i => by cases i <;> exact ⟨_, rfl⟩⟩

theorem witness_StepKeepsTheParameters : ∃ t, step State.reset = .next t := ⟨_, rfl⟩

theorem witness_StepKeepsMemoryCanonical : marked.MemoryInv ∧
    ({ marked with bits := [true], prog := [.run 0 (.imm 7)] } : State).MemoryInv ∧
    ∃ t, step { marked with bits := [true], prog := [.run 0 (.imm 7)] } = .next t :=
  ⟨by unfold State.MemoryInv; decide, by unfold State.MemoryInv; decide, _, rfl⟩

theorem witness_StepKeepsErrcodeDefined : (host (.run 0 (.imm 4))).StatusInv ∧
    ∃ t, step (host (.run 0 (.imm 4))) = .next t := ⟨by unfold State.StatusInv; decide, _, rfl⟩

theorem witness_StepKeepsTheBufferBounds :
    ({ host (.wr 4 (.imm 32)) with params := small } : State).BufferInv ∧
    ∃ t, step { host (.wr 4 (.imm 32)) with params := small } = .next t :=
  ⟨⟨by decide, by decide, by decide, by decide, by decide, by decide, by decide⟩, _, rfl⟩

/-- A scan after its first pixel, and an embedding after its check, keep the engine's invariant and step. -/
theorem witness_StepKeepsTheEngineConsistent :
    let s : State := { accept .extr marked with raw := [false], pix := 1, win := 0, ncnt := 1 }
    let e : State := { accept .embd { marked with bits := [true] } with checked := true }
    s.EngineInv ∧ (∃ t, step s = .next t) ∧ e.EngineInv ∧ ∃ t, step e = .next t :=
  ⟨{ busy := rfl
     quiet := fun h => absurd (.inl rfl) h
     scanning := fun _ => .inl rfl
     scanState := fun _ => .inl rfl
     raw := fun _ => ⟨by decide, rfl, rfl, by decide⟩
     window := fun _ => ⟨rfl, by decide⟩
     embedding := fun h => by rcases h with h | h <;> cases h },
   ⟨_, rfl⟩,
   { busy := rfl
     quiet := fun _ h => absurd (.inl rfl) h
     scanning := fun h => by cases h
     scanState := fun h => by rcases h with h | h <;> cases h
     raw := fun h => by rcases h with h | h <;> cases h
     window := fun h => by rcases h with h | h <;> cases h
     embedding := fun _ => ⟨rfl, fun _ => rfl, fun _ => by decide⟩ },
   ⟨_, rfl⟩⟩

/-- A step that records a fault, one from a state that carries one, and one that records none. -/
theorem witness_FaultMarksAreKept :
    (∃ t, step (busyHost (.wr 0 (.imm 1))) = .next t) ∧ (busyHost (.wr 0 (.imm 1))).aboutTo (.wr 0 (.imm 1)) ∧
    (∃ t, step { State.reset with faults := [.hostHazard], sched := [.reset] } = .next t) ∧ ∃ t, step State.reset = .next t :=
  ⟨⟨_, rfl⟩, busyHost_aboutTo _, ⟨_, rfl⟩, _, rfl⟩

end Sys2Proof.Tests
end

section
/-! PROOFS of 00_scope.md R12, R13: no step changes the parameters, and every step keeps the bounds they put on the buffers. -/

namespace Sys2Proof.Machine

variable {s t : State}

/-! The parameters (R12). -/

/-- A scan's step leaves the parameters alone if its completion does. -/
theorem scanStep_params {found : State → Out} (hfound : found s = .next t → t.params = s.params)
    (h : scanStep found s = .next t) : t.params = s.params := by
  rcases scanStep_cases h with ⟨-, h⟩ | ⟨-, -, -, rfl⟩ | ⟨-, -, rfl⟩ | ⟨-, rfl⟩
  · exact hfound h
  all_goals rfl

theorem engineStep_params {i : Instr} (h : engineStep i s = .next t) : t.params = s.params := by
  cases i with
  | enct => rcases engineEnct_cases h with ⟨e, -, rfl⟩ | ⟨out, -, -, rfl⟩ <;> rfl
  | enck => rcases engineEnck_cases h with ⟨e, -, rfl⟩ | ⟨out, -, -, rfl⟩ <;> rfl
  | decb => rw [(engineDecb_cases h).2]; rfl
  | xork => rcases engineXork_cases h with ⟨e, -, rfl⟩ | ⟨out, -, rfl⟩ <;> rfl
  | fbld => rw [(engineFbld_cases h).2]; rfl
  | fprs => rcases engineFprs_cases h with ⟨e, -, rfl⟩ | ⟨out, -, rfl⟩ <;> rfl
  | embd => rcases engineEmbd_cases h with ⟨-, -, rfl⟩ | ⟨-, -, rfl⟩ | ⟨d, -, -, rfl⟩ | ⟨-, -, rfl⟩ <;> rfl
  | extr => exact scanStep_params (fun hf => by rw [finishExtr_eq hf]; rfl) h
  | hide =>
    rcases engineHide_cases h with ⟨-, hp⟩ | ⟨d, -, -, rfl⟩ | ⟨-, -, hf⟩
    · rcases prepareHide_cases hp with ⟨e, rfl⟩ | ⟨c, -, -, -, rfl⟩ <;> rfl
    · rfl
    · rcases finishHide_cases hf with ⟨e, -, rfl⟩ | ⟨k, -, -, rfl⟩ <;> rfl
  | rvel =>
    refine scanStep_params (fun hf => ?_) h
    rcases finishRvel_cases hf with ⟨e, rfl⟩ | ⟨c, k, p, -, -, -, -, -, rfl⟩ <;> rfl

theorem regWrite_params {n : Reg} {v : Word} (h : regWrite n v s = .next t) : t.params = s.params := by
  rcases regWrite_cases h with ⟨i, -, rfl⟩ | rfl | ⟨-, rfl⟩ | ⟨-, rfl⟩ | ⟨-, rfl⟩ | rfl | rfl | rfl | rfl | rfl | rfl
  · exact accept_params i s
  all_goals rfl

theorem step_params (h : step s = .next t) : t.params = s.params :=
  step_keeps (P := fun u => u.params = s.params)
    (hsched := fun _ hu => hu) (hreset := fun _ hu => hu)
    (heng := fun _ _ _ hu _ he => (engineStep_params he).trans hu)
    (hacc := fun i u _ hu => (accept_params i u).trans hu)
    (hvar := fun _ _ _ hu => hu) (hjump := fun _ _ hu => hu) (hhalt := fun _ hu => hu)
    (hreg := fun _ _ _ _ _ hu hw => (regWrite_params hw).trans hu)
    (hpix := fun _ _ _ _ hu => hu) (hhaz := fun _ hu => hu) rfl h

/-- Settles O54: every turn of either agent, and the reset input, leaves the parameters as they are. -/
theorem stepKeepsTheParameters : Obligations.StepKeepsTheParameters := fun _ _ h => step_params h

/-! The buffers: what each kind of update needs to keep their bounds (R13). -/

theorem State.BufferInv.with_txt {l : List Code} (h : s.BufferInv) (hl : l.length ≤ s.params.maxTxt) :
    State.BufferInv { s with txt := l } := { h with txt := hl }

theorem State.BufferInv.with_pwd {l : List Code} (h : s.BufferInv) (hl : l.length ≤ s.params.maxPwd) :
    State.BufferInv { s with pwd := l } := { h with pwd := hl }

theorem State.BufferInv.with_bits {bs : Bits} (h : s.BufferInv) (hl : bs.length ≤ s.params.maxBits) :
    State.BufferInv { s with bits := bs } := { h with bits := hl }

/-- An encoded text is whole bytes, so as `KEYB` it needs the bound alone (R24). -/
theorem State.BufferInv.with_keyb {cs : Charset} {pwd : List Code} {k : Bits} (h : s.BufferInv)
    (hk : encodeText cs pwd = .ok k) (hl : k.length ≤ 8 * s.params.maxPwd) : State.BufferInv { s with keyb := k } :=
  { h with
    keyb := hl
    keybBytes := by
      have hbytes := encodeText_length hk
      change k.length % 8 = 0
      omega }

theorem State.BufferInv.finish (h : s.BufferInv) (code : BitVec 3) : (s.finish code).BufferInv :=
  { h with raw := Nat.zero_le _, frm := Nat.zero_le _ }

theorem State.BufferInv.raise (h : s.BufferInv) (e : CmdError) : (s.raise e).BufferInv := h.finish e.code

theorem State.BufferInv.complete (h : s.BufferInv) : s.complete.BufferInv := h.finish 0

theorem State.BufferInv.scanBits (h : s.BufferInv) : s.scanBits.BufferInv := { h with }

theorem State.BufferInv.embedPixel (h : s.BufferInv) (d : Bit) : (s.embedPixel d).BufferInv := { h with }

theorem State.BufferInv.readPixel (h : s.BufferInv) (hl : s.raw.length + 1 ≤ s.params.maxBits) :
    s.readPixel.BufferInv :=
  { h with raw := by simpa using hl }

/-- EMBD takes `BITS` as its frame and a scan empties `RAW`; no other acceptance touches a buffer (R252). -/
theorem State.BufferInv.accept (h : s.BufferInv) (i : Instr) : (accept i s).BufferInv := by
  cases i with
  | embd => exact { h with frm := h.bits }
  | extr | rvel => exact { h with raw := Nat.zero_le _ }
  | enct | enck | decb | xork | fbld | fprs | hide => exact { h with }

theorem State.BufferInv.resetBlock (s : State) : s.resetBlock.BufferInv where
  txt := Nat.zero_le _
  pwd := Nat.zero_le _
  bits := Nat.zero_le _
  keyb := Nat.zero_le _
  keybBytes := rfl
  raw := Nat.zero_le _
  frm := Nat.zero_le _

/-- What stands before the marker is no longer than what was parsed (R160). -/
theorem parse_length_le {m : MatchMin} {raw c : Bits} (h : parse m raw = .ok c) : c.length ≤ raw.length := by
  unfold parse at h
  split at h
  · cases h
    exact List.length_take_le' _ _
  · cases h

/-! The buffers: the engine's steps. -/

/-- A scan's step keeps the bounds if its completion does: a pixel step is refused before `RAW` passes its bound (I1). -/
theorem State.BufferInv.of_scanStep {found : State → Out} (hs : s.BufferInv) (hfound : found s = .next t → t.BufferInv)
    (h : scanStep found s = .next t) : t.BufferInv := by
  rcases scanStep_cases h with ⟨-, h⟩ | ⟨-, -, hl, rfl⟩ | ⟨-, -, rfl⟩ | ⟨-, rfl⟩
  · exact hfound h
  · exact hs.readPixel hl
  · have hx : State.BufferInv { s with xst := .exhausted } := { hs with }
    exact hx.raise _
  · exact hs

theorem State.BufferInv.of_engineEmbd (hs : s.BufferInv) (h : engineEmbd s = .next t) : t.BufferInv := by
  rcases engineEmbd_cases h with ⟨-, -, rfl⟩ | ⟨-, -, rfl⟩ | ⟨d, -, -, rfl⟩ | ⟨-, -, rfl⟩
  · exact hs.raise _
  · exact { hs with }
  · exact hs.embedPixel d
  · exact hs.complete

/-- HIDE's frame is within its bound from the preparation on, and becomes `BITS` at the completion (R230). -/
theorem State.BufferInv.of_engineHide (hs : s.BufferInv) (h : engineHide s = .next t) : t.BufferInv := by
  rcases engineHide_cases h with ⟨-, hp⟩ | ⟨d, -, -, rfl⟩ | ⟨-, -, hf⟩
  · rcases prepareHide_cases hp with ⟨e, rfl⟩ | ⟨c, -, hl, -, rfl⟩
    · exact hs.raise e
    · exact { hs with frm := hl }
  · exact hs.embedPixel d
  · rcases finishHide_cases hf with ⟨e, -, rfl⟩ | ⟨k, hk, hl, rfl⟩
    · exact hs.raise e
    · exact ((hs.with_bits hs.frm).with_keyb hk hl).complete

/-- RVEL's payload is no longer than `RAW`, as parsing cuts it short and the cipher keeps its length (R240). -/
theorem State.BufferInv.of_finishRvel (hs : s.BufferInv) (h : finishRvel s = .next t) : t.BufferInv := by
  rcases finishRvel_cases h with ⟨e, rfl⟩ | ⟨c, k, p, hc, hk, hp, htxt, hkeyb, rfl⟩
  · exact hs.raise e
  · have hbits : p.length ≤ s.params.maxBits :=
      calc p.length = c.length := applyKey_length hp
        _ ≤ s.raw.length := parse_length_le hc
        _ ≤ s.params.maxBits := hs.raw
    exact (((hs.with_txt htxt).with_bits hbits).with_keyb hk hkeyb).complete

theorem State.BufferInv.of_engineStep {i : Instr} (hs : s.BufferInv) (h : engineStep i s = .next t) : t.BufferInv := by
  cases i with
  | enct =>
    rcases engineEnct_cases h with ⟨e, -, rfl⟩ | ⟨out, -, hl, rfl⟩
    exacts [hs.raise e, (hs.with_bits hl).complete]
  | enck =>
    rcases engineEnck_cases h with ⟨e, -, rfl⟩ | ⟨out, hk, hl, rfl⟩
    exacts [hs.raise e, (hs.with_keyb hk hl).complete]
  | decb =>
    obtain ⟨hl, rfl⟩ := engineDecb_cases h
    exact (hs.with_txt hl).complete
  | xork =>
    rcases engineXork_cases h with ⟨e, -, rfl⟩ | ⟨out, ho, rfl⟩
    exacts [hs.raise e, (hs.with_bits ((applyKey_length ho).trans_le hs.bits)).complete]
  | fbld =>
    obtain ⟨hl, rfl⟩ := engineFbld_cases h
    exact (hs.with_bits hl).complete
  | fprs =>
    rcases engineFprs_cases h with ⟨e, -, rfl⟩ | ⟨out, ho, rfl⟩
    exacts [hs.scanBits.raise e, (hs.scanBits.with_bits ((parse_length_le ho).trans hs.bits)).complete]
  | embd => exact hs.of_engineEmbd h
  | extr => exact hs.of_scanStep (fun hf => finishExtr_eq hf ▸ (hs.with_bits hs.raw).complete) h
  | hide => exact hs.of_engineHide h
  | rvel => exact hs.of_scanStep hs.of_finishRvel h

/-! The buffers: the host's register writes, and every step. -/

/-- A length write is refused beyond the bound, and an element write keeps the length (R32, R35). -/
theorem State.BufferInv.of_regWrite {n : Reg} {v : Word} (hs : s.BufferInv) (h : regWrite n v s = .next t) :
    t.BufferInv := by
  rcases regWrite_cases h with ⟨i, -, rfl⟩ | rfl | ⟨hl, rfl⟩ | ⟨hl, rfl⟩ | ⟨hl, rfl⟩ | rfl | rfl | rfl | rfl | rfl | rfl
  · exact hs.accept i
  · exact hs
  · exact hs.with_txt ((resize_getElem 0 _ s.txt).1.trans_le hl)
  · exact hs.with_pwd ((resize_getElem 0 _ s.pwd).1.trans_le hl)
  · exact hs.with_bits ((resize_getElem false _ s.bits).1.trans_le hl)
  · exact { hs with }
  · exact { hs with }
  · exact { hs with }
  · exact hs.with_txt (List.length_set.trans_le hs.txt)
  · exact hs.with_pwd (List.length_set.trans_le hs.pwd)
  · exact hs.with_bits (List.length_set.trans_le hs.bits)

theorem State.BufferInv.of_step (hs : s.BufferInv) (h : step s = .next t) : t.BufferInv :=
  step_keeps (P := State.BufferInv)
    (hsched := fun _ hu => { hu with }) (hreset := fun u _ => .resetBlock u)
    (heng := fun _ _ _ hu _ he => hu.of_engineStep he) (hacc := fun i _ _ hu => hu.accept i)
    (hvar := fun _ _ _ hu => { hu with }) (hjump := fun _ _ hu => { hu with }) (hhalt := fun _ hu => { hu with })
    (hreg := fun _ _ _ _ _ hu hw => hu.of_regWrite hw)
    (hpix := fun _ _ _ _ hu => { hu with }) (hhaz := fun _ hu => { hu with }) hs h

/-- Settles O57: each update of a buffer keeps the bounds, so each engine step and register write does, and so every step. -/
theorem stepKeepsTheBufferBounds : Obligations.StepKeepsTheBufferBounds := fun _ _ hs h => hs.of_step h

end Sys2Proof.Machine
end

section
/-! PROOFS of 10_state.md R20 to R45: the engine's hidden state, the error code, the host's register writes, what a command leaves
alone, the status word and the state after reset. -/

namespace Sys2Proof.Machine

variable {s t : State}

/-! The engine's moves, in the terms of the invariants. -/

/-- All that an engine step of the command in progress can do, whatever the command: complete it, or one of the steps of a pixel
command (R182, R202, R322). -/
inductive State.EngineMove (s : State) : State → Prop where
  /-- The completion, with code 0 or an error's; a scan that completes so has matched. -/
  | finish {u : State} {code : BitVec 3} (hcode : code.toNat ≤ 4) (hxst : u.xst = s.xst) (hfound : s.isScan → s.xst = .found) :
    s.EngineMove (u.finish code)
  /-- The failing completion of a scan that has read every pixel. -/
  | exhaust : s.EngineMove ({ s with xst := .exhausted }.raise .markerNotFound)
  /-- The check of an embedding, with the frame it is to write. -/
  | check {f : Bits} (hi : s.isEmbedding) (hc : s.checked = false) (hf : f.length ≤ s.capacity) :
    s.EngineMove { s with frm := f, checked := true }
  /-- A pixel step of an embedding. -/
  | embed {d : Bit} (hi : s.isEmbedding) (hc : s.checked = true) (hd : s.frm[s.pix]? = some d) : s.EngineMove (s.embedPixel d)
  /-- A pixel step of a scan. -/
  | read (hi : s.isScan) (hx : s.xst = .scanning) (hp : s.pix < s.capacity) : s.EngineMove s.readPixel
  /-- No step (log 12). -/
  | stall : s.EngineMove s

theorem CmdError.code_le (e : CmdError) : e.code.toNat ≤ 4 := by cases e <;> decide

theorem State.EngineMove.raise {u : State} (hxst : u.xst = s.xst) (hfound : s.isScan → s.xst = .found) (e : CmdError) :
    s.EngineMove (u.raise e) := .finish e.code_le hxst hfound

theorem State.EngineMove.complete {u : State} (hxst : u.xst = s.xst) (hfound : s.isScan → s.xst = .found) :
    s.EngineMove u.complete := .finish (Nat.zero_le 4) hxst hfound

theorem State.not_isScan_of_pend {i : Instr} (hp : s.pend = some i) (h1 : i ≠ .extr) (h2 : i ≠ .rvel) : ¬ s.isScan := by
  simp [State.isScan, hp, h1, h2]

/-- Of a command that is no scan, a completion asks for no match. -/
theorem State.found_of_not_scan {i : Instr} (hp : s.pend = some i) (h1 : i ≠ .extr) (h2 : i ≠ .rvel) :
    s.isScan → s.xst = .found := fun h => absurd h (State.not_isScan_of_pend hp h1 h2)

theorem engineEmbd_move (hi : s.isEmbedding) (hq : s.isScan → s.xst = .found) (h : engineEmbd s = .next t) :
    s.EngineMove t := by
  rcases engineEmbd_cases h with ⟨-, -, rfl⟩ | ⟨hc, hl, rfl⟩ | ⟨d, hc, hd, rfl⟩ | ⟨-, -, rfl⟩
  · exact .raise rfl hq _
  · exact .check hi hc hl
  · exact .embed hi hc hd
  · exact .complete rfl hq

theorem engineHide_move (hi : s.isEmbedding) (hq : s.isScan → s.xst = .found) (h : engineHide s = .next t) :
    s.EngineMove t := by
  rcases engineHide_cases h with ⟨hc, hp⟩ | ⟨d, hc, hd, rfl⟩ | ⟨-, -, hf⟩
  · rcases prepareHide_cases hp with ⟨e, rfl⟩ | ⟨c, -, -, hl, rfl⟩
    exacts [.raise rfl hq e, .check hi hc hl]
  · exact .embed hi hc hd
  · rcases finishHide_cases hf with ⟨e, -, rfl⟩ | ⟨k, -, -, rfl⟩
    exacts [.raise rfl hq e, .complete rfl hq]

/-- A scan's step is a move of the engine if its completion after a match is. -/
theorem scanStep_move {found : State → Out} (hi : s.isScan)
    (hfound : s.xst = .found → found s = .next t → s.EngineMove t) (h : scanStep found s = .next t) : s.EngineMove t := by
  rcases scanStep_cases h with ⟨hx, h⟩ | ⟨hx, hp, -, rfl⟩ | ⟨-, -, rfl⟩ | ⟨-, rfl⟩
  · exact hfound hx h
  · exact .read hi hx hp
  · exact .exhaust
  · exact .stall

/-- Every engine step of the command in progress is one of the engine's moves. -/
theorem engineStep_move {i : Instr} (hp : s.pend = some i) (h : engineStep i s = .next t) : s.EngineMove t := by
  cases i with
  | enct =>
    have hq := State.found_of_not_scan hp nofun nofun
    rcases engineEnct_cases h with ⟨e, -, rfl⟩ | ⟨out, -, -, rfl⟩
    exacts [.raise rfl hq e, .complete rfl hq]
  | enck =>
    have hq := State.found_of_not_scan hp nofun nofun
    rcases engineEnck_cases h with ⟨e, -, rfl⟩ | ⟨out, -, -, rfl⟩
    exacts [.raise rfl hq e, .complete rfl hq]
  | decb =>
    obtain ⟨-, rfl⟩ := engineDecb_cases h
    exact .complete rfl (State.found_of_not_scan hp nofun nofun)
  | xork =>
    have hq := State.found_of_not_scan hp nofun nofun
    rcases engineXork_cases h with ⟨e, -, rfl⟩ | ⟨out, -, rfl⟩
    exacts [.raise rfl hq e, .complete rfl hq]
  | fbld =>
    obtain ⟨-, rfl⟩ := engineFbld_cases h
    exact .complete rfl (State.found_of_not_scan hp nofun nofun)
  | fprs =>
    have hq := State.found_of_not_scan hp nofun nofun
    rcases engineFprs_cases h with ⟨e, -, rfl⟩ | ⟨out, -, rfl⟩
    exacts [.raise (State.scanBits_xst s) hq e, .complete rfl hq]
  | embd => exact engineEmbd_move (.inl hp) (State.found_of_not_scan hp nofun nofun) h
  | hide => exact engineHide_move (.inr hp) (State.found_of_not_scan hp nofun nofun) h
  | extr => exact scanStep_move (.inl hp) (fun hx hf => finishExtr_eq hf ▸ .complete rfl fun _ => hx) h
  | rvel =>
    refine scanStep_move (.inr hp) (fun hx hf => ?_) h
    rcases finishRvel_cases hf with ⟨e, rfl⟩ | ⟨c, k, p, -, -, -, -, -, rfl⟩
    exacts [.raise rfl (fun _ => hx) e, .complete rfl fun _ => hx]

/-! The engine's hidden state: the idle engine, whose carrier the host may resize and write. -/

/-- No command in progress, nothing left of the last one, and no scan shown as running. -/
structure State.IdleEngine (s : State) : Prop where
  busy : s.busy = false
  pend : s.pend = none
  raw : s.raw = []
  frm : s.frm = []
  pix : s.pix = 0
  checked : s.checked = false
  xst : s.xst ≠ .scanning

theorem State.not_isScan (hp : s.pend = none) : ¬ s.isScan := by simp [State.isScan, hp]

theorem State.not_isEmbedding (hp : s.pend = none) : ¬ s.isEmbedding := by simp [State.isEmbedding, hp]

theorem State.isEmbedding.not_isScan (h : s.isEmbedding) : ¬ s.isScan := by
  rcases h with h | h <;> simp [State.isScan, h]

theorem State.IdleEngine.engineInv (h : s.IdleEngine) : s.EngineInv where
  busy := by simp [h.busy, h.pend]
  quiet _ _ := ⟨h.raw, h.frm, h.pix, h.checked⟩
  scanning hx := absurd hx h.xst
  scanState hi := absurd hi (State.not_isScan h.pend)
  raw hi := absurd hi (State.not_isScan h.pend)
  window hi := absurd hi (State.not_isScan h.pend)
  embedding hi := absurd hi (State.not_isEmbedding h.pend)

theorem State.EngineInv.idleEngine (hs : s.EngineInv) (hb : s.busy = false) : s.IdleEngine := by
  have hp : s.pend = none := by simpa [hb] using hs.busy
  obtain ⟨hraw, hfrm, hpix, hc⟩ := hs.quiet (State.not_isScan hp) (State.not_isEmbedding hp)
  exact ⟨hb, hp, hraw, hfrm, hpix, hc, fun hx => State.not_isScan hp (hs.scanning hx)⟩

/-- A completion leaves the engine idle (R281, R282) if `XST` shows no running scan. -/
theorem State.finish_idleEngine (hx : s.xst ≠ .scanning) (code : BitVec 3) : (s.finish code).IdleEngine :=
  ⟨rfl, rfl, rfl, rfl, rfl, rfl, hx⟩

theorem State.resetBlock_idleEngine (s : State) : s.resetBlock.IdleEngine := ⟨rfl, rfl, rfl, rfl, rfl, rfl, nofun⟩

/-! The engine's hidden state: a command in progress. -/

/-- The start of a scan: no pixel visited, the detector at its start, `XST` SCANNING (R202, R240). -/
theorem State.EngineInv.of_scanStart (hi : s.isScan) (hb : s.busy = true) (hx : s.xst = .scanning) (hp : s.pix = 0)
    (hr : s.raw = []) (hf : s.frm = []) (hc : s.checked = false) (hd : s.detector = Detector.start) : s.EngineInv where
  busy := by rcases hi with hi | hi <;> simp [hb, hi]
  quiet h := absurd hi h
  scanning _ := hi
  scanState _ := .inl hx
  raw _ := ⟨hp ▸ Nat.zero_le _, hf, hc, by rw [hr, hp]; rfl⟩
  window _ := by
    have hn : s.ncnt = 0 := congrArg Detector.ncnt hd
    simp [hr, hn, hd, hx, scan]
  embedding h := absurd hi h.not_isScan

/-- The start of an embedding: its frame, if it has one yet, is still to be checked (R182, R230). -/
theorem State.EngineInv.of_embeddingStart (hi : s.isEmbedding) (hb : s.busy = true) (hx : s.xst ≠ .scanning) (hp : s.pix = 0)
    (hr : s.raw = []) (hc : s.checked = false) : s.EngineInv where
  busy := by rcases hi with hi | hi <;> simp [hb, hi]
  quiet _ h := absurd hi h
  scanning h := absurd h hx
  scanState h := absurd h hi.not_isScan
  raw h := absurd h hi.not_isScan
  window h := absurd h hi.not_isScan
  embedding _ := ⟨hr, fun _ => hp, fun h => by simp [hc] at h⟩

/-- Of a command that touches no pixel, acceptance changes `PEND` and `BUSY` alone (R252). -/
theorem State.IdleEngine.begin {i : Instr} (h : s.IdleEngine) (hscan : ¬ (s.begin i).isScan)
    (hembed : ¬ (s.begin i).isEmbedding) : (s.begin i).EngineInv where
  busy := rfl
  quiet _ _ := ⟨h.raw, h.frm, h.pix, rfl⟩
  scanning hx := absurd hx h.xst
  scanState hi := absurd hi hscan
  raw hi := absurd hi hscan
  window hi := absurd hi hscan
  embedding hi := absurd hi hembed

theorem State.IdleEngine.accept (h : s.IdleEngine) (i : Instr) : (accept i s).EngineInv := by
  cases i with
  | enct | enck | decb | xork | fbld | fprs =>
    exact h.begin (by simp [State.isScan]) (by simp [State.isEmbedding])
  | embd => exact .of_embeddingStart (.inl rfl) rfl h.xst rfl h.raw rfl
  | hide => exact .of_embeddingStart (.inr rfl) rfl h.xst rfl h.raw rfl
  | extr => exact .of_scanStart (.inl rfl) rfl rfl rfl rfl h.frm rfl rfl
  | rvel => exact .of_scanStart (.inr rfl) rfl rfl rfl rfl h.frm rfl rfl

/-- The check of an embedding comes before its first pixel and finds the frame within the capacity (R182). -/
theorem State.EngineInv.check {f : Bits} (hs : s.EngineInv) (hi : s.isEmbedding) (hc : s.checked = false)
    (hf : f.length ≤ s.capacity) : State.EngineInv { s with frm := f, checked := true } := by
  obtain ⟨hraw, hpix, -⟩ := hs.embedding hi
  exact
    { hs with
      quiet := fun _ h => absurd hi h
      raw := fun h => absurd h hi.not_isScan
      embedding := fun _ => ⟨hraw, nofun, fun _ => ⟨hf, (hpix hc).trans_le (Nat.zero_le _)⟩⟩ }

/-- An embedding's pixel step carries a bit of its frame, so the next place is still within the frame (R182). -/
theorem State.EngineInv.embedPixel {d : Bit} (hs : s.EngineInv) (hi : s.isEmbedding) (hc : s.checked = true)
    (hd : s.frm[s.pix]? = some d) : (s.embedPixel d).EngineInv := by
  obtain ⟨hraw, -, hfrm⟩ := hs.embedding hi
  have hlt : s.pix < s.frm.length := (List.getElem?_eq_some_iff.1 hd).1
  exact
    { hs with
      quiet := fun _ h => absurd hi h
      raw := fun h => absurd h hi.not_isScan
      window := fun h => absurd h hi.not_isScan
      embedding := fun _ => ⟨hraw, fun h => absurd hc (by simpa using h), fun _ => ⟨(hfrm hc).1, hlt⟩⟩ }

/-- A scan's pixel step appends the next blue LSB to `RAW` and scans it (R202, `readPixel_eq`). -/
theorem State.EngineInv.readPixel (hs : s.EngineInv) (hi : s.isScan) (hx : s.xst = .scanning) (hp : s.pix < s.capacity) :
    s.readPixel.EngineInv := by
  obtain ⟨-, hfrm, hc, hraw⟩ := hs.raw hi
  obtain ⟨hn, hscan⟩ := hs.window hi
  obtain ⟨hraw', hscan'⟩ := readPixel_eq hx hraw (hscan.trans (by rw [hx]; rfl))
  exact
    { hs with
      quiet := fun h => absurd hi h
      scanning := fun _ => hi
      scanState := fun _ => by rw [State.readPixel_xst, hx]; split <;> simp
      raw := fun _ => ⟨hp, hfrm, hc, hraw'⟩
      window := fun _ => ⟨by simp [State.readPixel, Detector.scanBit, State.detector, hn], hscan'⟩
      embedding := fun h => absurd hi h.not_isScan }

/-- While no scan runs, or the one that runs has matched, `XST` is not SCANNING (R203). -/
theorem State.EngineInv.not_scanning (hs : s.EngineInv) (hfound : s.isScan → s.xst = .found) : s.xst ≠ .scanning :=
  fun hx => nomatch hx.symm.trans (hfound (hs.scanning hx))

theorem State.EngineInv.of_move (hs : s.EngineInv) (h : s.EngineMove t) : t.EngineInv := by
  cases h with
  | finish _ hxst hfound => exact (State.finish_idleEngine (hxst ▸ hs.not_scanning hfound) _).engineInv
  | exhaust => exact (State.finish_idleEngine (by simp) _).engineInv
  | check hi hc hf => exact hs.check hi hc hf
  | embed hi hc hd => exact hs.embedPixel hi hc hd
  | read hi hx hp => exact hs.readPixel hi hx hp
  | stall => exact hs

/-- A register write meets an idle engine, and leaves it idle but for the acceptance of a command (R251, R252). -/
theorem State.IdleEngine.of_regWrite {n : Reg} {v : Word} (hs : s.IdleEngine) (h : regWrite n v s = .next t) :
    t.EngineInv := by
  rcases regWrite_cases h with ⟨i, -, rfl⟩ | rfl | ⟨-, rfl⟩ | ⟨-, rfl⟩ | ⟨-, rfl⟩ | rfl | rfl | rfl | rfl | rfl | rfl
  · exact hs.accept i
  · exact hs.engineInv
  all_goals exact State.IdleEngine.engineInv { hs with }

theorem State.EngineInv.of_step (hs : s.EngineInv) (h : step s = .next t) : t.EngineInv :=
  step_keeps (P := State.EngineInv)
    (hsched := fun _ hu => { hu with }) (hreset := fun u _ => u.resetBlock_idleEngine.engineInv)
    (heng := fun _ _ _ hu hp he => hu.of_move (engineStep_move hp he))
    (hacc := fun i _ hb hu => (hu.idleEngine hb).accept i)
    (hvar := fun _ _ _ hu => { hu with }) (hjump := fun _ _ hu => { hu with }) (hhalt := fun _ hu => { hu with })
    (hreg := fun _ _ _ _ hb hu hw => (hu.idleEngine hb).of_regWrite hw)
    (hpix := fun _ _ _ hb hu => State.IdleEngine.engineInv { hu.idleEngine hb with })
    (hhaz := fun _ hu => { hu with }) hs h

/-- Settles O58: every move of the engine keeps its hidden state consistent, and every other part of a step either finds the
engine idle or leaves that state alone. -/
theorem stepKeepsTheEngineConsistent : Obligations.StepKeepsTheEngineConsistent := fun _ _ hs h => hs.of_step h

/-! `ERRCODE` (R30). -/

/-- Only a completion writes `ERRCODE`, with 0 or the code of an error (R281, R282). -/
theorem State.StatusInv.of_move (hs : s.StatusInv) (h : s.EngineMove t) : t.StatusInv := by
  cases h with
  | finish hcode => exact hcode
  | exhaust => exact CmdError.code_le _
  | check | embed | read | stall => exact hs

theorem State.StatusInv.accept (hs : s.StatusInv) (i : Instr) : (accept i s).StatusInv :=
  (congrArg BitVec.toNat (accept_errcode i s)).trans_le hs

/-- No register write touches `ERRCODE`, an acceptance included (R252). -/
theorem State.StatusInv.of_regWrite {n : Reg} {v : Word} (hs : s.StatusInv) (h : regWrite n v s = .next t) :
    t.StatusInv := by
  rcases regWrite_cases h with ⟨i, -, rfl⟩ | rfl | ⟨-, rfl⟩ | ⟨-, rfl⟩ | ⟨-, rfl⟩ | rfl | rfl | rfl | rfl | rfl | rfl
  · exact hs.accept i
  all_goals exact hs

theorem State.StatusInv.of_step (hs : s.StatusInv) (h : step s = .next t) : t.StatusInv :=
  step_keeps (P := State.StatusInv)
    (hsched := fun _ hu => hu) (hreset := fun _ _ => Nat.zero_le 4)
    (heng := fun _ _ _ hu hp he => hu.of_move (engineStep_move hp he)) (hacc := fun i _ _ hu => hu.accept i)
    (hvar := fun _ _ _ hu => hu) (hjump := fun _ _ hu => hu) (hhalt := fun _ hu => hu)
    (hreg := fun _ _ _ _ _ hu hw => hu.of_regWrite hw)
    (hpix := fun _ _ _ _ hu => hu) (hhaz := fun _ hu => hu) hs h

/-- Settles O56: `ERRCODE` changes at a completion and at reset alone, to 0 or to the code of one of the four errors. -/
theorem stepKeepsErrcodeDefined : Obligations.StepKeepsErrcodeDefined := fun _ _ hs h => hs.of_step h

/-! The host's register writes (R32, R35, R251). -/

/-- A step of a host about to write a register of the idle block is that write, then the next statement. -/
theorem step_write {n : Reg} {v : Arg} (hb : s.busy = false) (h : s.aboutTo (.wr n v)) :
    step s = thenAdvance (regWrite n (s.arg v) s.turnTaken) := by
  simp [step_stmt h, hostStmt, hostWrite, hb]

theorem step_write_next {n : Reg} {v : Arg} {u : State} (hb : s.busy = false) (h : s.aboutTo (.wr n v))
    (hw : regWrite n (s.arg v) s.turnTaken = .next u) : step s = .next u.advance := by
  rw [step_write hb h, hw]; rfl

theorem step_write_refused {n : Reg} {v : Arg} {r : Refusal} (hb : s.busy = false) (h : s.aboutTo (.wr n v))
    (hw : regWrite n (s.arg v) s.turnTaken = .refused r) : step s = .refused r := by
  rw [step_write hb h, hw]; rfl

/-- Settles O12: a length write within its bound is the buffer resized, and one beyond it is refused. -/
theorem lengthWritesResizeTheBuffers : Obligations.LengthWritesResizeTheBuffers := by
  intro s v hb
  refine ⟨fun h => ⟨fun hl => ?_, fun hl => ?_⟩, fun h => ⟨fun hl => ?_, fun hl => ?_⟩,
    fun h => ⟨fun hl => ?_, fun hl => ?_⟩⟩
  · exact ⟨resize 0 (s.arg v).toNat s.txt, step_write_next hb h (within_of_le hl _ _), resize_getElem _ _ _⟩
  · exact step_write_refused hb h (within_of_lt hl _ _)
  · exact ⟨resize 0 (s.arg v).toNat s.pwd, step_write_next hb h (within_of_le hl _ _), resize_getElem _ _ _⟩
  · exact step_write_refused hb h (within_of_lt hl _ _)
  · exact ⟨resize false (s.arg v).toNat s.bits, step_write_next hb h (within_of_le hl _ _), resize_getElem _ _ _⟩
  · exact step_write_refused hb h (within_of_lt hl _ _)

/-- Each element of a buffer after a write through its window (R35). -/
theorem window_getElem? {α : Type} (l : List α) (i : Nat) (v : α) (j : Nat) :
    (l.set i v)[j]? = if j = i ∧ j < l.length then some v else l[j]? := by
  rw [List.getElem?_set]
  by_cases hij : i = j
  · subst hij
    by_cases hl : i < l.length <;> simp [hl]
  · simp [hij, Ne.symm hij]

/-- Settles O13: a window write is `List.set` at `IDX`. -/
theorem windowWritesSetOneElement : Obligations.WindowWritesSetOneElement := fun s v hb =>
  ⟨fun h => ⟨s.txt.set s.idx.toNat (s.arg v), step_write_next hb h rfl, List.length_set, window_getElem? _ _ _⟩,
   fun h => ⟨s.pwd.set s.idx.toNat (s.arg v), step_write_next hb h rfl, List.length_set, window_getElem? _ _ _⟩,
   fun h => ⟨s.bits.set s.idx.toNat ((s.arg v).getLsbD 0), step_write_next hb h rfl, List.length_set,
     window_getElem? _ _ _⟩⟩

/-! What a command leaves alone (R22, R24, R31, R34, R56, R78). -/

/-- From `s` to `t` command `i` has written only state that it may write. Each field's own proof is by the `simp` lemmas of the
state's updates, so that `{}` proves it of any one update that respects it. -/
structure WritesOnlyItsState (i : Instr) (s t : State) : Prop where
  pwd : t.pwd = s.pwd := by simp
  idx : t.idx = s.idx := by simp
  carW : t.carW = s.carW := by simp
  carH : t.carH = s.carH := by simp
  params : t.params = s.params := by simp
  prog : t.prog = s.prog := by simp
  hpc : t.hpc = s.hpc := by simp
  vars : t.vars = s.vars := by simp
  halted : t.halted = s.halted := by simp
  sched : t.sched = s.sched := by simp
  faults : t.faults = s.faults := by simp
  carrier : i ≠ .embd → i ≠ .hide → t.carrier = s.carrier := by simp
  xst : i ≠ .extr → i ≠ .rvel → t.xst = s.xst := by simp
  keyb : i ≠ .enck → i ≠ .hide → i ≠ .rvel → t.keyb = s.keyb := by simp
  txt : i ≠ .decb → i ≠ .rvel → t.txt = s.txt := by simp
  bits : i = .enck ∨ i = .decb ∨ i = .embd → t.bits = s.bits := by simp
  detector : i ≠ .fprs → i ≠ .extr → i ≠ .rvel → t.win = s.win ∧ t.ncnt = s.ncnt := by simp

theorem WritesOnlyItsState.trans {i : Instr} {u : State} (h : WritesOnlyItsState i s t) (h' : WritesOnlyItsState i t u) :
    WritesOnlyItsState i s u where
  pwd := h'.pwd.trans h.pwd
  idx := h'.idx.trans h.idx
  carW := h'.carW.trans h.carW
  carH := h'.carH.trans h.carH
  params := h'.params.trans h.params
  prog := h'.prog.trans h.prog
  hpc := h'.hpc.trans h.hpc
  vars := h'.vars.trans h.vars
  halted := h'.halted.trans h.halted
  sched := h'.sched.trans h.sched
  faults := h'.faults.trans h.faults
  carrier h1 h2 := (h'.carrier h1 h2).trans (h.carrier h1 h2)
  xst h1 h2 := (h'.xst h1 h2).trans (h.xst h1 h2)
  keyb h1 h2 h3 := (h'.keyb h1 h2 h3).trans (h.keyb h1 h2 h3)
  txt h1 h2 := (h'.txt h1 h2).trans (h.txt h1 h2)
  bits h1 := (h'.bits h1).trans (h.bits h1)
  detector h1 h2 h3 :=
    have ⟨hwin, hncnt⟩ := h.detector h1 h2 h3
    have ⟨hwin', hncnt'⟩ := h'.detector h1 h2 h3
    ⟨hwin'.trans hwin, hncnt'.trans hncnt⟩

/-- Acceptance sets `XST` and the detector for a scan alone (R252). -/
theorem accept_of_not_scan {i : Instr} (h1 : i ≠ .extr) (h2 : i ≠ .rvel) (s : State) :
    (accept i s).xst = s.xst ∧ (accept i s).win = s.win ∧ (accept i s).ncnt = s.ncnt := by
  cases i with
  | extr => exact absurd rfl h1
  | rvel => exact absurd rfl h2
  | enct | enck | decb | xork | fbld | fprs | embd | hide => exact ⟨rfl, rfl, rfl⟩

theorem accept_writesOnlyItsState (i : Instr) (s : State) : WritesOnlyItsState i s (accept i s) where
  xst h1 h2 := (accept_of_not_scan h1 h2 s).1
  detector _ h1 h2 := (accept_of_not_scan h1 h2 s).2

theorem scanStep_writesOnlyItsState {i : Instr} {found : State → Out} (hi : i = .extr ∨ i = .rvel)
    (hfound : found s = .next t → WritesOnlyItsState i s t) (h : scanStep found s = .next t) : WritesOnlyItsState i s t := by
  rcases scanStep_cases h with ⟨-, h⟩ | ⟨-, -, -, rfl⟩ | ⟨-, -, rfl⟩ | ⟨-, rfl⟩
  · exact hfound h
  all_goals rcases hi with rfl | rfl <;> exact {}

theorem engineStep_writesOnlyItsState {i : Instr} (h : engineStep i s = .next t) : WritesOnlyItsState i s t := by
  cases i with
  | enct => rcases engineEnct_cases h with ⟨e, -, rfl⟩ | ⟨out, -, -, rfl⟩ <;> exact {}
  | enck => rcases engineEnck_cases h with ⟨e, -, rfl⟩ | ⟨out, -, -, rfl⟩ <;> exact {}
  | decb => obtain ⟨-, rfl⟩ := engineDecb_cases h; exact {}
  | xork => rcases engineXork_cases h with ⟨e, -, rfl⟩ | ⟨out, -, rfl⟩ <;> exact {}
  | fbld => obtain ⟨-, rfl⟩ := engineFbld_cases h; exact {}
  | fprs => rcases engineFprs_cases h with ⟨e, -, rfl⟩ | ⟨out, -, rfl⟩ <;> exact {}
  | embd => rcases engineEmbd_cases h with ⟨-, -, rfl⟩ | ⟨-, -, rfl⟩ | ⟨d, -, -, rfl⟩ | ⟨-, -, rfl⟩ <;> exact {}
  | extr => exact scanStep_writesOnlyItsState (.inl rfl) (fun hf => finishExtr_eq hf ▸ {}) h
  | hide =>
    rcases engineHide_cases h with ⟨-, hp⟩ | ⟨d, -, -, rfl⟩ | ⟨-, -, hf⟩
    · rcases prepareHide_cases hp with ⟨e, rfl⟩ | ⟨c, -, -, -, rfl⟩ <;> exact {}
    · exact {}
    · rcases finishHide_cases hf with ⟨e, -, rfl⟩ | ⟨k, -, -, rfl⟩ <;> exact {}
  | rvel =>
    refine scanStep_writesOnlyItsState (.inr rfl) (fun hf => ?_) h
    rcases finishRvel_cases hf with ⟨e, rfl⟩ | ⟨c, k, p, -, -, -, -, -, rfl⟩ <;> exact {}

theorem exec_writesOnlyItsState {i : Instr} (hb : s.busy = false) (h : exec i s = .next t) : WritesOnlyItsState i s t :=
  exec_keeps (P := WritesOnlyItsState i s) hb (fun _ _ hu _ he => hu.trans (engineStep_writesOnlyItsState he))
    (accept_writesOnlyItsState i s) h

/-- Settles O53: acceptance and every engine step of a command write only what it may write, and so does the whole command. -/
theorem commandsWriteOnlyTheirState : Obligations.CommandsWriteOnlyTheirState := fun _ _ _ hb h =>
  have hw := exec_writesOnlyItsState hb h
  ⟨hw.pwd, hw.idx, hw.carW, hw.carH, hw.params, hw.prog, hw.hpc, hw.vars, hw.halted, hw.sched, hw.faults, hw.carrier, hw.xst,
    hw.keyb, hw.txt, hw.bits, hw.detector⟩

/-! The status word (R28) and the state after reset (R44). -/

/-- Three fields of 2, 3 and 1 bits side by side, as a number. -/
theorem packed_toNat : ∀ (x : BitVec 2) (e : BitVec 3) (b : Bool),
    ((x.setWidth 32 <<< 4) ||| (e.setWidth 32 <<< 1) ||| BitVec.ofNat 32 b.toNat).toNat =
      16 * x.toNat + 2 * e.toNat + b.toNat := by decide

/-- Settles O5: the status word is its three fields side by side. -/
theorem statusWordIsItsFields : Obligations.StatusWordIsItsFields :=
  ⟨fun s => packed_toNat s.xst.code s.errcode s.busy, rfl, rfl, rfl, rfl⟩

/-- Settles O6: each field as the table of R44 gives it. -/
theorem resetStateIsTheSpecs : Obligations.ResetStateIsTheSpecs :=
  ⟨rfl, rfl, rfl, rfl, rfl, rfl, rfl, rfl, rfl, rfl, rfl, rfl, rfl, rfl, rfl, rfl⟩

theorem State.reset_memoryInv : State.reset.MemoryInv := ⟨⟨.nil, nofun⟩, .nil, nofun⟩

/-- Settles O59: the stores are empty, `ERRCODE` is 0, the buffers are empty and the engine is idle. -/
theorem resetMeetsTheInvariants : Obligations.ResetMeetsTheInvariants :=
  ⟨State.reset_memoryInv, Nat.zero_le 4, .resetBlock State.reset, State.reset.resetBlock_idleEngine.engineInv⟩

end Sys2Proof.Machine
end

section
/-! PROOFS of 20_memory.md R50, R53: every step keeps the canonical form of the carrier and of the host's variables. -/

namespace Sys2Proof.Machine

variable {s t : State}

/-- The form speaks of the two stores alone, so what leaves both as they are keeps it. -/
theorem State.MemoryInv.of_eq (hs : s.MemoryInv) (hcarrier : t.carrier = s.carrier) (hvars : t.vars = s.vars) :
    t.MemoryInv := by
  simpa only [State.MemoryInv, hcarrier, hvars] using hs

/-- A host variable set to 0 leaves the list, and one set to another value takes its place in it (R81). -/
theorem State.MemoryInv.setVar (hs : s.MemoryInv) (x : Var) (v : Word) : (s.setVar x v).MemoryInv :=
  ⟨hs.left, Store.wf_set hs.right x v⟩

theorem State.MemoryInv.pixelWrite (hs : s.MemoryInv) (p : Pos) (px : Pixel) :
    State.MemoryInv { s with carrier := memWrite s.carrier p px } :=
  ⟨memWrite_wf hs.left p px, hs.right⟩

theorem State.MemoryInv.accept (hs : s.MemoryInv) (i : Instr) : (accept i s).MemoryInv :=
  hs.of_eq (accept_carrier i s) (accept_vars i s)

/-- An engine step leaves the carrier as it is or is the pixel step of an embedding, which writes one whole pixel (R56, R182). -/
theorem engineStep_carrier {i : Instr} (h : engineStep i s = .next t) :
    t.carrier = s.carrier ∨ ∃ p px, t.carrier = memWrite s.carrier p px := by
  cases i with
  | embd =>
    rcases engineEmbd_cases h with ⟨-, -, rfl⟩ | ⟨-, -, rfl⟩ | ⟨d, -, -, rfl⟩ | ⟨-, -, rfl⟩
    exacts [.inl rfl, .inl rfl, .inr ⟨_, _, rfl⟩, .inl rfl]
  | hide =>
    rcases engineHide_cases h with ⟨-, hp⟩ | ⟨d, -, -, rfl⟩ | ⟨-, -, hf⟩
    · rcases prepareHide_cases hp with ⟨e, rfl⟩ | ⟨c, -, -, -, rfl⟩ <;> exact .inl rfl
    · exact .inr ⟨_, _, rfl⟩
    · rcases finishHide_cases hf with ⟨e, -, rfl⟩ | ⟨k, -, -, rfl⟩ <;> exact .inl rfl
  | enct | enck | decb | xork | fbld | fprs | extr | rvel =>
    exact .inl ((engineStep_writesOnlyItsState h).carrier nofun nofun)

theorem State.MemoryInv.of_engineStep {i : Instr} (hs : s.MemoryInv) (h : engineStep i s = .next t) : t.MemoryInv := by
  have hvars : t.vars = s.vars := (engineStep_writesOnlyItsState h).vars
  rcases engineStep_carrier h with hcarrier | ⟨p, px, hcarrier⟩
  · exact hs.of_eq hcarrier hvars
  · exact (hs.pixelWrite p px).of_eq hcarrier hvars

/-- No register write touches the carrier or a host variable, an acceptance included (R251, R252). -/
theorem State.MemoryInv.of_regWrite {n : Reg} {v : Word} (hs : s.MemoryInv) (h : regWrite n v s = .next t) :
    t.MemoryInv := by
  rcases regWrite_cases h with ⟨i, -, rfl⟩ | rfl | ⟨-, rfl⟩ | ⟨-, rfl⟩ | ⟨-, rfl⟩ | rfl | rfl | rfl | rfl | rfl | rfl
  · exact hs.accept i
  all_goals exact hs

theorem State.MemoryInv.of_step (hs : s.MemoryInv) (h : step s = .next t) : t.MemoryInv :=
  step_keeps (P := State.MemoryInv)
    (hsched := fun _ hu => hu) (hreset := fun _ hu => hu)
    (heng := fun _ _ _ hu _ he => hu.of_engineStep he) (hacc := fun i _ _ hu => hu.accept i)
    (hvar := fun _ x v hu => hu.setVar x v) (hjump := fun _ _ hu => hu) (hhalt := fun _ hu => hu)
    (hreg := fun _ _ _ _ _ hu hw => hu.of_regWrite hw)
    (hpix := fun _ p px _ hu => hu.pixelWrite p px) (hhaz := fun _ hu => hu) hs h

/-- Settles O55: only a pixel write, by the host or by an embedding, changes the carrier, and only a variable set changes the
variables; both are writes to a store, which keep its canonical form. -/
theorem stepKeepsMemoryCanonical : Obligations.StepKeepsMemoryCanonical := fun _ _ hs h => hs.of_step h

end Sys2Proof.Machine
end

section
/-! PROOFS of 30_encoding.md R70 to R82: the command words, the encodings of bytes and characters, the errors each command can report,
and the host's statements that run a command or stay with the host. -/

namespace Sys2Proof.Machine

variable {s t : State}

/-! The command words (R70, R71, R77). -/

theorem rsvField_eq_zero_iff (v : Word) : rsvField v = 0 ↔ v.toNat < 16 := by
  have hv : v.toNat < 2 ^ 32 := v.isLt
  simp only [rsvField, ← BitVec.toNat_inj, BitVec.extractLsb'_toNat, Nat.shiftRight_eq_div_pow, BitVec.ofNat_eq_ofNat,
    BitVec.toNat_ofNat]
  omega

theorem opcField_toNat (v : Word) : (opcField v).toNat = v.toNat % 16 := by
  simp [opcField]

theorem decode_of_ge {v : Word} (h : 16 ≤ v.toNat) : decode v = .reservedField :=
  if_pos fun h0 => absurd ((rsvField_eq_zero_iff v).1 h0) (Nat.not_lt.2 h)

theorem decode_of_lt {v : Word} (h : v.toNat < 16) : decode v = opcodeRow (opcField v) :=
  if_neg (not_not.2 ((rsvField_eq_zero_iff v).2 h))

theorem encode_lt (i : Instr) : (encode i).toNat < 16 := by cases i <;> decide

theorem opcodeRow_ne_reservedField : ∀ o : BitVec 4, opcodeRow o ≠ .reservedField := by decide

theorem opcodeRow_eq_reservedOpcode_iff : ∀ o : BitVec 4, opcodeRow o = .reservedOpcode ↔ o.toNat = 0 ∨ 11 ≤ o.toNat := by
  decide

/-- The map's row of an opcode is a command exactly when the opcode is that of the command's word. -/
theorem opcodeRow_eq_command_iff (o : BitVec 4) (i : Instr) : opcodeRow o = .command i ↔ o = opcField (encode i) := by
  revert o
  cases i <;> decide

theorem decode_eq_reservedField_iff (v : Word) : decode v = .reservedField ↔ 16 ≤ v.toNat := by
  refine ⟨fun h => ?_, decode_of_ge⟩
  by_contra hv
  exact opcodeRow_ne_reservedField _ (decode_of_lt (Nat.not_le.1 hv) ▸ h)

theorem decode_eq_command_iff (v : Word) (i : Instr) : decode v = .command i ↔ v = encode i := by
  have hi := encode_lt i
  rcases Nat.lt_or_ge v.toNat 16 with hv | hv
  · rw [decode_of_lt hv, opcodeRow_eq_command_iff, ← BitVec.toNat_inj, ← BitVec.toNat_inj, opcField_toNat, opcField_toNat,
      Nat.mod_eq_of_lt hv, Nat.mod_eq_of_lt hi]
  · have hne : v ≠ encode i := fun e => absurd (e ▸ hi) (Nat.not_lt.2 hv)
    simp [decode_of_ge hv, hne]

theorem decode_eq_reservedOpcode_iff (v : Word) :
    decode v = .reservedOpcode ↔ v.toNat = 0 ∨ (11 ≤ v.toNat ∧ v.toNat ≤ 15) := by
  rcases Nat.lt_or_ge v.toNat 16 with hv | hv
  · rw [decode_of_lt hv, opcodeRow_eq_reservedOpcode_iff, opcField_toNat, Nat.mod_eq_of_lt hv]
    omega
  · simp only [decode_of_ge hv, reduceCtorEq, false_iff]
    omega

/-- Settles O2: from 16 on a word is reserved by its upper field; below 16 it is its own opcode, and the map has sixteen rows. -/
theorem decodeIsExactOnAllWords : Obligations.DecodeIsExactOnAllWords := fun v i =>
  ⟨decode_eq_reservedField_iff v, decode_eq_command_iff v i, decode_eq_reservedOpcode_iff v⟩

/-- Settles O1: each command's word is its encoding; the four others are 0, 11 and 15, and one from 16 on. -/
theorem opcodeMapWordsDecode : Obligations.OpcodeMapWordsDecode :=
  have command {v : Word} {i : Instr} : v = encode i → decode v = .command i := (decode_eq_command_iff v i).2
  have unassigned {v : Word} : v.toNat = 0 ∨ (11 ≤ v.toNat ∧ v.toNat ≤ 15) → decode v = .reservedOpcode :=
    (decode_eq_reservedOpcode_iff v).2
  ⟨command rfl, command rfl, command rfl, command rfl, command rfl, command rfl, command rfl, command rfl, command rfl,
    command rfl, unassigned (by decide), unassigned (by decide), unassigned (by decide), decode_of_ge (by decide)⟩

/-! Bytes and characters (R73 to R75). -/

theorem bits8_getElem? (v : Byte) {k : Nat} (hk : k < 8) : (bits8 v)[k]? = some (v.getLsbD (7 - k)) := by
  interval_cases k <;> rfl

theorem bitNat_eq_toNat (b : Bit) : bitNat b = b.toNat := by cases b <;> rfl

/-- The value of a group of 8 bits stays below 256, so no bit of it is lost (R74). -/
theorem byte8_toNat (a0 a1 a2 a3 a4 a5 a6 a7 : Bit) : (byte8 a0 a1 a2 a3 a4 a5 a6 a7).toNat =
    a0.toNat * 128 + a1.toNat * 64 + a2.toNat * 32 + a3.toNat * 16 + a4.toNat * 8 + a5.toNat * 4 + a6.toNat * 2 +
      a7.toNat := by
  have := a0.toNat_le; have := a1.toNat_le; have := a2.toNat_le; have := a3.toNat_le
  have := a4.toNat_le; have := a5.toNat_le; have := a6.toNat_le; have := a7.toNat_le
  simp only [byte8, bitNat_eq_toNat, BitVec.toNat_ofNat]
  omega

/-- Settles O3: the value is the sum written out, the bits are those of the byte, and each function undoes the other. -/
theorem bytesAndTheirBitsAgree : Obligations.BytesAndTheirBitsAgree :=
  ⟨byte8_toNat, fun v _ hk => bits8_getElem? v hk, byte8_bits, bits8_byte8⟩

/-- Latin-1 encodes a code to the byte of the same number, and to no other (R75). -/
theorem encChar_latin1_eq_some_iff (c : Code) (v : Byte) :
    encChar .latin1 c = some v ↔ c.toNat ≤ 255 ∧ v.toNat = c.toNat := by
  simp only [encChar, Option.ite_none_right_eq_some, Option.some.injEq, ← BitVec.toNat_inj, BitVec.toNat_setWidth]
  omega

theorem decChar_latin1_toNat (v : Byte) : (decChar .latin1 v).toNat = v.toNat :=
  BitVec.toNat_setWidth_of_le (by decide)

/-- Settles O4: Latin-1 keeps the number both ways, and `DEC` undoes `ENC` for Latin-1 and for every table of rows. -/
theorem characterSetsDecodeWhatTheyEncode : Obligations.CharacterSetsDecodeWhatTheyEncode :=
  ⟨encChar_latin1_eq_some_iff, decChar_latin1_toNat, fun _ _ _ => decChar_encChar⟩

/-! The host's local statements and `RUN` (R81, R82). -/

theorem shiftRight_eq_ofNat_div (x : Word) (n : Nat) : x >>> n = BitVec.ofNat 32 (x.toNat / 2 ^ n) := by
  rw [← Nat.shiftRight_eq_div_pow, ← BitVec.toNat_ushiftRight, BitVec.ofNat_toNat, BitVec.setWidth_eq]

/-- A conditional jump goes to the one place or to the other (R81). -/
theorem State.ite_jump (s : State) (c : Prop) [Decidable c] (a b : Nat) :
    (if c then s.jump a else s.jump b) = s.jump (if c then a else b) :=
  (apply_ite s.jump c a b).symm

/-- Settles O16: a step of a host at one of these statements is the statement itself, on the state with the turn taken. -/
theorem hostLocalStatements : Obligations.HostLocalStatements := fun s _ u _ label =>
  ⟨step_stmt, fun h => shiftRight_eq_ofNat_div (s.var u) _ ▸ step_stmt h, fun h => BitVec.add_def (s.var u) _ ▸ step_stmt h,
    fun h => (step_stmt h).trans (congrArg _ (s.turnTaken.ite_jump _ label (s.hpc + 1))),
    fun h => (step_stmt h).trans (congrArg _ (s.turnTaken.ite_jump _ (s.hpc + 1) label)), step_stmt, step_stmt⟩

/-- All that can refuse a `RUN` while the block is idle: a reserved word, or the command itself (R79, R323). -/
theorem hostRun_eq_refused {x : Var} {v : Word} {r : Refusal} (hb : s.busy = false) :
    hostRun x v s = .refused r ↔
      (decode v = .reservedField ∧ r = .reservedField) ∨ (decode v = .reservedOpcode ∧ r = .reservedOpcode) ∨
        ∃ i, decode v = .command i ∧ exec i s = .refused r := by
  unfold hostRun
  rw [if_neg (by simp [hb])]
  cases decode v with
  | command i => cases h : exec i s <;> simp [h]
  | reservedField => simp [eq_comm]
  | reservedOpcode => simp [eq_comm]

theorem step_run_next {x : Var} {v : Arg} {u : State} (h : s.aboutTo (.run x v))
    (hr : hostRun x (s.arg v) s.turnTaken = .next u) : step s = .next u.advance := by
  rw [step_stmt h, hostStmt, turnTaken_arg, hr]; rfl

theorem step_run_refused {x : Var} {v : Arg} {r : Refusal} (h : s.aboutTo (.run x v))
    (hr : hostRun x (s.arg v) s.turnTaken = .refused r) : step s = .refused r := by
  rw [step_stmt h, hostStmt, turnTaken_arg, hr]; rfl

/-- Settles O8: the step is `RUN` on the state with the turn taken, which answers what `exec` of the decoded command answers. -/
theorem stepRunsTheDecodedCommand : Obligations.StepRunsTheDecodedCommand := fun s x v h hb => by
  have hb' : s.turnTaken.busy = false := hb
  refine ⟨fun i hd => ⟨fun t he => ?_, fun r he => ?_⟩, fun hd => ?_, fun hd => ?_⟩
  · exact step_run_next h (hostRun_eq_next.2 (.inr ⟨hb', i, t, hd, he, rfl⟩))
  · exact step_run_refused h ((hostRun_eq_refused hb').2 (.inr (.inr ⟨i, hd, he⟩)))
  · exact step_run_refused h ((hostRun_eq_refused hb').2 (.inl ⟨hd, rfl⟩))
  · exact step_run_refused h ((hostRun_eq_refused hb').2 (.inr (.inl ⟨hd, rfl⟩)))

/-! The errors of each command (R78), and that a command comes to its completion (R253). -/

/-- The errors a command can raise: the last column of the table of R78. -/
def errorsOf : Instr → List CmdError
  | .enct | .enck => [.unencodableCharacter]
  | .xork => [.degenerateKey]
  | .fprs | .extr => [.markerNotFound]
  | .embd => [.insufficientCapacity]
  | .hide => [.unencodableCharacter, .degenerateKey, .insufficientCapacity]
  | .rvel => [.markerNotFound, .unencodableCharacter, .degenerateKey]
  | .decb | .fbld => []

/-- Command `i` has completed in this state, and `ERRCODE` is 0 or the code of one of its errors (R281, R282). -/
structure State.Completed (i : Instr) (s : State) : Prop where
  pend : s.pend = none
  errcode : s.errcode = 0 ∨ ∃ e ∈ errorsOf i, s.errcode = e.code

theorem State.completed_complete (i : Instr) (s : State) : s.complete.Completed i := ⟨rfl, .inl rfl⟩

theorem State.completed_raise {i : Instr} {e : CmdError} (he : e ∈ errorsOf i) (s : State) : (s.raise e).Completed i :=
  ⟨rfl, .inr ⟨e, he, rfl⟩⟩

/-- Command `i` is in progress, and a scan is one whose next step is a pixel or its completion (R203). -/
structure State.Running (i : Instr) (s : State) : Prop where
  pend : s.pend = some i
  scan : i = .extr ∨ i = .rvel → s.xst = .scanning ∨ s.xst = .found

/-- How many engine steps command `i` takes before the one that completes it, at most (R182, R202, R253). -/
def State.stepsLeft (i : Instr) (s : State) : Nat :=
  match i with
  | .embd | .hide => if s.checked then s.frm.length - s.pix else s.capacity + 1
  | .extr | .rvel => if s.xst = .found then 0 else s.capacity - s.pix + 1
  | .enct | .enck | .decb | .xork | .fbld | .fprs => 0

/-- From `s` to `t` command `i` has completed, or has come one step nearer to its completion. -/
def State.Progress (i : Instr) (s t : State) : Prop :=
  t.Completed i ∨ (t.Running i ∧ t.stepsLeft i < s.stepsLeft i)

/-- `parse` fails with one error only (R160). -/
theorem parse_err {m : MatchMin} {raw : Bits} {e : CmdError} (h : parse m raw = .err e) : e = .markerNotFound := by
  unfold parse at h
  split at h <;> cases h
  rfl

theorem cipherBits_err {cs : Charset} {txt pwd : List Code} {e : CmdError} (h : cipherBits cs txt pwd = .err e) :
    e = .unencodableCharacter ∨ e = .degenerateKey := by
  unfold cipherBits at h
  split at h
  · rename_i x hm
    cases h
    exact .inl (encodeText_err hm).1
  · split at h
    · rename_i x hk
      cases h
      exact .inl (encodeText_err hk).1
    · exact .inr (applyKey_err.1 h).2

/-! The pixel commands: a check, a pixel step of an embedding and a pixel step of a scan come one step nearer to the completion. -/

section

variable {i : Instr}

theorem State.Running.check {f : Bits} (hs : s.Running i) (hi : i = .embd ∨ i = .hide) (hc : s.checked = false)
    (hf : f.length ≤ s.capacity) : s.Progress i { s with frm := f, checked := true } := by
  refine .inr ⟨⟨hs.pend, hs.scan⟩, ?_⟩
  rcases hi with rfl | rfl <;> simp [State.stepsLeft, hc] <;> omega

theorem State.Running.embedPixel {d : Bit} (hs : s.Running i) (hi : i = .embd ∨ i = .hide) (hc : s.checked = true)
    (hd : s.frm[s.pix]? = some d) : s.Progress i (s.embedPixel d) := by
  have hp : s.pix < s.frm.length := (List.getElem?_eq_some_iff.1 hd).1
  refine .inr ⟨⟨hs.pend, hs.scan⟩, ?_⟩
  rcases hi with rfl | rfl <;> simp [State.stepsLeft, hc] <;> omega

theorem State.Running.readPixel (hs : s.Running i) (hi : i = .extr ∨ i = .rvel) (hx : s.xst = .scanning)
    (hp : s.pix < s.capacity) : s.Progress i s.readPixel := by
  have hcap : s.readPixel.capacity = s.capacity := rfl
  have hx' : s.readPixel.xst = .scanning ∨ s.readPixel.xst = .found := by
    rw [State.readPixel_xst, hx]
    split
    exacts [.inr rfl, .inl rfl]
  refine .inr ⟨⟨hs.pend, fun _ => hx'⟩, ?_⟩
  rcases hi with rfl | rfl <;> rcases hx' with hx' | hx' <;> simp [State.stepsLeft, hx, hx', hcap] <;> omega

/-- A scan in progress reads a pixel, reports that no marker was found, or completes as `found` does after a match. -/
theorem State.Running.of_scanStep {found : State → Out} (hs : s.Running i) (hi : i = .extr ∨ i = .rvel)
    (hfound : found s = .next t → t.Completed i) (h : scanStep found s = .next t) : s.Progress i t := by
  rcases scanStep_cases h with ⟨-, hf⟩ | ⟨hx, hp, -, rfl⟩ | ⟨-, -, rfl⟩ | ⟨hx, -⟩
  · exact .inl (hfound hf)
  · exact hs.readPixel hi hx hp
  · exact .inl (State.completed_raise (by rcases hi with rfl | rfl <;> decide) _)
  · rcases hs.scan hi with hr | hr <;> simp [hr] at hx

end

/-- Step 1 of HIDE fails with an error of HIDE's, which `prepareHide_cases` does not name, or leaves the frame checked (R230). -/
theorem prepareHide_progress (hs : s.Running .hide) (hc : s.checked = false) (h : prepareHide s = .next t) :
    s.Progress .hide t := by
  unfold prepareHide at h
  split at h
  · rename_i e he
    cases h
    refine .inl (State.completed_raise ?_ s)
    rcases cipherBits_err he with rfl | rfl <;> decide
  · obtain ⟨-, h⟩ := within_eq_next.1 h
    split at h <;> cases h
    · exact .inl (State.completed_raise (by decide) s)
    · rename_i hcap
      exact hs.check (.inr rfl) hc (Nat.not_lt.1 hcap)

theorem finishHide_completed (h : finishHide s = .next t) : t.Completed .hide := by
  rcases finishHide_cases h with ⟨e, he, rfl⟩ | ⟨k, -, -, rfl⟩
  · exact State.completed_raise (by simp [errorsOf, (encodeText_err he).1]) s
  · exact State.completed_complete _ _

/-- The completion of RVEL fails with an error of RVEL's, which `finishRvel_cases` does not name, or commits (R240). -/
theorem finishRvel_completed (h : finishRvel s = .next t) : t.Completed .rvel := by
  unfold finishRvel at h
  split at h
  · rename_i e he
    cases h
    exact State.completed_raise (by simp [errorsOf, parse_err he]) s
  · split at h
    · rename_i e he
      cases h
      exact State.completed_raise (by simp [errorsOf, (encodeText_err he).1]) s
    · split at h
      · rename_i e he
        cases h
        exact State.completed_raise (by simp [errorsOf, (applyKey_err.1 he).2]) s
      · obtain ⟨-, h⟩ := within_eq_next.1 h
        obtain ⟨-, h⟩ := within_eq_next.1 h
        cases h
        exact State.completed_complete _ _

/-- Every engine step of the command in progress completes it, with 0 or one of its own errors, or comes nearer to the completion. -/
theorem engineStep_progress {i : Instr} (hs : s.Running i) (h : engineStep i s = .next t) : s.Progress i t := by
  cases i with
  | enct =>
    rcases engineEnct_cases h with ⟨e, he, rfl⟩ | ⟨out, -, -, rfl⟩
    · exact .inl (State.completed_raise (by simp [errorsOf, (encodeText_err he).1]) s)
    · exact .inl (State.completed_complete _ _)
  | enck =>
    rcases engineEnck_cases h with ⟨e, he, rfl⟩ | ⟨out, -, -, rfl⟩
    · exact .inl (State.completed_raise (by simp [errorsOf, (encodeText_err he).1]) s)
    · exact .inl (State.completed_complete _ _)
  | decb =>
    obtain ⟨-, rfl⟩ := engineDecb_cases h
    exact .inl (State.completed_complete _ _)
  | xork =>
    rcases engineXork_cases h with ⟨e, he, rfl⟩ | ⟨out, -, rfl⟩
    · exact .inl (State.completed_raise (by simp [errorsOf, (applyKey_err.1 he).2]) s)
    · exact .inl (State.completed_complete _ _)
  | fbld =>
    obtain ⟨-, rfl⟩ := engineFbld_cases h
    exact .inl (State.completed_complete _ _)
  | fprs =>
    rcases engineFprs_cases h with ⟨e, he, rfl⟩ | ⟨out, -, rfl⟩
    · exact .inl (State.completed_raise (by simp [errorsOf, parse_err he]) _)
    · exact .inl (State.completed_complete _ _)
  | embd =>
    rcases engineEmbd_cases h with ⟨-, -, rfl⟩ | ⟨hc, hl, rfl⟩ | ⟨d, hc, hd, rfl⟩ | ⟨-, -, rfl⟩
    · exact .inl (State.completed_raise (by decide) s)
    · exact hs.check (.inl rfl) hc hl
    · exact hs.embedPixel (.inl rfl) hc hd
    · exact .inl (State.completed_complete _ s)
  | extr => exact hs.of_scanStep (.inl rfl) (fun hf => finishExtr_eq hf ▸ State.completed_complete _ _) h
  | hide =>
    rcases engineHide_cases h with ⟨hc, hp⟩ | ⟨d, hc, hd, rfl⟩ | ⟨-, -, hf⟩
    · exact prepareHide_progress hs hc hp
    · exact hs.embedPixel (.inr rfl) hc hd
    · exact .inl (finishHide_completed hf)
  | rvel => exact hs.of_scanStep (.inr rfl) finishRvel_completed h

/-- With more engine steps than the command needs before its last, its run ends in its completion. -/
theorem drive_completed {i : Instr} {n : Nat} (hs : s.Running i) (hn : s.stepsLeft i < n)
    (h : drive (engineStep i) n s = .next t) : t.Completed i := by
  induction n generalizing s with
  | zero => exact absurd hn (Nat.not_lt_zero _)
  | succ n ih =>
    unfold drive at h
    split at h
    · rename_i u hu
      rcases engineStep_progress hs hu with hc | ⟨hr, hl⟩
      · rw [hc.pend] at h
        cases h
        exact hc
      · rw [hr.pend] at h
        exact ih hr (by omega) h
    all_goals cases h

theorem accept_running (i : Instr) (s : State) : (accept i s).Running i := by
  refine ⟨accept_pend i s, ?_⟩
  rintro (rfl | rfl) <;> exact .inl rfl

theorem stepsLeft_accept (i : Instr) (s : State) : (accept i s).stepsLeft i < s.stepBound := by
  cases i with
  | embd | hide => exact Nat.lt_succ_self _
  | extr | rvel => exact Nat.lt_succ_self _
  | enct | enck | decb | xork | fbld | fprs => exact Nat.succ_pos _

/-- A command issued to an idle block that answers has completed, with 0 or one of its own errors (R253, R281, R282). -/
theorem exec_completed {i : Instr} (hb : s.busy = false) (h : exec i s = .next t) : t.Completed i := by
  rw [exec_eq_runCommand, runCommand_idle hb] at h
  exact drive_completed (accept_running i s) (stepsLeft_accept i s) h

/-- The table of R78 read by error: the commands that can raise each. -/
theorem mem_errorsOf_iff (i : Instr) :
    (CmdError.unencodableCharacter ∈ errorsOf i ↔ i = .enct ∨ i = .enck ∨ i = .hide ∨ i = .rvel) ∧
    (CmdError.degenerateKey ∈ errorsOf i ↔ i = .xork ∨ i = .hide ∨ i = .rvel) ∧
    (CmdError.insufficientCapacity ∈ errorsOf i ↔ i = .embd ∨ i = .hide) ∧
    (CmdError.markerNotFound ∈ errorsOf i ↔ i = .fprs ∨ i = .extr ∨ i = .rvel) := by
  cases i <;> decide

/-- Settles O52: a command that answers has completed, so `ERRCODE` is that completion's and never what an earlier command left. -/
theorem eachCommandReportsOnlyItsErrors : Obligations.EachCommandReportsOnlyItsErrors := fun i s t hb h => by
  rcases (exec_completed hb h).errcode with h0 | ⟨e, he, hcode⟩
  · exact .inl h0
  · obtain ⟨hu, hd, hc, hm⟩ := mem_errorsOf_iff i
    right
    cases e with
    | unencodableCharacter => exact .inl ⟨hcode, hu.1 he⟩
    | degenerateKey => exact .inr (.inl ⟨hcode, hd.1 he⟩)
    | insufficientCapacity => exact .inr (.inr (.inl ⟨hcode, hc.1 he⟩))
    | markerNotFound => exact .inr (.inr (.inr ⟨hcode, hm.1 he⟩))

end Sys2Proof.Machine
end

section
/-! PROOFS of 40_bit_stream_encoder.md R100 to R110: the text codec as a code on whole bytes, its round trips, and what ENCT,
ENCK and DECB leave. -/

namespace Sys2Proof.Machine

variable {s t : State}

/-! The encoder (R100 to R104). -/

/-- A text's encoding is the bits of its characters' bytes, and there is one exactly when every character has a byte. -/
theorem encodeText_eq_ok_iff {cs : Charset} {txt : List Code} {out : Bits} :
    encodeText cs txt = .ok out ↔ ∃ vs : List Byte, txt.map (encChar cs) = vs.map some ∧ out = bitsOfBytes vs := by
  induction txt generalizing out with
  | nil => simp [encodeText, bitsOfBytes]
  | cons c rest ih =>
    rw [encodeText_cons_ok]
    constructor
    · rintro ⟨v, o, hv, ho, rfl⟩
      obtain ⟨vs, hvs, rfl⟩ := ih.1 ho
      exact ⟨v :: vs, by simp [hv, hvs], rfl⟩
    · rintro ⟨_ | ⟨v, vs⟩, hvs, rfl⟩
      · simp at hvs
      · obtain ⟨hv, hvs⟩ := List.cons_eq_cons.1 hvs
        exact ⟨v, bitsOfBytes vs, hv, ih.2 ⟨vs, hvs, rfl⟩, rfl⟩

theorem encodeText_eq_unencodable_iff {cs : Charset} {txt : List Code} :
    encodeText cs txt = .err .unencodableCharacter ↔ ∃ c ∈ txt, encChar cs c = none := by
  refine ⟨fun h => (encodeText_err h).2, fun ⟨c, hc, hn⟩ => ?_⟩
  rcases encodeText_cases cs txt with ⟨out, ho⟩ | he
  · exact absurd hn (encodeText_ok_encodable ho c hc)
  · exact he

theorem encodeText_succeeds_iff {cs : Charset} {txt : List Code} :
    (∃ out, encodeText cs txt = .ok out) ↔ ∀ c ∈ txt, encChar cs c ≠ none := by
  refine ⟨fun ⟨_, ho⟩ => encodeText_ok_encodable ho, fun h => ?_⟩
  rcases encodeText_cases cs txt with ho | he
  · exact ho
  · obtain ⟨c, hc, hn⟩ := encodeText_eq_unencodable_iff.1 he
    exact absurd hn (h c hc)

/-- Settles O22: the encoding is the bits of the characters' bytes, and the bits of byte `j` stand from `8 * j` on. -/
theorem encodeTextGivesEachCharactersBits : Obligations.EncodeTextGivesEachCharactersBits := fun cs txt => by
  refine ⟨fun out ho => ⟨encodeText_length ho, fun j hj => ?_⟩, encodeText_eq_unencodable_iff.symm,
    encodeText_succeeds_iff.symm⟩
  obtain ⟨vs, hvs, rfl⟩ := encodeText_eq_ok_iff.1 ho
  have hjth : (txt.map (encChar cs))[j]? = (vs.map some)[j]? := congrArg (·[j]?) hvs
  rw [List.getElem?_map, List.getElem?_map, List.getElem?_eq_getElem hj, eq_comm, Option.map_some,
    Option.map_eq_some_iff] at hjth
  obtain ⟨v, hv, he⟩ := hjth
  exact ⟨v, he.symm, fun k hk => by rw [bitsOfBytes_get vs j k hk, hv, Option.map_some]⟩

/-! The decoder, and the round trips (R106 to R109). -/

/-- A bit sequence is the bits of its whole bytes and fewer than 8 bits more (R106). -/
theorem exists_bitsOfBytes_append (bs : Bits) :
    ∃ (vs : List Byte) (rest : Bits), bs = bitsOfBytes vs ++ rest ∧ rest.length < 8 := by
  induction bs using decodeBits.induct with
  | case1 a0 a1 a2 a3 a4 a5 a6 a7 bs ih =>
    obtain ⟨vs, rest, rfl, hrest⟩ := ih
    exact ⟨byte8 a0 a1 a2 a3 a4 a5 a6 a7 :: vs, rest, by simp [bitsOfBytes, bits8_byte8], hrest⟩
  | case2 bs h =>
    have hlen := decodeBits_length .latin1 bs
    rw [decodeBits.eq_2 _ _ h, List.length_nil] at hlen
    exact ⟨[], bs, rfl, by omega⟩

theorem decodeBits_bitsOfBytes_append (cs : Charset) (vs : List Byte) {rest : Bits} (h : rest.length < 8) :
    decodeBits cs (bitsOfBytes vs ++ rest) = vs.map (decChar cs) := by
  induction vs with
  | nil =>
    rw [bitsOfBytes, List.nil_append, List.map_nil, ← List.length_eq_zero_iff, decodeBits_length]
    omega
  | cons v vs ih => rw [bitsOfBytes, List.append_assoc, decodeBits_bits8_append, ih, List.map_cons]

/-- The number of whole bytes of a sequence, counted in its bits. -/
theorem length_div_eight {vs : List Byte} {rest : Bits} (h : rest.length < 8) :
    (bitsOfBytes vs ++ rest).length / 8 = vs.length := by
  rw [List.length_append, bitsOfBytes_length]
  omega

/-- Settles O23: the characters are those of the sequence's whole bytes, whose bits are the sequence's own. -/
theorem decodeBitsReadsWholeGroups : Obligations.DecodeBitsReadsWholeGroups := fun cs bs => by
  refine ⟨decodeBits_length cs bs, fun j hj => ?_⟩
  obtain ⟨vs, rest, rfl, hrest⟩ := exists_bitsOfBytes_append bs
  rw [length_div_eight hrest] at hj
  refine ⟨vs[j], by simp [decodeBits_bitsOfBytes_append cs vs hrest, hj], fun k hk => ?_⟩
  have hbit : 8 * j + k < (bitsOfBytes vs).length := by rw [bitsOfBytes_length]; omega
  rw [List.getElem?_append_left hbit, bitsOfBytes_get vs j k hk, List.getElem?_eq_getElem hj, Option.map_some]

/-- Settles O24: an encodable text has an encoding, and `DEC` undoes `ENC` on each of its bytes. -/
theorem textCodecRoundTrip : Obligations.TextCodecRoundTrip := fun _ _ h =>
  (encodeText_succeeds_iff.2 h).imp fun _ ho => ⟨ho, decodeBits_encodeText ho⟩

/-- Settles O25: in Latin-1 every byte is its own character's byte, so the whole bytes come back and the trailing bits do not. -/
theorem bitCodecRoundTrip : Obligations.BitCodecRoundTrip := fun bs => by
  obtain ⟨vs, rest, rfl, hrest⟩ := exists_bitsOfBytes_append bs
  rw [decodeBits_bitsOfBytes_append _ vs hrest, length_div_eight hrest, ← bitsOfBytes_length, List.take_left]
  exact encodeText_eq_ok_iff.2 ⟨vs, by simp [latin1_enc_dec], rfl⟩

/-! The commands (R101, R102, R107, R110). -/

theorem drive_of_completes {eng : State → Out} {n : Nat} (h : ∀ t, eng s = .next t → t.pend = none) :
    drive eng (n + 1) s = eng s := by
  cases he : eng s with
  | next t => exact drive_done he (h t he)
  | fault r => simp [drive, he]
  | refused r => exact drive_refused he

/-- A command whose first engine step is its last answers what that step answers (R322, R323). -/
theorem exec_eq_engineStep {i : Instr} (hb : s.busy = false) (hone : (accept i s).stepsLeft i = 0) :
    exec i s = engineStep i (accept i s) := by
  rw [exec_eq_runCommand, runCommand_idle hb]
  refine drive_of_completes fun t h => ?_
  rcases engineStep_progress (accept_running i s) h with hc | ⟨-, hl⟩
  · exact hc.pend
  · omega

/-- The completion overwrites all that the acceptance set, so ENCT is its engine step. -/
theorem exec_enct (hb : s.busy = false) : exec .enct s = engineEnct s := exec_eq_engineStep hb rfl

theorem exec_enck (hb : s.busy = false) : exec .enck s = engineEnck s := exec_eq_engineStep hb rfl

theorem exec_decb (hb : s.busy = false) : exec .decb s = engineDecb s := exec_eq_engineStep hb rfl

theorem engineEnct_of_ok {out : Bits} (h : encodeText s.params.charset s.txt = .ok out) :
    engineEnct s = within out.length s.params.maxBits .bitsBound (.next { s with bits := out }.complete) := by
  rw [engineEnct, h]

theorem engineEnct_of_err {e : CmdError} (h : encodeText s.params.charset s.txt = .err e) :
    engineEnct s = .next (s.raise e) := by
  rw [engineEnct, h]

theorem engineEnck_of_ok {out : Bits} (h : encodeText s.params.charset s.pwd = .ok out) :
    engineEnck s = within out.length (8 * s.params.maxPwd) .keybBound (.next { s with keyb := out }.complete) := by
  rw [engineEnck, h]

theorem engineEnck_of_err {e : CmdError} (h : encodeText s.params.charset s.pwd = .err e) :
    engineEnck s = .next (s.raise e) := by
  rw [engineEnck, h]

/-- Settles O26: the engine step of ENCT in its three cases. -/
theorem enctEncodesTheMessage : Obligations.EnctEncodesTheMessage := fun s hb => by
  rw [exec_enct hb]
  refine ⟨fun out ho hl => ⟨false, ?_⟩, fun out ho hl => ?_, fun he => ⟨false, engineEnct_of_err he⟩⟩
  · rw [engineEnct_of_ok ho, within_of_le hl]
    rfl
  · rw [engineEnct_of_ok ho, within_of_lt hl]

/-- Settles O27: the engine step of ENCK in its three cases. -/
theorem enckEncodesThePassword : Obligations.EnckEncodesThePassword := fun s hb => by
  rw [exec_enck hb]
  refine ⟨fun out ho hl => ⟨false, ?_⟩, fun out ho hl => ?_, fun he => ⟨false, engineEnck_of_err he⟩⟩
  · rw [engineEnck_of_ok ho, within_of_le hl]
    rfl
  · rw [engineEnck_of_ok ho, within_of_lt hl]

/-- Settles O28: the engine step of DECB, whose result has one character for each whole byte. -/
theorem decbDecodesTheBits : Obligations.DecbDecodesTheBits := fun s hb => by
  rw [exec_decb hb, engineDecb, decodeBits_length]
  exact ⟨fun hl => ⟨false, within_of_le hl _ _⟩, fun hl => within_of_lt hl _ _⟩

/-- Settles O29: what DECB left in `TXT` encodes to the whole bytes of `BITS`, which are no longer than `BITS` was. -/
theorem enctAfterDecbSucceeds : Obligations.EnctAfterDecbSucceeds := fun s t hb hcs hbound hdecb => by
  obtain ⟨-, rfl⟩ := engineDecb_cases (exec_decb hb ▸ hdecb)
  have henc : encodeText s.params.charset (decodeBits s.params.charset s.bits) = .ok (s.bits.take (8 * (s.bits.length / 8))) :=
    hcs ▸ bitCodecRoundTrip s.bits
  have hfits : (s.bits.take (8 * (s.bits.length / 8))).length ≤ s.params.maxBits := (List.length_take_le' _ _).trans hbound
  obtain ⟨hok, -, -⟩ := enctEncodesTheMessage { s with txt := decodeBits s.params.charset s.bits }.complete rfl
  obtain ⟨c, hu⟩ := hok _ henc hfits
  exact ⟨_, hu, rfl, rfl⟩

end Sys2Proof.Machine
end

section
/-! PROOFS of 41_repeating_key_xor_cipher.md R130 to R134: the repeating-key XOR bit by bit and byte by byte, and what XORK
leaves. -/

namespace Sys2Proof.Machine

variable {s : State}

/-! The cipher as a function (R130, R132, R133). -/

/-- Settles O30: an empty key is the one error, and `xorFrom_getElem?` gives each bit under any other key. -/
theorem applyXorsTheRepeatedKey : Obligations.ApplyXorsTheRepeatedKey := fun bs key => by
  refine ⟨fun hkey => applyKey_err.2 ⟨hkey, rfl⟩, fun hkey => ⟨_, applyKey_ok hkey, xorFrom_length _ _ _, fun i hi => ?_⟩⟩
  rw [xorFrom_getElem?, List.getElem?_eq_getElem hi, Option.map_some, Nat.zero_add]

/-- Settles O31: both runs meet each bit with the same bit of the key. -/
theorem applyIsAnInvolution : Obligations.ApplyIsAnInvolution := fun bs key hkey =>
  ⟨xorFrom key 0 bs, applyKey_ok hkey, by rw [applyKey_ok hkey, xorFrom_xorFrom]⟩

/-! The cipher on whole bytes (R134). -/

/-- Two bit sequences are equal when every bit of every group of 8 is. -/
theorem bits_ext_groups {as bs : Bits} (h : ∀ j k, k < 8 → as[8 * j + k]? = bs[8 * j + k]?) : as = bs :=
  List.ext_getElem? fun i => by simpa only [Nat.div_add_mod] using h (i / 8) (i % 8) (Nat.mod_lt i (by decide))

theorem bitsOfBytes_getD (us : List Byte) (j : Nat) {k : Nat} (hk : k < 8) :
    (bitsOfBytes us).getD (8 * j + k) false = (us.getD j 0).getLsbD (7 - k) := by
  rw [List.getD_eq_getElem?_getD, bitsOfBytes_get us j k hk, List.getD_eq_getElem?_getD]
  cases us[j]? with
  | none => exact BitVec.getLsbD_zero.symm
  | some u => rfl

/-- A key of whole bytes repeats as its bytes do: bit `k` of byte `j` meets bit `k` of the password's byte `j mod m`. -/
theorem bit_index_mod_key {m j k : Nat} (hk : k < 8) : (8 * j + k) % (8 * m) = 8 * (j % m) + k := by
  rw [Nat.mod_mul, Nat.mul_add_mod, Nat.mod_eq_of_lt hk, Nat.mul_add_div (by decide), Nat.div_eq_of_lt hk, Nat.add_zero,
    Nat.add_comm]

theorem xorFrom_bitsOfBytes (vs us : List Byte) :
    xorFrom (bitsOfBytes us) 0 (bitsOfBytes vs) =
      bitsOfBytes (vs.mapIdx fun j v => v ^^^ us.getD (j % us.length) 0) := by
  refine bits_ext_groups fun j k hk => ?_
  rw [xorFrom_getElem?, Nat.zero_add, bitsOfBytes_length, bit_index_mod_key hk, bitsOfBytes_getD us _ hk,
    bitsOfBytes_get vs j k hk, bitsOfBytes_get _ j k hk, List.getElem?_mapIdx, Option.map_map, Option.map_map]
  exact congrArg (vs[j]?.map ·) (funext fun v => BitVec.getLsbD_xor.symm)

theorem bitsOfBytes_ne_nil {us : List Byte} (h : us ≠ []) : bitsOfBytes us ≠ [] := by
  rw [← List.length_pos_iff] at h ⊢
  rw [bitsOfBytes_length]
  omega

/-- Settles O32: a non-empty password has a non-empty keystream, which repeats byte by byte. -/
theorem applyXorsBytes : Obligations.ApplyXorsBytes := fun vs us hus => by
  rw [applyKey_ok (bitsOfBytes_ne_nil hus), xorFrom_bitsOfBytes]

/-! The command (R131). -/

theorem exec_xork (hb : s.busy = false) : exec .xork s = engineXork s := exec_eq_engineStep hb rfl

theorem engineXork_of_ok {out : Bits} (h : applyKey s.bits s.keyb = .ok out) :
    engineXork s = .next { s with bits := out }.complete := by
  rw [engineXork, h]

theorem engineXork_of_err {e : CmdError} (h : applyKey s.bits s.keyb = .err e) : engineXork s = .next (s.raise e) := by
  rw [engineXork, h]

/-- Settles O33: the engine step of XORK in its two cases. -/
theorem xorkAppliesTheKeystream : Obligations.XorkAppliesTheKeystream := fun s hb => by
  rw [exec_xork hb]
  exact ⟨fun out ho => ⟨false, engineXork_of_ok ho⟩, fun hkey => ⟨false, engineXork_of_err (applyKey_err.2 ⟨hkey, rfl⟩)⟩⟩

end Sys2Proof.Machine
end

section
/-! PROOFS of 42_frame_marker_detector.md R150 to R162: the window after a scan, `parse` at the first match, when a frame parses
back to its cipher bits, and what FBLD and FPRS leave. -/

namespace Sys2Proof.Machine

variable {s : State}

/-! The detector (R151). -/

/-- Settles O34: bit `23 - k` of the window was scanned `23 - k` bits before the last. -/
theorem windowHoldsTheLastBits : Obligations.WindowHoldsTheLastBits := fun m bs hl => by
  refine ⟨(feed_ncnt bs Detector.start).trans (Nat.zero_add _), fun k hk => ?_, feed_start_isMatch m bs hl⟩
  have hpos : bs.length - 1 - (23 - k) = bs.length - 24 + k := by omega
  rw [feed_win _ _ _ (by omega), if_pos (by omega), hpos]

/-! The function `parse` (R160). -/

theorem parse_of_firstMatch {m : MatchMin} {raw : Bits} {j : Nat} (h : firstMatch m raw j) :
    parse m raw = .ok (raw.take (j - 24)) := by
  rw [parse, scan_firstMatch h]

theorem parse_of_no_match {m : MatchMin} {raw : Bits} (h : ∀ j, ¬ firstMatch m raw j) :
    parse m raw = .err .markerNotFound := by
  rw [parse, scan_start_of_no_match h]

/-- Settles O35: a scan stops at the first match, or matches nowhere. -/
theorem parseStopsAtTheFirstMarker : Obligations.ParseStopsAtTheFirstMarker := fun _ _ =>
  ⟨fun _ => parse_of_firstMatch, parse_of_no_match⟩

/-! The frame (R155, R162). -/

/-- A collision stops the scan inside the cipher bits, at the same place with and without the marker after them. -/
theorem parse_frame_of_collision {m : MatchMin} {c : Bits} {j : Nat} (h : firstMatch m c j) :
    parse m (c ++ marker) = .ok (c.take (j - 24)) := by
  have hj : j - 24 ≤ c.length := (Nat.sub_le _ _).trans h.2.1.2.1
  rw [parse_of_firstMatch (firstMatch_append h), List.take_append_of_le_length hj]

theorem parse_frame_of_no_collision {m : MatchMin} {c : Bits} (h : ∀ j, matchMinBits m ≤ j → ¬ markerEndsAt c j)
    (hmin : matchMinBits m ≤ c.length + 24) : parse m (c ++ marker) = .ok c := by
  rw [parse_of_firstMatch (firstMatch_frame h hmin), Nat.add_sub_cancel, List.take_left]

/-- A frame shorter than the threshold is never compared: the empty message when `MATCH_MIN` is 25. -/
theorem parse_frame_of_short {m : MatchMin} {c : Bits} (h : c.length + 24 < matchMinBits m) :
    parse m (c ++ marker) = .err .markerNotFound := by
  refine parse_of_no_match fun j ⟨hmin, ⟨_, hj, _⟩, _⟩ => ?_
  rw [List.length_append, marker_length] at hj
  omega

/-- What a collision leaves lacks at least the 24 bits of the marker it stopped at. -/
theorem take_firstMatch_ne {m : MatchMin} {c : Bits} {j : Nat} (h : firstMatch m c j) : c.take (j - 24) ≠ c := by
  obtain ⟨-, ⟨h24, hj, -⟩, -⟩ := h
  rw [Ne, List.take_eq_self_iff]
  omega

/-- Settles O36: the three ways a frame can parse; only the one without a collision and above the threshold gives `c` back. -/
theorem frameParsesBackUnlessItCollides : Obligations.FrameParsesBackUnlessItCollides := fun m c => by
  refine ⟨⟨fun hok => ?_, fun ⟨hnone, hmin⟩ => parse_frame_of_no_collision hnone hmin⟩,
    fun _ => parse_frame_of_collision, fun _ => parse_frame_of_short⟩
  constructor
  · refine (frame_cases m c).resolve_left fun ⟨j, hj⟩ => take_firstMatch_ne hj ?_
    exact Result.ok.inj ((parse_frame_of_collision hj).symm.trans hok)
  · by_contra hshort
    exact nomatch (parse_frame_of_short (Nat.not_le.1 hshort)).symm.trans hok

/-! The commands (R156, R161). -/

/-- The completion overwrites all that the acceptance set, so FBLD is its engine step. -/
theorem exec_fbld (hb : s.busy = false) : exec .fbld s = engineFbld s := exec_eq_engineStep hb rfl

theorem exec_fprs (hb : s.busy = false) : exec .fprs s = engineFprs s := exec_eq_engineStep hb rfl

theorem build_length (c : Bits) : (build c).length = c.length + 24 := List.length_append

/-- Settles O37: the engine step of FBLD, whose result is 24 bits longer. -/
theorem fbldAppendsTheMarker : Obligations.FbldAppendsTheMarker := fun s hb => by
  have hbuild : s.bits ++ List.replicate 22 false ++ [true, true] = build s.bits := List.append_assoc ..
  rw [exec_fbld hb, engineFbld, build_length, hbuild]
  exact ⟨fun hl => ⟨false, within_of_le hl _ _⟩, fun hl => within_of_lt hl _ _⟩

/-- The scan of FPRS leaves the detector's registers at the match. -/
theorem State.scanBits_of_firstMatch {j : Nat} (h : firstMatch s.params.matchMin s.bits j) :
    s.scanBits = { s with win := 0x000003, ncnt := j } := by
  rw [State.scanBits, scan_firstMatch h]

/-- Without a match the scan of FPRS counts every bit of `BITS`. -/
theorem State.scanBits_ncnt_of_no_match (h : ∀ j, ¬ firstMatch s.params.matchMin s.bits j) :
    s.scanBits.ncnt = s.bits.length := by
  rw [State.scanBits_ncnt, scan_start_of_no_match h, feed_ncnt]
  exact Nat.zero_add _

theorem engineFprs_of_firstMatch {j : Nat} (h : firstMatch s.params.matchMin s.bits j) :
    engineFprs s = .next { s with bits := s.bits.take (j - 24), win := 0x000003, ncnt := j }.complete := by
  rw [engineFprs, parse_of_firstMatch h, State.scanBits_of_firstMatch h]

theorem engineFprs_of_no_match (h : ∀ j, ¬ firstMatch s.params.matchMin s.bits j) :
    engineFprs s = .next (s.scanBits.raise .markerNotFound) := by
  rw [engineFprs, parse_of_no_match h]

/-- Settles O38: the engine step of FPRS in its two cases. -/
theorem fprsCutsAtTheFirstMarker : Obligations.FprsCutsAtTheFirstMarker := fun s hb => by
  rw [exec_fprs hb]
  refine ⟨fun j hj => ⟨false, engineFprs_of_firstMatch hj⟩, fun hnone => ⟨s.scanBits.win, false, ?_⟩⟩
  rw [engineFprs_of_no_match hnone, ← State.scanBits_ncnt_of_no_match hnone]
  rfl

end Sys2Proof.Machine
end

section
/-! PROOFS of 43_lsb_pixel_embedder.md R180 to R184: the bytes an embedding leaves, EMBD one engine step at a time up to a reset, and
what EMBD leaves. -/

namespace Sys2Proof.Machine

variable {s : State}

/-! The function `embed` (R180, R183). -/

theorem embedFrom_append (w : Nat) (m : List Host.Cell) (i : Nat) (f g : Bits) :
    embedFrom w m i (f ++ g) = embedFrom w (embedFrom w m i f) (i + f.length) g := by
  induction f generalizing m i with
  | nil => rfl
  | cons d f ih => rw [List.cons_append, embedFrom, embedFrom, ih, List.length_cons, Nat.add_assoc, Nat.add_comm 1]

/-- The next pixel of an embedding, when `k` of them carry their bits. -/
theorem embedFrom_take_succ (w : Nat) (m : List Host.Cell) {f : Bits} {k : Nat} (hk : k < f.length) :
    embedFrom w m 0 (f.take (k + 1)) =
      memWrite (embedFrom w m 0 (f.take k)) (posAt w k)
        (withBlueBit (memRead (embedFrom w m 0 (f.take k)) (posAt w k)) f[k]) := by
  rw [List.take_add_one, List.getElem?_eq_getElem hk, Option.toList_some, embedFrom_append, Nat.zero_add,
    List.length_take_of_le hk.le]
  rfl

/-- A frame that fits and has a bit to embed has a carrier with a column, and a width register holds fewer than 2^32. -/
theorem read_embedFrom_blue {w h : BitVec 16} (m : List Host.Cell) {f : Bits} (hfits : f.length ≤ w.toNat * h.toNat)
    (i : Nat) (hi : i < f.length) :
    Memory.read (embedFrom w.toNat m 0 f) (blueAddr (posAt w.toNat i)) =
      (Memory.read m (blueAddr (posAt w.toNat i)) &&& 0xFE) ||| (if f[i] then 1 else 0) := by
  have hw : 0 < w.toNat := Nat.pos_of_mul_pos_right (Nat.lt_of_lt_of_le (Nat.zero_lt_of_lt hi) hfits)
  have hread := read_embedFrom_same hw (by omega) f m 0 i hi
  rwa [Nat.zero_add, withBit_eq] at hread

theorem read_embedFrom_not_blue (w : Nat) (m : List Host.Cell) (f : Bits) (a : Nat)
    (ha : ∀ i, i < f.length → a ≠ blueAddr (posAt w i)) : Memory.read (embedFrom w m 0 f) a = Memory.read m a :=
  read_embedFrom_other f m 0 a fun i _ hi => ha i (by omega)

/-! The engine steps of EMBD (R182). -/

theorem engineEmbd_of_too_long (hc : s.checked = false) (hlong : s.capacity < s.frm.length) :
    engineEmbd s = .next (s.raise .insufficientCapacity) := by
  simp [engineEmbd, hc, hlong]

theorem engineEmbd_of_fits (hc : s.checked = false) (hfits : s.frm.length ≤ s.capacity) :
    engineEmbd s = .next { s with checked := true } := by
  simp [engineEmbd, hc, Nat.not_lt.2 hfits]

theorem engineEmbd_of_pixel {d : Bit} (hc : s.checked = true) (hd : s.frm[s.pix]? = some d) :
    engineEmbd s = .next (s.embedPixel d) := by
  simp [engineEmbd, hc, hd]

theorem engineEmbd_of_done (hc : s.checked = true) (hdone : s.frm.length ≤ s.pix) : engineEmbd s = .next s.complete := by
  simp [engineEmbd, hc, hdone]

theorem engineRun_succ {n : Nat} {t : State} (h : engineRun n s = .next t) : engineRun (n + 1) s = engineTurn t := by
  induction n generalizing s with
  | zero =>
    cases h
    cases hturn : engineTurn t <;> simp [engineRun, hturn]
  | succ n ih =>
    rw [engineRun] at h ⊢
    cases hturn : engineTurn s with
    | next u => rw [hturn] at h; exact ih h
    | fault r => rw [hturn] at h; cases h
    | refused r => rw [hturn] at h; cases h

/-- EMBD accepted in `s` with its check passed and `k` pixels visited. -/
def State.embdVisited (s : State) (k : Nat) : State :=
  { accept .embd s with checked := true, pix := k, carrier := embedFrom s.carW.toNat s.carrier 0 (s.bits.take k) }

theorem engineEmbd_accept (hfits : s.bits.length ≤ s.capacity) : engineEmbd (accept .embd s) = .next (s.embdVisited 0) :=
  engineEmbd_of_fits (s := accept .embd s) rfl hfits

theorem engineEmbd_embdVisited {k : Nat} (hk : k < s.bits.length) :
    engineEmbd (s.embdVisited k) = .next (s.embdVisited (k + 1)) := by
  have hd : (s.embdVisited k).frm[(s.embdVisited k).pix]? = some s.bits[k] := List.getElem?_eq_getElem hk
  rw [engineEmbd_of_pixel rfl hd, State.embdVisited, State.embdVisited, embedFrom_take_succ _ _ hk]
  rfl

/-- One engine step for the check, then one for each pixel (R182). -/
theorem engineRun_accept_embd {k : Nat} (hfits : s.bits.length ≤ s.capacity) (hk : k ≤ s.bits.length) :
    engineRun (k + 1) (accept .embd s) = .next (s.embdVisited k) := by
  induction k with
  | zero =>
    rw [engineRun_succ rfl]
    exact engineEmbd_accept hfits
  | succ k ih =>
    rw [engineRun_succ (ih (Nat.le_of_succ_le hk))]
    exact engineEmbd_embdVisited hk

/-- Settles O20: after `k` pixels the carrier is that of the frame's first `k` bits embedded, and a reset keeps the carrier. -/
theorem embdVisitsOnePixelAStep : Obligations.EmbdVisitsOnePixelAStep := fun s k _ hfits hk => by
  have hlen : (s.bits.take k).length = k := List.length_take_of_le hk
  refine ⟨s.embdVisited k, engineRun_accept_embd hfits hk, rfl, rfl, rfl, rfl, rfl, fun i hi hik => ?_, fun a ha => ?_, rfl⟩
  · have hblue := read_embedFrom_blue s.carrier (hlen.symm ▸ hk.trans hfits) i (hlen.symm ▸ hik)
    rwa [List.getElem_take] at hblue
  · exact read_embedFrom_not_blue _ _ _ a (hlen.symm ▸ ha)

/-! The command (R181, R184). -/

theorem exec_embd_of_fits (hb : s.busy = false) (hfits : s.bits.length ≤ s.capacity) :
    exec .embd s = .next { s with carrier := embedFrom s.carW.toNat s.carrier 0 s.bits }.complete := by
  have hsteps : s.stepBound = s.capacity - s.bits.length + 1 + s.bits.length + 1 := by rw [State.stepBound]; omega
  calc exec .embd s
    _ = drive engineEmbd s.stepBound (accept .embd s) := runCommand_idle hb
    _ = drive engineEmbd (s.capacity - s.bits.length + 1 + s.bits.length) (s.embdVisited 0) := by
      rw [hsteps, drive_more (engineEmbd_accept hfits) rfl]
    _ = drive engineEmbd (s.capacity - s.bits.length + 1)
          { s.embdVisited 0 with
            carrier := embedFrom s.carW.toNat s.carrier 0 s.bits, pix := 0 + s.bits.length } :=
      embed_loop engineEmbd (fun _ _ => engineEmbd_of_pixel) _ s.bits (s.embdVisited 0) rfl rfl rfl
    _ = _ := drive_done (engineEmbd_of_done rfl (Nat.le_add_left _ _)) rfl

theorem exec_embd_of_too_long (hb : s.busy = false) (hlong : s.capacity < s.bits.length) :
    exec .embd s = .next (s.raise .insufficientCapacity) :=
  exec_one hb (engineEmbd_of_too_long rfl hlong) rfl

/-- Settles O39: EMBD in its two cases, the carrier byte by byte. -/
theorem embdWritesTheBlueBits : Obligations.EmbdWritesTheBlueBits := fun s hb =>
  ⟨fun hfits => ⟨_, false, exec_embd_of_fits hb hfits, read_embedFrom_blue s.carrier hfits, read_embedFrom_not_blue _ _ _⟩,
    fun hlong => ⟨false, exec_embd_of_too_long hb hlong⟩⟩

end Sys2Proof.Machine
end

section
/-! PROOFS of 44_lsb_pixel_extractor.md R200 to R205: a scan up to its first match, its last pixel or its bound, for EXTR and
RVEL alike; EXTR one engine step at a time, what EXTR leaves, and FPRS after it. -/

namespace Sys2Proof.Machine

variable {s : State} {i : Instr} {found : State → Out}

/-! Turns of the engine, and the command collapsed into one step (R322, R323). -/

theorem engineTurn_of_pend (hp : s.pend = some i) : engineTurn s = engineStep i s := by
  simp [engineTurn, hp]

theorem engineRun_of_idle (hp : s.pend = none) (n : Nat) : engineRun n s = .next s := by
  induction n with
  | zero => rfl
  | succ n ih => simp [engineRun, engineTurn, hp, ih]

/-- Turns of the engine run the command in progress; once it has completed, the turns left over change nothing. -/
theorem engineRun_eq_drive (hp : s.pend = some i) (n : Nat) : engineRun n s = drive (engineStep i) n s := by
  induction n generalizing s with
  | zero => rfl
  | succ n ih =>
    rw [engineRun, engineTurn_of_pend hp, drive]
    cases hstep : engineStep i s with
    | next t =>
      rcases engineStep_pend hstep with hdone | hmore
      · simp [hdone, engineRun_of_idle hdone]
      · simp [hmore.trans hp, ih (hmore.trans hp)]
    | fault r => rfl
    | refused r => rfl

/-! The engine steps of a scan (R202, R203, I1). -/

theorem scanStep_of_found (hx : s.xst = .found) : scanStep found s = found s := by
  simp [scanStep, hx]

theorem scanStep_of_pixel (hx : s.xst = .scanning) (hp : s.pix < s.capacity) (hl : s.raw.length < s.params.maxBits) :
    scanStep found s = .next s.readPixel := by
  simp [scanStep, hx, hp, within_of_le hl]

theorem scanStep_of_full (hx : s.xst = .scanning) (hp : s.pix < s.capacity) (hl : s.params.maxBits ≤ s.raw.length) :
    scanStep found s = .refused .bitsBound := by
  simp [scanStep, hx, hp, within_of_lt (Nat.lt_succ_of_le hl)]

theorem scanStep_of_exhausted (hx : s.xst = .scanning) (hp : s.capacity ≤ s.pix) :
    scanStep found s = .next ({ s with xst := .exhausted }.raise .markerNotFound) := by
  simp [scanStep, hx, Nat.not_lt.2 hp]

/-- Scan `i` accepted in `s` with `k` pixels read, no match among them and `w` in the window. -/
def State.scanned (s : State) (i : Instr) (k : Nat) (w : BitVec 24) : State :=
  { s.begin i with xst := .scanning, raw := blueBits s.carW.toNat s.carrier k, pix := k, win := w, ncnt := k }

/-- Scan `i` accepted in `s` and matched on pixel `j`, counted from 1. -/
def State.scanFound (s : State) (i : Instr) (j : Nat) : State :=
  { s.scanned i j 0x000003 with xst := .found }

/-- Command `i` is a scan, and `found` its completion after a match: EXTR and RVEL differ in that alone (R202, R240). -/
structure ScanCommand (i : Instr) (found : State → Out) : Prop where
  engine : engineStep i = scanStep found
  start : ∀ s, accept i s = s.scanned i 0 0
  completes : ∀ {s t}, found s = .next t → t.pend = none

theorem scanCommand_extr : ScanCommand .extr finishExtr where
  engine := rfl
  start _ := rfl
  completes h := by rw [finishExtr_eq h]; rfl

/-- `k` pixel steps of a scan from its acceptance, none of them a match: `scan_loop` from no pixel read. -/
theorem ScanCommand.drive_scanned (hc : ScanCommand i found) (n : Nat) {k : Nat} (hcap : k ≤ s.capacity)
    (hbits : k ≤ s.params.maxBits)
    (hnone : ∀ j, j ≤ k → ¬ firstMatch s.params.matchMin (blueBits s.carW.toNat s.carrier k) j) :
    ∃ w, drive (engineStep i) (n + k) (accept i s) = drive (engineStep i) n (s.scanned i k w) ∧
      scan s.params.matchMin Detector.start (blueBits s.carW.toNat s.carrier k) = (⟨w, k⟩, false) := by
  have hloop := scan_loop i found hc.engine s k n (s.scanned i 0 0) rfl rfl rfl rfl rfl rfl rfl rfl
  have hpix : (s.scanned i 0 0).pix + k = k := Nat.zero_add k
  rw [hpix] at hloop
  rw [hc.start]
  exact hloop hcap hbits hnone

/-- The pixel step that ends the first marker leaves it in the window. -/
theorem State.readPixel_scanned_of_firstMatch {k : Nat} {w : BitVec 24}
    (hscan : scan s.params.matchMin Detector.start (blueBits s.carW.toNat s.carrier k) = (⟨w, k⟩, false))
    (hmatch : firstMatch s.params.matchMin (blueBits s.carW.toNat s.carrier (k + 1)) (k + 1)) :
    (s.scanned i k w).readPixel = s.scanFound i (k + 1) := by
  obtain ⟨hraw, hdet⟩ := readPixel_eq (s := s.scanned i k w) rfl rfl hscan
  have hwin := (scan_firstMatch hmatch).symm.trans (hraw ▸ hdet)
  simp only [Prod.mk.injEq] at hwin
  obtain ⟨hwin, hx⟩ := hwin
  have hx : (s.scanned i k w).readPixel.xst = .found := by simpa using hx.symm
  calc (s.scanned i k w).readPixel
    _ = { s.scanned i k w with
          raw := (s.scanned i k w).readPixel.raw
          win := (s.scanned i k w).readPixel.detector.win, ncnt := (s.scanned i k w).readPixel.detector.ncnt
          pix := k + 1, xst := (s.scanned i k w).readPixel.xst } := rfl
    _ = s.scanFound i (k + 1) := by rw [hraw, ← hwin, hx]; rfl

/-! A scan run whole (R200, R202, R203, I1). -/

/-- The blue LSBs of the whole carrier, in row-major order (R200). -/
def State.carrierBits (s : State) : Bits := blueBits s.carW.toNat s.carrier s.capacity

theorem State.carrierBits_take {k : Nat} (hk : k ≤ s.capacity) :
    s.carrierBits.take k = blueBits s.carW.toNat s.carrier k := blueBits_take _ _ hk

theorem State.le_capacity_of_firstMatch {m : MatchMin} {j : Nat} (hj : firstMatch m s.carrierBits j) : j ≤ s.capacity := by
  obtain ⟨-, ⟨-, hlen, -⟩, -⟩ := hj
  exact hlen.trans (blueBits_length _ _ _).le

/-- Before the first match no match has ended. -/
theorem no_firstMatch_before {m : MatchMin} {bs : Bits} {j k : Nat} (hj : firstMatch m bs j) (hk : k < j) :
    ∀ l, l ≤ k → ¬ firstMatch m bs l := fun _ hl h => by
  have := firstMatch_unique h hj
  omega

/-- A scan with a first match within the bound reads up to it, and then completes. -/
theorem ScanCommand.exec_of_firstMatch (hc : ScanCommand i found) (hb : s.busy = false) {j : Nat}
    (hj : firstMatch s.params.matchMin s.carrierBits j) (hbits : j ≤ s.params.maxBits) :
    exec i s = found (s.scanFound i j) := by
  have hcap := State.le_capacity_of_firstMatch hj
  obtain ⟨hmin, -, -⟩ := id hj
  have h24 := matchMin_ge s.params.matchMin
  obtain ⟨k, rfl⟩ : ∃ k, j = k + 1 := ⟨j - 1, by omega⟩
  have hmatch := firstMatch_take hj
  rw [State.carrierBits_take hcap] at hmatch
  obtain ⟨w, hdrive, hscan⟩ := hc.drive_scanned (s.capacity - k + 2) (Nat.le_of_succ_le hcap) (Nat.le_of_succ_le hbits)
    (no_firstMatch_of_take (Nat.le_of_succ_le hcap) (no_firstMatch_before hj k.lt_succ_self))
  have hread : engineStep i (s.scanned i k w) = .next (s.scanFound i (k + 1)) := by
    rw [hc.engine, ← State.readPixel_scanned_of_firstMatch hscan hmatch]
    exact scanStep_of_pixel rfl hcap ((blueBits_length _ _ k).trans_lt hbits)
  have hfound : engineStep i (s.scanFound i (k + 1)) = found (s.scanFound i (k + 1)) := by
    rw [hc.engine]
    exact scanStep_of_found rfl
  have hsteps : s.stepBound = s.capacity - k + 2 + k := by rw [State.stepBound]; omega
  calc exec i s
    _ = drive (engineStep i) s.stepBound (accept i s) := by rw [exec_eq_runCommand, runCommand_idle hb]
    _ = drive (engineStep i) (s.capacity - k + 2) (s.scanned i k w) := by rw [hsteps, hdrive]
    _ = drive (engineStep i) (s.capacity - k + 1) (s.scanFound i (k + 1)) := drive_more hread rfl
    _ = found (s.scanFound i (k + 1)) := by
      rw [drive_of_completes fun t h => hc.completes (hfound ▸ h), hfound]

/-- A scan without a match within the bound reads every pixel, and then reports that no marker was found. -/
theorem ScanCommand.exec_of_no_match (hc : ScanCommand i found) (hb : s.busy = false)
    (hnone : ∀ j, ¬ firstMatch s.params.matchMin s.carrierBits j) (hbits : s.capacity ≤ s.params.maxBits) :
    ∃ w, exec i s = .next ({ s.scanned i s.capacity w with xst := .exhausted }.raise .markerNotFound) := by
  obtain ⟨w, hdrive, -⟩ := hc.drive_scanned 2 le_rfl hbits fun j _ => hnone j
  refine ⟨w, ?_⟩
  rw [exec_eq_runCommand, runCommand_idle hb, State.stepBound, Nat.add_comm, hdrive]
  refine drive_done ?_ rfl
  rw [hc.engine]
  exact scanStep_of_exhausted rfl le_rfl

/-- A scan that the bound stops before its first match and before its last pixel is refused. -/
theorem ScanCommand.exec_of_full (hc : ScanCommand i found) (hb : s.busy = false) (hcap : s.params.maxBits < s.capacity)
    (hnone : ∀ j, j ≤ s.params.maxBits → ¬ firstMatch s.params.matchMin s.carrierBits j) :
    exec i s = .refused .bitsBound := by
  obtain ⟨w, hdrive, -⟩ := hc.drive_scanned (s.capacity - s.params.maxBits + 2) hcap.le le_rfl
    (no_firstMatch_of_take hcap.le hnone)
  have hsteps : s.stepBound = s.capacity - s.params.maxBits + 2 + s.params.maxBits := by rw [State.stepBound]; omega
  rw [exec_eq_runCommand, runCommand_idle hb, hsteps, hdrive]
  refine drive_refused ?_
  rw [hc.engine]
  exact scanStep_of_full rfl hcap (blueBits_length _ _ _).ge

/-! EXTR (R201 to R205). -/

/-- Settles O21: turns of the engine are the pixel steps of the scan. -/
theorem extrReadsOnePixelAStep : Obligations.ExtrReadsOnePixelAStep := fun s k _ hcap hbits hnone => by
  obtain ⟨w, hdrive, -⟩ := scanCommand_extr.drive_scanned 0 hcap hbits hnone
  rw [Nat.zero_add, ← engineRun_eq_drive (accept_pend .extr s)] at hdrive
  exact ⟨s.scanned .extr k w, hdrive, rfl, rfl, rfl, rfl, rfl, rfl, rfl, rfl⟩

theorem exec_extr_of_firstMatch (hb : s.busy = false) {j : Nat}
    (hj : firstMatch s.params.matchMin s.carrierBits j) (hbits : j ≤ s.params.maxBits) :
    exec .extr s = .next { s.scanFound .extr j with bits := s.carrierBits.take j }.complete := by
  rw [scanCommand_extr.exec_of_firstMatch hb hj hbits, State.carrierBits_take (State.le_capacity_of_firstMatch hj)]
  rfl

/-- Settles O40: the three ways a scan can end; a completion clears all that the scan set but `XST`, `WIN` and `NCNT`. -/
theorem extrReadsUpToTheFirstMarker : Obligations.ExtrReadsUpToTheFirstMarker := fun s hb => by
  refine ⟨fun j hj hbits => ⟨false, exec_extr_of_firstMatch hb hj hbits⟩, fun hnone hbits => ?_,
    scanCommand_extr.exec_of_full hb⟩
  obtain ⟨w, hexec⟩ := scanCommand_extr.exec_of_no_match hb hnone hbits
  exact ⟨w, false, hexec⟩

/-- EXTR succeeds only with a first match within the bound. -/
theorem firstMatch_of_exec_extr {t : State} (hb : s.busy = false) (h : exec .extr s = .next t) (hok : t.errcode = 0) :
    ∃ j, firstMatch s.params.matchMin s.carrierBits j ∧ j ≤ s.params.maxBits := by
  by_contra! hfar
  rcases Nat.lt_or_ge s.params.maxBits s.capacity with hcap | hcap
  · cases h.symm.trans (scanCommand_extr.exec_of_full hb hcap fun j hle hj => Nat.not_lt.2 hle (hfar j hj))
  · have hnone : ∀ j, ¬ firstMatch s.params.matchMin s.carrierBits j := fun j hj =>
      Nat.not_lt.2 ((State.le_capacity_of_firstMatch hj).trans hcap) (hfar j hj)
    obtain ⟨w, hexec⟩ := scanCommand_extr.exec_of_no_match hb hnone hcap
    cases h.symm.trans hexec
    exact absurd (show (3 : BitVec 3) = 0 from hok) (by decide)

/-- A successful EXTR leaves the block idle, with the first match of `BITS` at the end of `BITS`. -/
theorem exec_extr_ok {t : State} (hb : s.busy = false) (h : exec .extr s = .next t) (hok : t.errcode = 0) :
    t.busy = false ∧ firstMatch t.params.matchMin t.bits t.bits.length := by
  obtain ⟨j, hj, hbits⟩ := firstMatch_of_exec_extr hb h hok
  have hlen : (s.carrierBits.take j).length = j := by
    rw [State.carrierBits_take (State.le_capacity_of_firstMatch hj), blueBits_length]
  have hend : firstMatch s.params.matchMin (s.carrierBits.take j) (s.carrierBits.take j).length := by
    rw [hlen]
    exact firstMatch_take hj
  cases h.symm.trans (exec_extr_of_firstMatch hb hj hbits)
  exact ⟨rfl, hend⟩

/-- Settles O41: the scan of FPRS stops where the bits that EXTR left end, with the marker. -/
theorem fprsAfterExtrStripsTheMarker : Obligations.FprsAfterExtrStripsTheMarker := fun s t hb h hok => by
  obtain ⟨hidle, hend⟩ := exec_extr_ok hb h hok
  have hfprs := (exec_fprs hidle).trans (engineFprs_of_firstMatch hend)
  obtain ⟨-, ⟨h24, -, hmarker⟩, -⟩ := hend
  rw [List.take_length] at hmarker
  exact ⟨h24, hmarker, _, hfprs, rfl, rfl⟩

end Sys2Proof.Machine
end

section
/-! PROOFS of 45_pipelines.md R230 to R244: when HIDE and RVEL succeed, fail or are refused, and what each leaves; the discrete
sequences they stand for; RVEL after HIDE. -/

namespace Sys2Proof.Machine

variable {s t : State}

/-! A sequence of commands (R231, R241). -/

theorem commandSequence_cons_ok {i : Instr} {rest : List Instr} (h : exec i s = .next t) (ht : t.errcode = 0) :
    commandSequence (i :: rest) s = commandSequence rest t := by
  simp [commandSequence, h, ht]

theorem commandSequence_cons_err {i : Instr} {rest : List Instr} (h : exec i s = .next t) (ht : t.errcode ≠ 0) :
    commandSequence (i :: rest) s = .next t := by
  simp only [commandSequence, h, if_neg ht]

theorem CmdError.code_ne_zero (e : CmdError) : e.code ≠ 0 := by cases e <;> decide

theorem State.raise_errcode_ne_zero (s : State) (e : CmdError) : (s.raise e).errcode ≠ 0 := e.code_ne_zero

/-! The frame HIDE prepares (R230). -/

/-- `c` is the message of `s` enciphered: `m` its bits, `k` the password's. -/
structure State.Enciphers (s : State) (m k c : Bits) : Prop where
  message : encodeText s.params.charset s.txt = .ok m
  password : encodeText s.params.charset s.pwd = .ok k
  cipher : applyKey m k = .ok c

section

variable {m k c : Bits}

theorem State.Enciphers.length (h : s.Enciphers m k c) : c.length = 8 * s.txt.length :=
  (applyKey_length h.cipher).trans (encodeText_length h.message)

theorem State.Enciphers.key_length (h : s.Enciphers m k c) : k.length = 8 * s.pwd.length := encodeText_length h.password

theorem State.Enciphers.cipherBits (h : s.Enciphers m k c) : cipherBits s.params.charset s.txt s.pwd = .ok c := by
  rw [Machine.cipherBits, h.message, h.password]
  exact h.cipher

/-- A second XOR with the same key gives the message's bits back (R132). -/
theorem State.Enciphers.decipher (h : s.Enciphers m k c) : applyKey c k = .ok m := by
  obtain ⟨hk, rfl⟩ := applyKey_eq_ok.1 h.cipher
  rw [applyKey_ok hk, xorFrom_xorFrom]

end

/-- An encodable non-empty password has a keystream that is not degenerate. -/
theorem exists_keystream {cs : Charset} {pwd : List Code} (henc : ∀ c ∈ pwd, encChar cs c ≠ none) (hne : pwd ≠ []) :
    ∃ k, encodeText cs pwd = .ok k ∧ k ≠ [] := by
  obtain ⟨k, hk⟩ := encodeText_succeeds_iff.2 henc
  exact ⟨k, hk, (encodeText_eq_nil hk).not.2 hne⟩

theorem State.exists_enciphers (htxt : ∀ c ∈ s.txt, encChar s.params.charset c ≠ none)
    (hpwd : ∀ c ∈ s.pwd, encChar s.params.charset c ≠ none) (hne : s.pwd ≠ []) : ∃ m k c, s.Enciphers m k c := by
  obtain ⟨m, hm⟩ := encodeText_succeeds_iff.2 htxt
  obtain ⟨k, hk, hkey⟩ := exists_keystream hpwd hne
  exact ⟨m, k, xorFrom k 0 m, hm, hk, applyKey_ok hkey⟩

/-! HIDE (R230, R284, I1). -/

/-- HIDE succeeds in `s`, with `c` the cipher bits and `k` the keystream. -/
structure State.Hides (s : State) (m k c : Bits) : Prop extends s.Enciphers m k c where
  frameBound : c.length + 24 ≤ s.params.maxBits
  fits : c.length + 24 ≤ s.capacity
  keyBound : k.length ≤ 8 * s.params.maxPwd

/-- HIDE fails in `s` with this error, the first in the order of R284. -/
inductive State.HideFails (s : State) : CmdError → Prop where
  | message {e : CmdError} (hm : encodeText s.params.charset s.txt = .err e) : s.HideFails e
  | password {m : Bits} {e : CmdError} (hm : encodeText s.params.charset s.txt = .ok m)
    (hk : encodeText s.params.charset s.pwd = .err e) : s.HideFails e
  | key {m : Bits} (hm : encodeText s.params.charset s.txt = .ok m) (hk : encodeText s.params.charset s.pwd = .ok []) :
    s.HideFails .degenerateKey
  | capacity {m k c : Bits} (hc : s.Enciphers m k c) (hbound : c.length + 24 ≤ s.params.maxBits)
    (hlong : s.capacity < c.length + 24) : s.HideFails .insufficientCapacity

/-- What a successful HIDE leaves. -/
def State.hidden (s : State) (k c : Bits) : State :=
  { s with bits := build c, keyb := k, carrier := embedFrom s.carW.toNat s.carrier 0 (build c) }.complete

/-- HIDE accepted in `s` and its frame prepared. -/
def State.hidePrepared (s : State) (c : Bits) : State := { accept .hide s with frm := build c, checked := true }

/-- HIDE prepared in `s`, and every pixel of its frame visited. -/
def State.hideVisited (s : State) (c : Bits) : State :=
  { s.hidePrepared c with carrier := embedFrom s.carW.toNat s.carrier 0 (build c), pix := (build c).length }

theorem prepareHide_of_err {e : CmdError} (h : cipherBits s.params.charset s.txt s.pwd = .err e) :
    prepareHide s = .next (s.raise e) := by
  rw [prepareHide, h]

theorem prepareHide_of_ok {c : Bits} (h : cipherBits s.params.charset s.txt s.pwd = .ok c) :
    prepareHide s = within (c.length + 24) s.params.maxBits .bitsBound
      (if s.capacity < c.length + 24 then .next (s.raise .insufficientCapacity)
        else .next { s with frm := build c, checked := true }) := by
  rw [prepareHide, h, ← build_length]

theorem engineHide_accept : engineHide (accept .hide s) = prepareHide (accept .hide s) := rfl

/-- Step 1 of HIDE with the cipher bits at hand: its bound, then the carrier's room. -/
theorem State.Enciphers.engineHide_accept {m k c : Bits} (h : s.Enciphers m k c) :
    engineHide (accept .hide s) = within (c.length + 24) s.params.maxBits .bitsBound
      (if s.capacity < c.length + 24 then .next (s.raise .insufficientCapacity) else .next (s.hidePrepared c)) :=
  prepareHide_of_ok (s := accept .hide s) h.cipherBits

theorem engineHide_of_pixel {d : Bit} (hc : s.checked = true) (hd : s.frm[s.pix]? = some d) :
    engineHide s = .next (s.embedPixel d) := by
  simp [engineHide, hc, hd]

/-- The pixel steps of HIDE, all at once. -/
theorem drive_hidePrepared {c : Bits} (n : Nat) :
    drive engineHide (n + (build c).length) (s.hidePrepared c) = drive engineHide n (s.hideVisited c) := by
  rw [embed_loop engineHide (fun _ _ => engineHide_of_pixel) n (build c) (s.hidePrepared c) rfl rfl rfl]
  simp [State.hideVisited, State.hidePrepared, accept]

theorem engineHide_hideVisited {c : Bits} : engineHide (s.hideVisited c) = finishHide (s.hideVisited c) := by
  simp [engineHide, State.hideVisited, State.hidePrepared]

theorem finishHide_of_ok {k : Bits} (h : encodeText s.params.charset s.pwd = .ok k) :
    finishHide s = within k.length (8 * s.params.maxPwd) .keybBound (.next { s with bits := s.frm, keyb := k }.complete) := by
  rw [finishHide, h]

section

variable {m k c : Bits}

theorem exec_hide_of_cipher_err {e : CmdError} (hb : s.busy = false)
    (h : cipherBits s.params.charset s.txt s.pwd = .err e) : exec .hide s = .next (s.raise e) :=
  exec_one hb (engineHide_accept.trans (prepareHide_of_err (s := accept .hide s) h)) rfl

theorem exec_hide_of_fails {e : CmdError} (hb : s.busy = false) (h : s.HideFails e) : exec .hide s = .next (s.raise e) := by
  cases h with
  | message hm => exact exec_hide_of_cipher_err hb (by rw [cipherBits, hm])
  | password hm hk => exact exec_hide_of_cipher_err hb (by rw [cipherBits, hm, hk])
  | key hm hk => exact exec_hide_of_cipher_err hb (by rw [cipherBits, hm, hk]; rfl)
  | capacity hc hbound hlong =>
    exact exec_one hb (hc.engineHide_accept.trans ((within_of_le hbound _ _).trans (if_pos hlong))) rfl

theorem exec_hide_of_long_frame (hb : s.busy = false) (hc : s.Enciphers m k c) (hlong : s.params.maxBits < c.length + 24) :
    exec .hide s = .refused .bitsBound :=
  exec_one_refused hb (hc.engineHide_accept.trans (within_of_lt hlong _ _))

/-- A frame that fits its bound and the carrier is embedded, and then HIDE completes. -/
theorem exec_hide_of_fits (hb : s.busy = false) (hc : s.Enciphers m k c) (hbound : c.length + 24 ≤ s.params.maxBits)
    (hfits : c.length + 24 ≤ s.capacity) :
    exec .hide s = within k.length (8 * s.params.maxPwd) .keybBound (.next (s.hidden k c)) := by
  have hprepare : engineHide (accept .hide s) = .next (s.hidePrepared c) :=
    hc.engineHide_accept.trans ((within_of_le hbound _ _).trans (if_neg (Nat.not_lt.2 hfits)))
  have hsteps : s.stepBound = s.capacity - (build c).length + 1 + (build c).length + 1 := by
    rw [State.stepBound, build_length]
    omega
  calc exec .hide s
    _ = drive engineHide s.stepBound (accept .hide s) := runCommand_idle hb
    _ = drive engineHide (s.capacity - (build c).length + 1 + (build c).length) (s.hidePrepared c) := by
      rw [hsteps, drive_more hprepare rfl]
    _ = drive engineHide (s.capacity - (build c).length + 1) (s.hideVisited c) := drive_hidePrepared _
    _ = finishHide (s.hideVisited c) := by
      rw [drive_of_completes fun t h => (finishHide_completed (engineHide_hideVisited ▸ h)).pend, engineHide_hideVisited]
    _ = _ := finishHide_of_ok (s := s.hideVisited c) hc.password

theorem exec_hide_of_hides (hb : s.busy = false) (h : s.Hides m k c) : exec .hide s = .next (s.hidden k c) := by
  rw [exec_hide_of_fits hb h.toEnciphers h.frameBound h.fits, within_of_le h.keyBound]

/-- The cipher bits of a message, or the error HIDE reports for want of them. -/
theorem State.hideFails_or_enciphers (s : State) : (∃ e, s.HideFails e) ∨ ∃ m k c, s.Enciphers m k c := by
  cases hm : encodeText s.params.charset s.txt with
  | err e => exact .inl ⟨e, .message hm⟩
  | ok m =>
    cases hk : encodeText s.params.charset s.pwd with
    | err e => exact .inl ⟨e, .password hm hk⟩
    | ok k =>
      by_cases hnil : k = []
      · exact .inl ⟨_, .key hm (hnil ▸ hk)⟩
      · exact .inr ⟨m, k, _, hm, hk, applyKey_ok hnil⟩

/-- A HIDE that answers has failed as R284 orders, or has succeeded. -/
theorem exec_hide_cases (hb : s.busy = false) (h : exec .hide s = .next t) :
    (∃ e, s.HideFails e ∧ t = s.raise e) ∨ (∃ m k c, s.Hides m k c ∧ t = s.hidden k c) := by
  obtain ⟨e, he⟩ | ⟨m, k, c, hc⟩ := s.hideFails_or_enciphers
  · cases h.symm.trans (exec_hide_of_fails hb he)
    exact .inl ⟨e, he, rfl⟩
  rcases Nat.lt_or_ge s.params.maxBits (c.length + 24) with hlong | hbound
  · cases h.symm.trans (exec_hide_of_long_frame hb hc hlong)
  rcases Nat.lt_or_ge s.capacity (c.length + 24) with hlong | hfits
  · have he := State.HideFails.capacity hc hbound hlong
    cases h.symm.trans (exec_hide_of_fails hb he)
    exact .inl ⟨_, he, rfl⟩
  · obtain ⟨hkey, hnext⟩ := within_eq_next.1 ((exec_hide_of_fits hb hc hbound hfits).symm.trans h)
    cases hnext
    exact .inr ⟨m, k, c, ⟨hc, hbound, hfits, hkey⟩, rfl⟩

/-- A HIDE that succeeds has hidden the cipher bits of its message. -/
theorem exec_hide_ok (hb : s.busy = false) (h : exec .hide s = .next t) (hok : t.errcode = 0) (hc : s.Enciphers m k c) :
    s.Hides m k c ∧ t = s.hidden k c := by
  rcases exec_hide_cases hb h with ⟨e, -, rfl⟩ | ⟨m', k', c', hh, rfl⟩
  · exact absurd hok (s.raise_errcode_ne_zero e)
  · cases hh.message.symm.trans hc.message
    cases hh.password.symm.trans hc.password
    cases hh.cipher.symm.trans hc.cipher
    exact ⟨hh, rfl⟩

end

/-- Settles O42: the carrier of a successful HIDE, byte by byte as for EMBD. -/
theorem hideEmbedsTheEncipheredFrame : Obligations.HideEmbedsTheEncipheredFrame :=
  fun s m k c hb hm hk hc hbound hfits hkey => by
  have hlen : (c ++ marker).length = c.length + 24 := build_length c
  refine ⟨_, false, exec_hide_of_hides hb ⟨⟨hm, hk, hc⟩, hbound, hfits, hkey⟩, ?_, fun a ha => ?_⟩
  · exact read_embedFrom_blue s.carrier (hlen.trans_le hfits)
  · exact read_embedFrom_not_blue _ _ _ a (hlen ▸ ha)

/-- Settles O43: each clause is one way for HIDE to fail or to be refused. -/
theorem hideReportsTheFirstError : Obligations.HideReportsTheFirstError := fun s hb => by
  refine ⟨fun hm => ⟨false, exec_hide_of_fails hb (.message (encodeText_eq_unencodable_iff.2 hm))⟩, fun hm hk => ?_,
    fun hm hk => ?_, fun hm hk hne => ?_⟩
  · obtain ⟨m, hm⟩ := encodeText_succeeds_iff.2 hm
    exact ⟨false, exec_hide_of_fails hb (.password hm (encodeText_eq_unencodable_iff.2 hk))⟩
  · obtain ⟨m, hm⟩ := encodeText_succeeds_iff.2 hm
    exact ⟨false, exec_hide_of_fails hb (.key hm (by rw [hk]; rfl))⟩
  · obtain ⟨m, k, c, hc⟩ := State.exists_enciphers hm hk hne
    rw [← hc.length]
    refine ⟨exec_hide_of_long_frame hb hc, fun hbound hlong => ⟨false, ?_⟩, fun hbound hfits hlong => ?_⟩
    · exact exec_hide_of_fails hb (.capacity hc hbound hlong)
    · rw [exec_hide_of_fits hb hc hbound hfits, within_of_lt (by rw [hc.key_length]; omega)]

/-! RVEL (R240, R284, I1). -/

theorem scanCommand_rvel : ScanCommand .rvel finishRvel where
  engine := rfl
  start _ := rfl
  completes h := (finishRvel_completed h).pend

/-- The scan of RVEL in `s` first matches at `j`, within the bound of `RAW`. -/
structure State.Finds (s : State) (j : Nat) : Prop where
  found : firstMatch s.params.matchMin s.carrierBits j
  rawBound : j ≤ s.params.maxBits

/-- RVEL comes to deciphered bits `p` in `s`, with the first match at `j` and `k` the keystream. -/
structure State.Deciphers (s : State) (j : Nat) (k p : Bits) : Prop extends s.Finds j where
  password : encodeText s.params.charset s.pwd = .ok k
  cipher : applyKey (s.carrierBits.take (j - 24)) k = .ok p

/-- RVEL succeeds in `s`. -/
structure State.Reveals (s : State) (j : Nat) (k p : Bits) : Prop extends s.Deciphers j k p where
  txtBound : (j - 24) / 8 ≤ s.params.maxTxt
  keyBound : k.length ≤ 8 * s.params.maxPwd

/-- RVEL fails in `s` with this error, the first in the order of R284, and leaves `XST` so. -/
inductive State.RevealFails (s : State) : Xst → CmdError → Prop where
  | marker (hnone : ∀ j, ¬ firstMatch s.params.matchMin s.carrierBits j) (hbits : s.capacity ≤ s.params.maxBits) :
    s.RevealFails .exhausted .markerNotFound
  | password {j : Nat} {e : CmdError} (hj : s.Finds j) (hk : encodeText s.params.charset s.pwd = .err e) :
    s.RevealFails .found e
  | key {j : Nat} (hj : s.Finds j) (hk : encodeText s.params.charset s.pwd = .ok []) : s.RevealFails .found .degenerateKey

/-- What a successful RVEL leaves. -/
def State.revealed (s : State) (j : Nat) (k p : Bits) : State :=
  { s with
    txt := decodeBits s.params.charset p, bits := p, keyb := k
    xst := .found, win := 0x000003, ncnt := j }.complete

/-- What a failing RVEL leaves: `w` and `n` stand in the detector as its scan ended (log 16). -/
def State.unrevealed (s : State) (x : Xst) (w : BitVec 24) (n : Nat) (e : CmdError) : State :=
  { s with xst := x, win := w, ncnt := n }.raise e

theorem finishRvel_of_password_err {c : Bits} {e : CmdError} (hc : parse s.params.matchMin s.raw = .ok c)
    (hk : encodeText s.params.charset s.pwd = .err e) : finishRvel s = .next (s.raise e) := by
  rw [finishRvel, hc, hk]

theorem finishRvel_of_empty_key {c : Bits} (hc : parse s.params.matchMin s.raw = .ok c)
    (hk : encodeText s.params.charset s.pwd = .ok []) : finishRvel s = .next (s.raise .degenerateKey) := by
  rw [finishRvel, hc, hk]
  rfl

theorem finishRvel_of_ok {c k p : Bits} (hc : parse s.params.matchMin s.raw = .ok c)
    (hk : encodeText s.params.charset s.pwd = .ok k) (hp : applyKey c k = .ok p) :
    finishRvel s = within (c.length / 8) s.params.maxTxt .txtBound
      (within k.length (8 * s.params.maxPwd) .keybBound
        (.next { s with txt := decodeBits s.params.charset p, bits := p, keyb := k }.complete)) := by
  simp only [finishRvel, hc, hk, hp]
  rw [decodeBits_length, applyKey_length hp]

section

variable {j : Nat} {k p : Bits}

/-- The bits before a match, cut from what a scan up to it has read. -/
theorem take_take_before_match (bs : Bits) (j : Nat) : (bs.take j).take (j - 24) = bs.take (j - 24) := by
  rw [List.take_take, Nat.min_eq_left (Nat.sub_le j 24)]

theorem State.Finds.exec_rvel (hj : s.Finds j) (hb : s.busy = false) : exec .rvel s = finishRvel (s.scanFound .rvel j) :=
  scanCommand_rvel.exec_of_firstMatch hb hj.found hj.rawBound

/-- The parse in the completion of RVEL finds the match its scan stopped at (R204). -/
theorem State.Finds.parse_raw (hj : s.Finds j) :
    parse s.params.matchMin (s.scanFound .rvel j).raw = .ok (s.carrierBits.take (j - 24)) := by
  have hraw : (s.scanFound .rvel j).raw = s.carrierBits.take j :=
    (State.carrierBits_take (State.le_capacity_of_firstMatch hj.found)).symm
  rw [hraw, parse_of_firstMatch (firstMatch_take hj.found), take_take_before_match]

theorem State.Finds.length_take (hj : s.Finds j) : (s.carrierBits.take (j - 24)).length = j - 24 := by
  rw [State.carrierBits_take ((Nat.sub_le j 24).trans (State.le_capacity_of_firstMatch hj.found)), blueBits_length]

theorem exec_rvel_of_fails {x : Xst} {e : CmdError} (hb : s.busy = false) (h : s.RevealFails x e) :
    ∃ w n, exec .rvel s = .next (s.unrevealed x w n e) := by
  cases h with
  | marker hnone hbits =>
    obtain ⟨w, hexec⟩ := scanCommand_rvel.exec_of_no_match hb hnone hbits
    exact ⟨w, s.capacity, hexec⟩
  | @password j _ hj hk =>
    exact ⟨0x000003, j, (hj.exec_rvel hb).trans
      (finishRvel_of_password_err (s := s.scanFound .rvel j) hj.parse_raw hk)⟩
  | @key j hj hk =>
    exact ⟨0x000003, j, (hj.exec_rvel hb).trans (finishRvel_of_empty_key (s := s.scanFound .rvel j) hj.parse_raw hk)⟩

theorem exec_rvel_of_deciphers (hb : s.busy = false) (h : s.Deciphers j k p) :
    exec .rvel s = within ((j - 24) / 8) s.params.maxTxt .txtBound
      (within k.length (8 * s.params.maxPwd) .keybBound (.next (s.revealed j k p))) := by
  rw [h.exec_rvel hb, finishRvel_of_ok (s := s.scanFound .rvel j) h.parse_raw h.password h.cipher, h.length_take]
  rfl

theorem exec_rvel_of_reveals (hb : s.busy = false) (h : s.Reveals j k p) : exec .rvel s = .next (s.revealed j k p) := by
  rw [exec_rvel_of_deciphers hb h.toDeciphers, within_of_le h.txtBound, within_of_le h.keyBound]

/-- A scan that meets a match within the bound of `RAW`, no match at all, or the bound. -/
theorem State.finds_cases (s : State) :
    (∃ j, s.Finds j) ∨
    ((∀ j, ¬ firstMatch s.params.matchMin s.carrierBits j) ∧ s.capacity ≤ s.params.maxBits) ∨
    (s.params.maxBits < s.capacity ∧ ∀ j, j ≤ s.params.maxBits → ¬ firstMatch s.params.matchMin s.carrierBits j) := by
  by_cases hfound : ∃ j, s.Finds j
  · exact .inl hfound
  have hnone : ∀ j, j ≤ s.params.maxBits → ¬ firstMatch s.params.matchMin s.carrierBits j :=
    fun j hbits hj => hfound ⟨j, hj, hbits⟩
  rcases Nat.lt_or_ge s.params.maxBits s.capacity with hcap | hcap
  · exact .inr (.inr ⟨hcap, hnone⟩)
  · exact .inr (.inl ⟨fun j hj => hnone j ((State.le_capacity_of_firstMatch hj).trans hcap) hj, hcap⟩)

/-- With a match, the deciphered bits, or the error RVEL reports for want of them. -/
theorem State.Finds.revealFails_or_deciphers (hj : s.Finds j) :
    (∃ e, s.RevealFails .found e) ∨ ∃ k p, s.Deciphers j k p := by
  cases hk : encodeText s.params.charset s.pwd with
  | err e => exact .inl ⟨e, .password hj hk⟩
  | ok k =>
    by_cases hnil : k = []
    · exact .inl ⟨_, .key hj (hnil ▸ hk)⟩
    · exact .inr ⟨k, _, hj, hk, applyKey_ok hnil⟩

/-- An RVEL that answers has failed as R284 orders, or has succeeded. -/
theorem exec_rvel_cases (hb : s.busy = false) (h : exec .rvel s = .next t) :
    (∃ x w n e, s.RevealFails x e ∧ t = s.unrevealed x w n e) ∨ (∃ j k p, s.Reveals j k p ∧ t = s.revealed j k p) := by
  have hfails {x e} (he : s.RevealFails x e) : ∃ x w n e, s.RevealFails x e ∧ t = s.unrevealed x w n e := by
    obtain ⟨w, n, hexec⟩ := exec_rvel_of_fails hb he
    cases h.symm.trans hexec
    exact ⟨x, w, n, e, he, rfl⟩
  obtain ⟨j, hj⟩ | ⟨hnone, hcap⟩ | ⟨hcap, hnone⟩ := s.finds_cases
  · obtain ⟨e, he⟩ | ⟨k, p, hd⟩ := hj.revealFails_or_deciphers
    · exact .inl (hfails he)
    · obtain ⟨htxt, hrest⟩ := within_eq_next.1 ((exec_rvel_of_deciphers hb hd).symm.trans h)
      obtain ⟨hkey, hrest⟩ := within_eq_next.1 hrest
      cases hrest
      exact .inr ⟨j, k, p, ⟨hd, htxt, hkey⟩, rfl⟩
  · exact .inl (hfails (.marker hnone hcap))
  · cases h.symm.trans (scanCommand_rvel.exec_of_full hb hcap hnone)

/-- An RVEL that succeeds has revealed what stands before the first match. -/
theorem exec_rvel_ok (hb : s.busy = false) (h : exec .rvel s = .next t) (hok : t.errcode = 0) :
    ∃ j k p, s.Reveals j k p ∧ t = s.revealed j k p := by
  rcases exec_rvel_cases hb h with ⟨x, w, n, e, -, rfl⟩ | hr
  · exact absurd hok (State.raise_errcode_ne_zero _ e)
  · exact hr

end

/-- Settles O44: the bits before the first match are the first blue LSBs of the carrier. -/
theorem rvelRevealsTheMessage : Obligations.RvelRevealsTheMessage := fun s j k p hb hj hbits hk hp htxt hkey => by
  have hcap : j - 24 ≤ s.capacity := (Nat.sub_le j 24).trans (State.le_capacity_of_firstMatch hj)
  have hp : applyKey (s.carrierBits.take (j - 24)) k = .ok p := by rwa [State.carrierBits_take hcap]
  exact ⟨false, exec_rvel_of_reveals hb ⟨⟨⟨hj, hbits⟩, hk, hp⟩, htxt, hkey⟩⟩

/-- Settles O45: each clause is one way for RVEL to fail or to be refused. -/
theorem rvelReportsTheFirstError : Obligations.RvelReportsTheFirstError := fun s hb => by
  have hfails {x e} (he : s.RevealFails x e) : ∃ w n b, exec .rvel s = .next { s with
      xst := x, win := w, ncnt := n
      errcode := e.code, busy := false, pend := none, raw := [], frm := [], pix := 0, checked := b } := by
    obtain ⟨w, n, hexec⟩ := exec_rvel_of_fails hb he
    exact ⟨w, n, false, hexec⟩
  refine ⟨fun hnone hbits => hfails (.marker hnone hbits), fun j hj hbits => ⟨fun hk => ?_, fun hk => ?_,
    fun hk hne => ?_⟩, scanCommand_rvel.exec_of_full hb⟩
  · exact hfails (.password ⟨hj, hbits⟩ (encodeText_eq_unencodable_iff.2 hk))
  · exact hfails (.key ⟨hj, hbits⟩ (by rw [hk]; rfl))
  · obtain ⟨k, hk, hnil⟩ := exists_keystream hk hne
    rw [exec_rvel_of_deciphers hb ⟨⟨hj, hbits⟩, hk, applyKey_ok hnil⟩]
    refine ⟨fun hlong => within_of_lt hlong _ _, fun htxt hlong => ?_⟩
    rw [within_of_le htxt, within_of_lt (by rw [encodeText_length hk]; omega)]

/-! The discrete sequences (R231, R241). -/

section

variable {k c : Bits} {rest : List Instr}

theorem exec_enct_of_ok {m : Bits} (hb : s.busy = false) (hm : encodeText s.params.charset s.txt = .ok m)
    (hbound : m.length ≤ s.params.maxBits) : exec .enct s = .next { s with bits := m }.complete := by
  rw [exec_enct hb, engineEnct_of_ok hm, within_of_le hbound]

theorem exec_enck_of_ok (hb : s.busy = false) (hk : encodeText s.params.charset s.pwd = .ok k)
    (hbound : k.length ≤ 8 * s.params.maxPwd) : exec .enck s = .next { s with keyb := k }.complete := by
  rw [exec_enck hb, engineEnck_of_ok hk, within_of_le hbound]

theorem exec_fbld_of_fits (hb : s.busy = false) (hbound : s.bits.length + 24 ≤ s.params.maxBits) :
    exec .fbld s = .next { s with bits := build s.bits }.complete := by
  rw [exec_fbld hb, engineFbld, build_length, within_of_le hbound]

theorem exec_decb_of_fits (hb : s.busy = false) (hbound : s.bits.length / 8 ≤ s.params.maxTxt) :
    exec .decb s = .next { s with txt := decodeBits s.params.charset s.bits }.complete := by
  rw [exec_decb hb, engineDecb, decodeBits_length, within_of_le hbound]

/-- ENCK and XORK, the part that both sequences share: `BITS` under the keystream of the password. -/
theorem commandSequence_enck_xork_ok (hb : s.busy = false) (hk : encodeText s.params.charset s.pwd = .ok k)
    (hbound : k.length ≤ 8 * s.params.maxPwd) (hc : applyKey s.bits k = .ok c) :
    commandSequence (.enck :: .xork :: rest) s = commandSequence rest { s with bits := c, keyb := k }.complete := by
  rw [commandSequence_cons_ok (exec_enck_of_ok hb hk hbound) rfl]
  exact commandSequence_cons_ok ((exec_xork rfl).trans (engineXork_of_ok hc)) rfl

theorem commandSequence_enck_err {e : CmdError} (hb : s.busy = false) (hk : encodeText s.params.charset s.pwd = .err e) :
    commandSequence (.enck :: rest) s = .next (s.raise e) :=
  commandSequence_cons_err ((exec_enck hb).trans (engineEnck_of_err hk)) (s.raise_errcode_ne_zero e)

/-- An empty password encodes, and XORK finds its keystream degenerate. -/
theorem commandSequence_enck_xork_empty (hb : s.busy = false) (hk : encodeText s.params.charset s.pwd = .ok []) :
    commandSequence (.enck :: .xork :: rest) s = .next ({ s with keyb := [] }.complete.raise .degenerateKey) := by
  rw [commandSequence_cons_ok (exec_enck_of_ok hb hk (Nat.zero_le _)) rfl]
  exact commandSequence_cons_err ((exec_xork rfl).trans (engineXork_of_err rfl)) (State.raise_errcode_ne_zero _ _)

end

/-- The sequence HIDE stands for (R231). -/
abbrev hideSequence : List Instr := [.enct, .enck, .xork, .fbld, .embd]

section

variable {m k c : Bits} (hb : s.busy = false) (htxt : 8 * s.txt.length + 24 ≤ s.params.maxBits)

include hb htxt

theorem commandSequence_enct_ok {rest : List Instr} (hm : encodeText s.params.charset s.txt = .ok m) :
    commandSequence (.enct :: rest) s = commandSequence rest { s with bits := m }.complete :=
  commandSequence_cons_ok (exec_enct_of_ok hb hm (by rw [encodeText_length hm]; omega)) rfl

/-- Up to the frame in `BITS`, the sequence of HIDE is EMBD alone. -/
theorem hideSequence_eq_embd (hc : s.Enciphers m k c) (hbound : k.length ≤ 8 * s.params.maxPwd) :
    commandSequence hideSequence s = commandSequence [.embd] { s with bits := build c, keyb := k }.complete := by
  rw [commandSequence_enct_ok hb htxt hc.message,
    commandSequence_enck_xork_ok (s := State.complete { s with bits := m }) rfl hc.password hbound hc.cipher]
  exact commandSequence_cons_ok (exec_fbld_of_fits rfl (hc.length ▸ htxt)) rfl

theorem hideSequence_of_hides (h : s.Hides m k c) : commandSequence hideSequence s = .next (s.hidden k c) := by
  rw [hideSequence_eq_embd hb htxt h.toEnciphers h.keyBound,
    commandSequence_cons_ok (exec_embd_of_fits rfl ((build_length c).trans_le h.fits)) rfl]
  rfl

theorem hideSequence_of_fails {e : CmdError} (hpwd : s.pwd.length ≤ s.params.maxPwd) (h : s.HideFails e) :
    ∃ u : State, commandSequence hideSequence s = .next (u.raise e) ∧ u.carrier = s.carrier := by
  cases h with
  | message hm =>
    exact ⟨s, commandSequence_cons_err ((exec_enct hb).trans (engineEnct_of_err hm)) (s.raise_errcode_ne_zero _), rfl⟩
  | password hm hk =>
    rw [commandSequence_enct_ok hb htxt hm]
    exact ⟨_, commandSequence_enck_err rfl hk, rfl⟩
  | key hm hk =>
    rw [commandSequence_enct_ok hb htxt hm]
    exact ⟨_, commandSequence_enck_xork_empty rfl hk, rfl⟩
  | capacity hc _ hlong =>
    rw [hideSequence_eq_embd hb htxt hc (by rw [hc.key_length]; omega)]
    exact ⟨_, commandSequence_cons_err (exec_embd_of_too_long rfl (hlong.trans_eq (build_length _).symm))
      (State.raise_errcode_ne_zero _ _), rfl⟩

end

/-- Settles O46: a HIDE that answers has failed or succeeded, and so has its sequence, in the same way. -/
theorem hideIsTheDiscreteSequence : Obligations.HideIsTheDiscreteSequence := fun s t hb htxt hpwd h => by
  rcases exec_hide_cases hb h with ⟨e, he, rfl⟩ | ⟨m, k, c, hh, rfl⟩
  · obtain ⟨u, hseq, hcarrier⟩ := hideSequence_of_fails hb htxt hpwd he
    exact ⟨fun hok => absurd hok (s.raise_errcode_ne_zero e), fun _ => ⟨_, hseq, rfl, hcarrier, rfl, rfl, rfl, rfl⟩⟩
  · exact ⟨fun _ => hideSequence_of_hides hb htxt hh, fun hne => absurd rfl hne⟩

/-- The sequence RVEL stands for (R241). -/
abbrev rvelSequence : List Instr := [.extr, .fprs, .enck, .xork, .decb]

/-- What EXTR and then FPRS leave in `s`, with the first match at `j`. -/
def State.parsed (s : State) (j : Nat) : State :=
  { s with bits := s.carrierBits.take (j - 24), xst := .found, win := 0x000003, ncnt := j }.complete

section

variable {j : Nat} {k p : Bits} (hb : s.busy = false)

include hb

/-- FPRS cuts what EXTR left before the match that EXTR stopped at (R204). -/
theorem commandSequence_extr_fprs {rest : List Instr} (hj : s.Finds j) :
    commandSequence (.extr :: .fprs :: rest) s = commandSequence rest (s.parsed j) := by
  have hfprs := engineFprs_of_firstMatch (s := { s.scanFound .extr j with bits := s.carrierBits.take j }.complete)
    (firstMatch_take hj.found)
  rw [commandSequence_cons_ok (exec_extr_of_firstMatch hb hj.found hj.rawBound) rfl,
    commandSequence_cons_ok ((exec_fprs rfl).trans hfprs) rfl, State.parsed, ← take_take_before_match s.carrierBits j]
  rfl

theorem rvelSequence_of_reveals (h : s.Reveals j k p) : commandSequence rvelSequence s = .next (s.revealed j k p) := by
  have hlen : p.length / 8 ≤ s.params.maxTxt := by
    rw [applyKey_length h.cipher, h.length_take]
    exact h.txtBound
  rw [commandSequence_extr_fprs hb h.toFinds,
    commandSequence_enck_xork_ok (s := s.parsed j) rfl h.password h.keyBound h.cipher,
    commandSequence_cons_ok (exec_decb_of_fits rfl hlen) rfl]
  rfl

theorem rvelSequence_of_fails {x : Xst} {e : CmdError} (h : s.RevealFails x e) :
    ∃ u : State, commandSequence rvelSequence s = .next (u.raise e) ∧ u.xst = x ∧ u.carrier = s.carrier := by
  cases h with
  | marker hnone hbits =>
    obtain ⟨w, hexec⟩ := scanCommand_extr.exec_of_no_match hb hnone hbits
    exact ⟨_, commandSequence_cons_err hexec (State.raise_errcode_ne_zero _ _), rfl, rfl⟩
  | password hj hk =>
    rw [commandSequence_extr_fprs hb hj]
    exact ⟨_, commandSequence_enck_err rfl hk, rfl, rfl⟩
  | key hj hk =>
    rw [commandSequence_extr_fprs hb hj]
    exact ⟨_, commandSequence_enck_xork_empty rfl hk, rfl, rfl⟩

end

/-- Settles O47: an RVEL that answers has failed or succeeded, and so has its sequence, in the same way. -/
theorem rvelIsTheDiscreteSequence : Obligations.RvelIsTheDiscreteSequence := fun s t hb h => by
  rcases exec_rvel_cases hb h with ⟨x, w, n, e, he, rfl⟩ | ⟨j, k, p, hr, rfl⟩
  · obtain ⟨u, hseq, hxst, hcarrier⟩ := rvelSequence_of_fails hb he
    exact ⟨fun hok => absurd hok (State.raise_errcode_ne_zero _ e),
      fun _ => ⟨_, hseq, rfl, hxst, hcarrier, rfl, rfl, rfl, rfl⟩⟩
  · exact ⟨fun _ => rvelSequence_of_reveals hb hr, fun hne => absurd rfl hne⟩

/-! RVEL after HIDE (R242, R243). -/

theorem containsMarker_iff_exists_firstMatch {c : Bits} : containsMarker c ↔ ∃ j, firstMatch .fullWindow c j := by
  constructor
  · rintro ⟨j, hj⟩
    obtain ⟨i, -, hi⟩ := exists_firstMatch (m := .fullWindow) hj.1 hj
    exact ⟨i, hi⟩
  · rintro ⟨j, -, hj, -⟩
    exact ⟨j, hj⟩

section

variable {m k c : Bits}

/-- The blue LSBs of the carrier HIDE leaves begin with the frame (R184). -/
theorem State.Hides.carrierBits_hidden (h : s.Hides m k c) :
    (s.hidden k c).carrierBits = build c ++ (s.hidden k c).carrierBits.drop (c.length + 24) := by
  have hw : 0 < s.carW.toNat := Nat.pos_of_mul_pos_right (Nat.lt_of_lt_of_le (Nat.zero_lt_of_lt (Nat.lt_succ_self _)) h.fits)
  have hframe : (s.hidden k c).carrierBits.take (c.length + 24) = build c := by
    rw [State.carrierBits_take (s := s.hidden k c) h.fits, ← build_length c]
    exact blueBits_embedFrom hw (by omega) (build c) s.carrier
  rw [← hframe, List.take_append_drop]

theorem State.Hides.carrierBits_take (h : s.Hides m k c) : (s.hidden k c).carrierBits.take c.length = c := by
  rw [h.carrierBits_hidden, build, List.append_assoc, List.take_left]

/-- Without a collision the scan of RVEL after HIDE stops at the end of the frame. -/
theorem State.Hides.finds_of_no_collision (h : s.Hides m k c) (hmin : s.params.matchMin = .fullWindow)
    (hnone : ¬ containsMarker c) : (s.hidden k c).Finds (c.length + 24) := by
  refine ⟨?_, h.frameBound⟩
  rw [h.carrierBits_hidden]
  refine firstMatch_append (firstMatch_frame (fun j _ hj => hnone ⟨j, hj⟩) ?_)
  exact (congrArg matchMinBits hmin).trans_le (Nat.le_add_left 24 _)

/-- With a collision it stops inside the cipher bits. -/
theorem State.Hides.firstMatch_of_collision (h : s.Hides m k c) {j : Nat} (hj : firstMatch s.params.matchMin c j) :
    firstMatch s.params.matchMin (s.hidden k c).carrierBits j := by
  rw [h.carrierBits_hidden]
  exact firstMatch_append (firstMatch_append hj)

/-- RVEL after a HIDE without a collision, under any password with a keystream: the cipher bits deciphered with it. -/
theorem State.Hides.reveals (h : s.Hides m k c) (hmin : s.params.matchMin = .fullWindow)
    (htxt : s.txt.length ≤ s.params.maxTxt) (hnone : ¬ containsMarker c) {pwd : List Code} {k' p : Bits}
    (hk : encodeText s.params.charset pwd = .ok k') (hp : applyKey c k' = .ok p)
    (hkey : k'.length ≤ 8 * s.params.maxPwd) :
    State.Reveals { s.hidden k c with pwd := pwd } (c.length + 24) k' p where
  toFinds := { h.finds_of_no_collision hmin hnone with }
  password := hk
  cipher := by
    rw [Nat.add_sub_cancel]
    exact h.carrierBits_take.symm ▸ hp
  txtBound := by
    rw [Nat.add_sub_cancel, h.length, Nat.mul_div_cancel_left _ (by decide)]
    exact htxt
  keyBound := hkey

/-- What RVEL finds before a match inside the cipher bits is shorter than the message. -/
theorem State.Hides.txt_ne_of_collision (h : s.Hides m k c) {j i : Nat} {k' p : Bits}
    (hj : firstMatch s.params.matchMin c j) (hr : (s.hidden k c).Reveals i k' p) :
    ((s.hidden k c).revealed i k' p).txt ≠ s.txt := by
  have hij : i = j := firstMatch_unique hr.found (h.firstMatch_of_collision hj)
  obtain ⟨-, ⟨h24, hle, -⟩, -⟩ := hj
  have hlen : ((s.hidden k c).revealed i k' p).txt.length = (i - 24) / 8 := by
    rw [← hr.length_take, ← applyKey_length hr.cipher]
    exact decodeBits_length _ p
  rw [h.length] at hle
  intro htxt
  rw [htxt] at hlen
  omega

end

/-- Settles O48: RVEL stops at the end of the frame, or short of it at the collision. -/
theorem hideThenRvelReturnsTheMessage : Obligations.HideThenRvelReturnsTheMessage :=
  fun s t m k c hb hmin htxt h hok hm hk hc => by
  obtain ⟨hh, rfl⟩ := exec_hide_ok hb h hok ⟨hm, hk, hc⟩
  constructor
  · rintro ⟨u, hu, huok, hutxt⟩ hmarker
    obtain ⟨j, hj⟩ := containsMarker_iff_exists_firstMatch.1 hmarker
    obtain ⟨i, k', p, hr, rfl⟩ := exec_rvel_ok rfl hu huok
    exact hh.txt_ne_of_collision (hmin ▸ hj) hr hutxt
  · intro hnone
    have hr := hh.reveals hmin htxt hnone hk hh.decipher hh.keyBound
    exact ⟨_, exec_rvel_of_reveals rfl hr, rfl, decodeBits_encodeText hm⟩

/-- Settles O49: the scan does not depend on the password, and the other password has a keystream. -/
theorem rvelWithAnotherPasswordStillSucceeds : Obligations.RvelWithAnotherPasswordStillSucceeds :=
  fun s t m k c k' pwd' hb hmin htxt h hok hm hk hc hnone hk' hne hkey => by
  obtain ⟨hh, rfl⟩ := exec_hide_ok hb h hok ⟨hm, hk, hc⟩
  have hp : applyKey c k' = .ok (xorFrom k' 0 c) := applyKey_ok hne
  exact ⟨_, exec_rvel_of_reveals rfl (hh.reveals hmin htxt hnone hk' hp hkey), rfl, rfl, hp, rfl⟩

/-! The working buffers (R244). -/

section

variable {b k₀ : Bits} {txt₀ : List Code}

theorem State.HideFails.with_working_buffers {e : CmdError} (h : s.HideFails e) :
    State.HideFails { s with bits := b, keyb := k₀ } e := by
  cases h with
  | message hm => exact .message hm
  | password hm hk => exact .password hm hk
  | key hm hk => exact .key hm hk
  | capacity hc hbound hlong => exact .capacity { hc with } hbound hlong

theorem State.RevealFails.with_working_buffers {x : Xst} {e : CmdError} (h : s.RevealFails x e) :
    State.RevealFails { s with txt := txt₀, bits := b, keyb := k₀ } x e := by
  cases h with
  | marker hnone hbits => exact .marker hnone hbits
  | password hj hk => exact .password { hj with } hk
  | key hj hk => exact .key { hj with } hk

end

/-- Settles O50: what HIDE and RVEL succeed and fail on speaks of no working buffer, and a success overwrites them all. -/
theorem pathsReadNoWorkingBuffer : Obligations.PathsReadNoWorkingBuffer := by
  refine ⟨fun s t b k₀ hb h => ?_, fun s t b k₀ txt₀ hb h => ?_⟩
  · rcases exec_hide_cases hb h with ⟨e, he, rfl⟩ | ⟨m, k, c, hh, rfl⟩
    · exact ⟨_, exec_hide_of_fails hb he.with_working_buffers, rfl, rfl, rfl,
        fun hok => absurd hok (s.raise_errcode_ne_zero e)⟩
    · have hh' : State.Hides { s with bits := b, keyb := k₀ } m k c := { hh with }
      exact ⟨_, exec_hide_of_hides hb hh', rfl, rfl, rfl, fun _ => rfl⟩
  · rcases exec_rvel_cases hb h with ⟨x, w, n, e, he, rfl⟩ | ⟨j, k, p, hr, rfl⟩
    · obtain ⟨w', n', hexec⟩ := exec_rvel_of_fails (s := { s with txt := txt₀, bits := b, keyb := k₀ }) hb
        he.with_working_buffers
      exact ⟨_, hexec, rfl, rfl, rfl, fun hok => absurd hok (State.raise_errcode_ne_zero _ e)⟩
    · have hr' : State.Reveals { s with txt := txt₀, bits := b, keyb := k₀ } j k p := { hr with }
      exact ⟨_, exec_rvel_of_reveals hb hr', rfl, rfl, rfl, fun _ => rfl⟩

end Sys2Proof.Machine
end

section
/-! PROOFS of 46_host_interface.md R250 to R260: a command written to `CMD`, that every command comes to its completion, and the
host's register and pixel accesses. -/

namespace Sys2Proof.Machine

variable {s t : State}

/-! A write to `CMD` (R252). -/

/-- All that can refuse a write to `CMD` of the idle block: a reserved word (R79). -/
theorem issueCommand_eq_refused {v : Word} {r : Refusal} :
    issueCommand v s = .refused r ↔
      (decode v = .reservedField ∧ r = .reservedField) ∨ (decode v = .reservedOpcode ∧ r = .reservedOpcode) := by
  unfold issueCommand
  cases decode v <;> simp [eq_comm]

/-- A step of a host about to write a register of a busy block records the hazard (R251, R320). -/
theorem step_write_busy {n : Reg} {v : Arg} (hb : s.busy = true) (h : s.aboutTo (.wr n v)) :
    step s = .next s.turnTaken.recordHazard.advance :=
  (step_stmt h).trans (thenAdvance_eq_next.2 ⟨_, hostWrite_eq_next.2 (.inl ⟨hb, rfl⟩), rfl⟩)

theorem step_command {i : Instr} {v : Arg} (hb : s.busy = false) (h : s.aboutTo (.wr 0 v))
    (hd : decode (s.arg v) = .command i) : step s = .next (accept i s.turnTaken).advance :=
  step_write_next hb h (issueCommand_eq_next.2 ⟨i, hd, rfl⟩)

/-- Only the four pixel commands have acceptance actions of their own (R252). -/
theorem accept_eq_begin {i : Instr} (h1 : i ≠ .embd) (h2 : i ≠ .hide) (h3 : i ≠ .extr) (h4 : i ≠ .rvel) (s : State) :
    accept i s = s.begin i := by
  cases i with
  | embd => exact absurd rfl h1
  | hide => exact absurd rfl h2
  | extr => exact absurd rfl h3
  | rvel => exact absurd rfl h4
  | enct | enck | decb | xork | fbld | fprs => rfl

/-- Settles O9: a write to `CMD` is a hazard, a refusal, or the acceptance of the command, and then the next statement. -/
theorem commandWriteIsAccepted : Obligations.CommandWriteIsAccepted := fun s v h => by
  refine ⟨fun hb => ⟨_, step_write_busy hb h, rfl⟩, fun hb hd => ?_, fun hb hd => ?_, fun hb i hd => ⟨false, ?_⟩⟩
  · exact step_write_refused hb h (issueCommand_eq_refused.2 (.inl ⟨hd, rfl⟩))
  · exact step_write_refused hb h (issueCommand_eq_refused.2 (.inr ⟨hd, rfl⟩))
  · have hstep := step_command hb h hd
    refine ⟨fun h1 h2 h3 h4 => ?_, ?_, ?_, ?_⟩
    · rw [hstep, accept_eq_begin h1 h2 h3 h4]; rfl
    · rintro rfl; exact hstep
    · rintro rfl; exact hstep
    · rintro (rfl | rfl) <;> exact hstep

/-! Every command comes to its completion (R253): it never runs out of its step bound (`exec_completed`), and nothing but a
buffer's bound refuses it. -/

/-- A next state, or the refusal of a buffer beyond its bound (I1). -/
inductive NextOrBound : Out → Prop where
  | next (t : State) : NextOrBound (.next t)
  | bits : NextOrBound (.refused .bitsBound)
  | txt : NextOrBound (.refused .txtBound)
  | keyb : NextOrBound (.refused .keybBound)

theorem NextOrBound.within {len bound : Nat} {why : Refusal} {k : Out} (hwhy : NextOrBound (.refused why))
    (hk : NextOrBound k) : NextOrBound (within len bound why k) := by
  unfold Machine.within
  split
  exacts [hk, hwhy]

theorem scanStep_nextOrBound {found : State → Out} (hfound : NextOrBound (found s)) : NextOrBound (scanStep found s) := by
  unfold scanStep
  split
  · exact hfound
  · split
    · exact .within .bits (.next _)
    · exact .next _
  · exact .next _
  · exact .next _

theorem prepareHide_nextOrBound (s : State) : NextOrBound (prepareHide s) := by
  unfold prepareHide
  split
  · exact .next _
  · refine .within .bits ?_
    split <;> exact .next _

theorem finishHide_nextOrBound (s : State) : NextOrBound (finishHide s) := by
  unfold finishHide
  split
  · exact .next _
  · exact .within .keyb (.next _)

theorem finishRvel_nextOrBound (s : State) : NextOrBound (finishRvel s) := by
  unfold finishRvel
  split
  · exact .next _
  · split
    · exact .next _
    · split
      · exact .next _
      · exact .within .txt (.within .keyb (.next _))

theorem engineStep_nextOrBound (i : Instr) (s : State) : NextOrBound (engineStep i s) := by
  cases i with
  | enct =>
    rw [engineStep, engineEnct]
    split
    exacts [.next _, .within .bits (.next _)]
  | enck =>
    rw [engineStep, engineEnck]
    split
    exacts [.next _, .within .keyb (.next _)]
  | decb => exact .within .txt (.next _)
  | xork =>
    rw [engineStep, engineXork]
    split <;> exact .next _
  | fbld => exact .within .bits (.next _)
  | fprs =>
    rw [engineStep, engineFprs]
    split <;> exact .next _
  | embd =>
    rw [engineStep, engineEmbd]
    split <;> split <;> exact .next _
  | extr => exact scanStep_nextOrBound (.next _)
  | hide =>
    rw [engineStep, engineHide]
    split
    · split
      exacts [.next _, finishHide_nextOrBound s]
    · exact prepareHide_nextOrBound s
  | rvel => exact scanStep_nextOrBound (finishRvel_nextOrBound s)

/-- A run stops early only where one of its engine steps does. -/
theorem drive_nextOrBound {eng : State → Out} (heng : ∀ u, NextOrBound (eng u)) (n : Nat) (s : State) :
    NextOrBound (drive eng n s) := by
  induction n generalizing s with
  | zero => exact .next s
  | succ n ih =>
    have hs := heng s
    rw [drive]
    generalize eng s = o at hs ⊢
    cases hs with
    | next t =>
      dsimp only
      split
      exacts [.next t, ih t]
    | bits => exact .bits
    | txt => exact .txt
    | keyb => exact .keyb

theorem exec_nextOrBound (i : Instr) (hb : s.busy = false) : NextOrBound (exec i s) := by
  rw [exec_eq_runCommand, runCommand_idle hb]
  exact drive_nextOrBound (engineStep_nextOrBound i) _ _

/-- Every move of the engine keeps `BUSY` showing whether a command is in progress (R29, R38). -/
theorem State.EngineMove.busy (h : s.EngineMove t) (hs : s.busy = s.pend.isSome) : t.busy = t.pend.isSome := by
  cases h with
  | finish | exhaust => rfl
  | check | embed | read | stall => exact hs

theorem exec_busy_eq_pend {i : Instr} (hb : s.busy = false) (h : exec i s = .next t) : t.busy = t.pend.isSome :=
  exec_keeps (P := fun u => u.busy = u.pend.isSome) hb (fun _ _ hu hp he => (engineStep_move hp he).busy hu)
    (by rw [accept_busy, accept_pend]; rfl) h

/-- Settles O19: a command that answers has completed, and else a bound has refused it. -/
theorem everyCommandCompletes : Obligations.EveryCommandCompletes := fun i s hb => by
  have hrun := exec_nextOrBound i hb
  generalize ho : exec i s = o at hrun ⊢
  cases hrun with
  | next t =>
    have hp := (exec_completed hb ho).pend
    have hbusy : t.busy = false := by rw [exec_busy_eq_pend hb ho, hp]; rfl
    exact .inl ⟨t, rfl, hbusy, hp⟩
  | bits => exact .inr (.inl rfl)
  | txt => exact .inr (.inr (.inl rfl))
  | keyb => exact .inr (.inr (.inr rfl))

/-! The reserved register numbers (R36). -/

theorem reserved_cases : ∀ n : Reg, 13 ≤ n.toNat → n = 13 ∨ n = 14 ∨ n = 15 := by decide

theorem regRead_reserved {n : Reg} (hn : 13 ≤ n.toNat) (s : State) : regRead n s = none := by
  rcases reserved_cases n hn with rfl | rfl | rfl <;> rfl

theorem regWrite_reserved {n : Reg} (hn : 13 ≤ n.toNat) (v : Word) (s : State) :
    regWrite n v s = .refused .reservedRegister := by
  rcases reserved_cases n hn with rfl | rfl | rfl <;> rfl

/-! The host's register reads (R250). -/

theorem lenView_of_lt {n : Nat} (h : n < 2 ^ 32) : lenView n = BitVec.ofNat 32 n := if_pos h

/-- What a data window shows: the element selected, or the default beyond the buffer's end (R35). -/
theorem getD_eq_dite {α : Type} (l : List α) (i : Nat) (d : α) : l.getD i d = if h : i < l.length then l[i] else d := by
  split
  · exact List.getD_eq_getElem l d _
  · rename_i h
    exact List.getD_eq_default l d (Nat.not_lt.1 h)

theorem bitWord_getD (l : Bits) (i : Nat) :
    BitVec.ofNat 32 (l.getD i false).toNat = if h : i < l.length then (if l[i] then 1 else 0) else (0 : Word) := by
  rw [getD_eq_dite]
  split
  · cases l[i] <;> rfl
  · rfl

/-- A step of a host about to read a register of the idle block reads its value. -/
theorem reads_of_regRead {n : Reg} {x : Var} {v : Word} (hb : s.busy = false) (h : s.aboutTo (.rd n x))
    (hv : regRead n s.turnTaken = some v) : s.reads x v :=
  (step_stmt h).trans (thenAdvance_eq_next.2 ⟨_, hostRead_eq_next.2 (.inr ⟨.inl hb, v, hv, rfl⟩), rfl⟩)

theorem step_read_reserved {n : Reg} {x : Var} (hb : s.busy = false) (h : s.aboutTo (.rd n x)) (hn : 13 ≤ n.toNat) :
    step s = .refused .reservedRegister := by
  simp [step_stmt h, hostStmt, hostRead, hb, regRead_reserved hn, thenAdvance]

/-- Settles O11: each read is the value `regRead` gives of that register. -/
theorem hostReadsGiveTheRegisters : Obligations.HostReadsGiveTheRegisters := fun s n x hb h => by
  have read {v : Word} (hv : regRead n s.turnTaken = some v) : s.reads x v := reads_of_regRead hb h hv
  refine ⟨?_, ?_, ?_, ?_, ?_, ?_, ?_, ?_, ?_, ?_, ?_, ?_, ?_, step_read_reserved hb h⟩ <;> rintro rfl
  · exact read rfl
  · exact read rfl
  · exact fun hl => read (congrArg some (lenView_of_lt hl))
  · exact fun hl => read (congrArg some (lenView_of_lt hl))
  · exact fun hl => read (congrArg some (lenView_of_lt hl))
  · exact fun hl => read (congrArg some (lenView_of_lt hl))
  · exact read rfl
  · exact read rfl
  · exact read rfl
  · exact read (congrArg some (getD_eq_dite s.txt _ 0))
  · exact read (congrArg some (getD_eq_dite s.pwd _ 0))
  · exact read (congrArg some (bitWord_getD s.bits _))
  · exact read (congrArg some (bitWord_getD s.keyb _))

/-! The host's other register writes (R251). -/

/-- Settles O14: each write is what `regWrite` does to that register; `CAR_W` and `CAR_H` take the low half of the word. -/
theorem otherRegisterWrites : Obligations.OtherRegisterWrites := fun s n v hb h => by
  have hlow : (s.arg v).setWidth 16 = (s.arg v).extractLsb' 0 16 := BitVec.setWidth_eq_extractLsb' (by decide)
  refine ⟨?_, ?_, ?_, ?_, fun hn => step_write_refused hb h (regWrite_reserved hn _ _)⟩
  · rintro (rfl | rfl | rfl) <;> exact step_write_next hb h rfl
  · rintro rfl
    exact hlow ▸ step_write_next hb h rfl
  · rintro rfl
    exact hlow ▸ step_write_next hb h rfl
  · rintro rfl
    exact step_write_next hb h rfl

/-! The host's pixel accesses (R260). -/

theorem step_pixWr {row col r g b : Arg} (hb : s.busy = false) (h : s.aboutTo (.pixWr row col r g b))
    (hr : (s.arg r).toNat ≤ 255) (hg : (s.arg g).toNat ≤ 255) (hbl : (s.arg b).toNat ≤ 255) :
    step s = .next { s.turnTaken with
      carrier := memWrite s.carrier ⟨(s.arg row).toNat, (s.arg col).toNat⟩
        ⟨(s.arg r).setWidth 8, (s.arg g).setWidth 8, (s.arg b).setWidth 8⟩
      hpc := s.hpc + 1 } := by
  rw [step_stmt h, hostStmt]
  simp only [turnTaken_arg]
  exact thenAdvance_eq_next.2 ⟨_, hostPixWrite_eq_next.2 (.inr ⟨hb, ⟨hr, hg, hbl⟩, rfl⟩), rfl⟩

theorem reads_of_pixRd {row col : Arg} {x : Var} (hb : s.busy = false) (h : s.aboutTo (.pixRd row col x)) :
    s.reads x (pixelWord (memRead s.carrier ⟨(s.arg row).toNat, (s.arg col).toNat⟩)) := by
  rw [State.reads, step_stmt h, hostStmt]
  simp only [turnTaken_arg]
  exact thenAdvance_eq_next.2 ⟨_, hostPixRead_eq_next.2 (.inr ⟨hb, rfl⟩), rfl⟩

/-- Settles O15: the write is one `MemWrite` at a column below 2^32, as every word is, so `memRead_memWrite` gives each pixel. -/
theorem hostPixelAccess : Obligations.HostPixelAccess := fun s hb => by
  refine ⟨fun row col r g b h hr hg hbl => ?_, fun row col x h => reads_of_pixRd hb h⟩
  have hcol : (s.arg col).toNat < 2 ^ 32 := (s.arg col).isLt
  refine ⟨_, step_pixWr hb h hr hg hbl, ?_, fun q hq hne => ?_⟩
  · rw [memRead_memWrite _ _ hcol hcol, if_pos rfl, BitVec.ofNat_toNat, BitVec.ofNat_toNat, BitVec.ofNat_toNat]
  · rw [memRead_memWrite _ _ hcol hq, if_neg hne.symm]

end Sys2Proof.Machine
end

section
/-! PROOFS of 60_exceptions.md R280 to R295 and 70_reset_and_hazards.md R310 to R325: what a failed command leaves, the reset
input and the turns without a step, a command and its engine steps, and the hazards with the marks they leave. -/

namespace Sys2Proof.Machine

variable {s t : State}

/-! A failed command (R282, R283). -/

/-- The extractor state after error `e` of command `i`: a scan that has read every pixel leaves EXHAUSTED, and one that
fails after its match leaves FOUND (R203, R240). -/
def State.xstAfterError (s : State) (i : Instr) (e : CmdError) : Xst :=
  match i with
  | .extr | .rvel => if e = .markerNotFound then .exhausted else .found
  | .enct | .enck | .decb | .xork | .fbld | .fprs | .embd | .hide => s.xst

/-- Command `i` has failed in `s` and left `t`: nothing differs but the status, the cleared registers and the detector. -/
def State.FailsTo (i : Instr) (s t : State) : Prop := ∃ w n e, t = s.unrevealed (s.xstAfterError i e) w n e

theorem exec_embd_failsTo (hb : s.busy = false) (h : exec .embd s = .next t) (hne : t.errcode ≠ 0) : s.FailsTo .embd t := by
  rcases Nat.lt_or_ge s.capacity s.bits.length with hlong | hfits
  · cases h.symm.trans (exec_embd_of_too_long hb hlong)
    exact ⟨s.win, s.ncnt, _, rfl⟩
  · cases h.symm.trans (exec_embd_of_fits hb hfits)
    exact absurd rfl hne

theorem exec_extr_failsTo (hb : s.busy = false) (h : exec .extr s = .next t) (hne : t.errcode ≠ 0) : s.FailsTo .extr t := by
  obtain ⟨j, hj⟩ | ⟨hnone, hcap⟩ | ⟨hcap, hnone⟩ := s.finds_cases
  · cases h.symm.trans (exec_extr_of_firstMatch hb hj.found hj.rawBound)
    exact absurd rfl hne
  · obtain ⟨w, hexec⟩ := scanCommand_extr.exec_of_no_match hb hnone hcap
    cases h.symm.trans hexec
    exact ⟨w, s.capacity, .markerNotFound, rfl⟩
  · cases h.symm.trans (scanCommand_extr.exec_of_full hb hcap hnone)

theorem State.RevealFails.xst_eq {x : Xst} {e : CmdError} (h : s.RevealFails x e) : x = s.xstAfterError .rvel e := by
  cases h with
  | marker | key => rfl
  | password _ hk =>
    rw [(encodeText_err hk).1]
    rfl

/-- A command issued to an idle block that answers with an error has failed so. -/
theorem exec_failsTo {i : Instr} (hb : s.busy = false) (h : exec i s = .next t) (hne : t.errcode ≠ 0) : s.FailsTo i t := by
  cases i with
  | enct =>
    rcases engineEnct_cases (exec_enct hb ▸ h) with ⟨e, -, rfl⟩ | ⟨out, -, -, rfl⟩
    exacts [⟨s.win, s.ncnt, e, rfl⟩, absurd rfl hne]
  | enck =>
    rcases engineEnck_cases (exec_enck hb ▸ h) with ⟨e, -, rfl⟩ | ⟨out, -, -, rfl⟩
    exacts [⟨s.win, s.ncnt, e, rfl⟩, absurd rfl hne]
  | decb =>
    obtain ⟨-, rfl⟩ := engineDecb_cases (exec_decb hb ▸ h)
    exact absurd rfl hne
  | xork =>
    rcases engineXork_cases (exec_xork hb ▸ h) with ⟨e, -, rfl⟩ | ⟨out, -, rfl⟩
    exacts [⟨s.win, s.ncnt, e, rfl⟩, absurd rfl hne]
  | fbld =>
    obtain ⟨-, rfl⟩ := engineFbld_cases (exec_fbld hb ▸ h)
    exact absurd rfl hne
  | fprs =>
    rcases engineFprs_cases (exec_fprs hb ▸ h) with ⟨e, -, rfl⟩ | ⟨out, -, rfl⟩
    exacts [⟨s.scanBits.win, s.scanBits.ncnt, e, rfl⟩, absurd rfl hne]
  | embd => exact exec_embd_failsTo hb h hne
  | extr => exact exec_extr_failsTo hb h hne
  | hide =>
    rcases exec_hide_cases hb h with ⟨e, -, rfl⟩ | ⟨m, k, c, -, rfl⟩
    exacts [⟨s.win, s.ncnt, e, rfl⟩, absurd rfl hne]
  | rvel =>
    rcases exec_rvel_cases hb h with ⟨x, w, n, e, he, rfl⟩ | ⟨j, k, p, -, rfl⟩
    · exact ⟨w, n, e, by rw [he.xst_eq]⟩
    · exact absurd rfl hne

theorem CmdError.code_eq_three_iff (e : CmdError) : e.code = 3 ↔ e = .markerNotFound := by cases e <;> decide

/-- `XST` after an error is a scan's own to set (R282, R283). -/
theorem State.xstAfterError_of_not_scan {i : Instr} (h1 : i ≠ .extr) (h2 : i ≠ .rvel) (e : CmdError) :
    s.xstAfterError i e = s.xst := by
  cases i with
  | extr => exact absurd rfl h1
  | rvel => exact absurd rfl h2
  | enct | enck | decb | xork | fbld | fprs | embd | hide => rfl

theorem State.xstAfterError_of_scan {i : Instr} (hi : i = .extr ∨ i = .rvel) (e : CmdError) :
    s.xstAfterError i e = if e = .markerNotFound then .exhausted else .found := by
  rcases hi with rfl | rfl <;> rfl

/-- Settles O51: what a failed command leaves is written out in `FailsTo`, and code 3 is that of MarkerNotFound alone. -/
theorem errorsArePrecise : Obligations.ErrorsArePrecise := fun i s t hb h hne => by
  obtain ⟨w, n, e, rfl⟩ := exec_failsTo hb h hne
  refine ⟨⟨w, n, false, rfl⟩, fun h1 h2 => State.xstAfterError_of_not_scan h1 h2 e, fun hi => ?_⟩
  have hxst := State.xstAfterError_of_scan (s := s) hi e
  exact ⟨fun h3 => hxst.trans (if_pos (e.code_eq_three_iff.1 h3)),
    fun h3 => hxst.trans (if_neg (mt e.code_eq_three_iff.2 h3))⟩

/-! The reset input, and the turns of an agent without a step (R310, R311, R322, R325). -/

/-- A step of the reset input's turn resets the block (R310). -/
theorem step_reset (h : s.sched.head? = some .reset) : step s = .next s.turnTaken.resetBlock := by
  cases hs : s.sched with
  | nil => simp [hs] at h
  | cons turn rest =>
    have hturn : turn = .reset := by simpa [hs] using h
    simp [step, nextTurn, hs, hturn, takeTurn, State.turnTaken]

/-- Settles O7: the block is reset, and `resetBlock` keeps the carrier. -/
theorem resetInputResetsTheBlockNotTheCarrier : Obligations.ResetInputResetsTheBlockNotTheCarrier := fun _ h =>
  ⟨_, step_reset h, rfl, rfl, rfl, rfl, rfl, rfl, rfl, rfl, rfl, rfl, rfl, rfl, rfl, rfl, rfl, rfl, rfl⟩

theorem step_engine_idle (h : s.enginesTurn) (hp : s.pend = none) : step s = .next s.turnTaken := by
  have hp' : s.turnTaken.pend = none := hp
  simp [step, nextTurn_engine h, takeTurn, engineTurn, hp']

theorem step_host_idle (h : s.hostsTurn) (hidle : s.halted = true ∨ s.prog[s.hpc]? = none) :
    step s = .next s.turnTaken := by
  have hidle' : s.turnTaken.halted = true ∨ s.turnTaken.prog[s.turnTaken.hpc]? = none := hidle
  rw [step, nextTurn_host h, takeTurn, hostTurn]
  rcases hidle' with hh | hp
  · rw [if_pos hh]
  · simp [hp]

/-- Settles O17: neither agent has a step to take. -/
theorem anAgentWithoutAStepChangesNothing : Obligations.AnAgentWithoutAStepChangesNothing := fun _ =>
  ⟨step_engine_idle, step_host_idle⟩

/-! A command collapsed into one step (R322, R323). -/

/-- One turn of the engine from acceptance is all that a command without pixel steps takes. -/
theorem exec_eq_engineRun_one {i : Instr} (hb : s.busy = false) (hone : (accept i s).stepsLeft i = 0) :
    exec i s = engineRun 1 (accept i s) :=
  calc exec i s
    _ = engineStep i (accept i s) := exec_eq_engineStep hb hone
    _ = engineTurn (accept i s) := (engineTurn_of_pend (accept_pend i s)).symm
    _ = engineRun 1 (accept i s) := (engineRun_succ rfl).symm

theorem stepsLeft_accept_of_not_pixel {i : Instr} (h1 : i ≠ .embd) (h2 : i ≠ .extr) (h3 : i ≠ .hide) (h4 : i ≠ .rvel)
    (s : State) : (accept i s).stepsLeft i = 0 := by
  cases i with
  | embd => exact absurd rfl h1
  | extr => exact absurd rfl h2
  | hide => exact absurd rfl h3
  | rvel => exact absurd rfl h4
  | enct | enck | decb | xork | fbld | fprs => rfl

/-- Settles O18: `exec` drives the engine step that each turn of the engine takes, for as many turns. -/
theorem collapsedCommandIsItsEngineSteps : Obligations.CollapsedCommandIsItsEngineSteps := by
  refine ⟨fun i s hb => ⟨?_, fun h1 h2 h3 h4 => ?_⟩, fun i s => step_engine⟩
  · calc exec i s
      _ = drive (engineStep i) s.stepBound (accept i s) := by rw [exec_eq_runCommand, runCommand_idle hb]
      _ = engineRun s.stepBound (accept i s) := (engineRun_eq_drive (accept_pend i s) _).symm
  · exact exec_eq_engineRun_one hb (stepsLeft_accept_of_not_pixel h1 h2 h3 h4 s)

/-! The host's statements while `BUSY = 1` (R250, R251, R260, R320, R321). -/

section

variable (hb : s.busy = true)

include hb

theorem hostStmt_wr_busy (n : Reg) (v : Arg) : hostStmt (.wr n v) s = .next s.recordHazard.advance :=
  thenAdvance_eq_next.2 ⟨_, hostWrite_eq_next.2 (.inl ⟨hb, rfl⟩), rfl⟩

theorem hostStmt_pixWr_busy (row col r g b : Arg) :
    hostStmt (.pixWr row col r g b) s = .next s.recordHazard.advance :=
  thenAdvance_eq_next.2 ⟨_, hostPixWrite_eq_next.2 (.inl ⟨hb, rfl⟩), rfl⟩

theorem hostStmt_rd_busy {n : Reg} (hn : n ≠ 1) (x : Var) : hostStmt (.rd n x) s = .next (s.hazardRead x).advance :=
  thenAdvance_eq_next.2 ⟨_, hostRead_eq_next.2 (.inl ⟨hb, hn, rfl⟩), rfl⟩

theorem hostStmt_pixRd_busy (row col : Arg) (x : Var) :
    hostStmt (.pixRd row col x) s = .next (s.hazardRead x).advance :=
  thenAdvance_eq_next.2 ⟨_, hostPixRead_eq_next.2 (.inl ⟨hb, rfl⟩), rfl⟩

theorem hostStmt_run_busy (x : Var) (v : Arg) : hostStmt (.run x v) s = .next (s.hazardRead x).advance :=
  thenAdvance_eq_next.2 ⟨_, hostRun_eq_next.2 (.inl ⟨hb, rfl⟩), rfl⟩

/-- Every statement that touches the block or the carrier records one hazard. -/
theorem hostStmt_faults_of_hazard {st : Stmt} (hst : st.touchesBlock = true) (h : hostStmt st s = .next t) :
    t.faults = .hostHazard :: s.faults := by
  cases st with
  | wr n v =>
    cases (hostStmt_wr_busy hb n v).symm.trans h
    rfl
  | pixWr row col r g b =>
    cases (hostStmt_pixWr_busy hb row col r g b).symm.trans h
    rfl
  | rd n x =>
    cases (hostStmt_rd_busy hb (by simpa [Stmt.touchesBlock] using hst) x).symm.trans h
    rfl
  | pixRd row col x =>
    cases (hostStmt_pixRd_busy hb row col x).symm.trans h
    rfl
  | run x v =>
    cases (hostStmt_run_busy hb x v).symm.trans h
    rfl
  | andi | shri | addi | beq | bne | jmp | halt => cases hst

end

/-- A read of `STATUS` gives the status word, whether the block is busy or not (R250). -/
theorem hostStmt_rd_status (x : Var) (s : State) : hostStmt (.rd 1 x) s = .next (s.setVar x (statusWord s)).advance :=
  thenAdvance_eq_next.2 ⟨_, hostRead_eq_next.2 (.inr ⟨.inr rfl, _, rfl, rfl⟩), rfl⟩

/-- A statement that leaves the block and the carrier alone always answers. -/
theorem hostStmt_answers_of_local {st : Stmt} (hst : st.touchesBlock = false) (s : State) : ∃ t, hostStmt st s = .next t := by
  cases st with
  | rd n x =>
    obtain rfl : n = 1 := by simpa [Stmt.touchesBlock] using hst
    exact ⟨_, hostStmt_rd_status x s⟩
  | wr | pixWr | pixRd | run => cases hst
  | andi | shri | addi | beq | bne | jmp | halt => exact ⟨_, rfl⟩

/-- Settles O10: each clause is what one kind of statement, a command or the reset input does to a busy block. -/
theorem hostHazardWhileBusy : Obligations.HostHazardWhileBusy := fun s hb => by
  have hb' : s.turnTaken.busy = true := hb
  refine ⟨fun n v h => (step_stmt h).trans (hostStmt_wr_busy hb' n v),
    fun row col r g b h => (step_stmt h).trans (hostStmt_pixWr_busy hb' row col r g b), fun st x h hst => ?_,
    fun i => exec_busy hb, fun x h => (step_stmt h).trans (hostStmt_rd_status x s.turnTaken), fun st h hst => ?_,
    fun h => ⟨_, step_reset h⟩⟩
  · refine ⟨Config.hazardRead s.faults.length, (step_stmt h).trans ?_⟩
    rcases hst with ⟨n, hn, rfl⟩ | ⟨row, col, rfl⟩ | ⟨v, rfl⟩
    exacts [hostStmt_rd_busy hb' hn x, hostStmt_pixRd_busy hb' row col x, hostStmt_run_busy hb' x v]
  · rw [step_stmt h]
    exact hostStmt_answers_of_local hst _

/-! The marks of the faults (R320, R325). -/

theorem regWrite_faults {n : Reg} {v : Word} (h : regWrite n v s = .next t) : t.faults = s.faults := by
  rcases regWrite_cases h with ⟨i, -, rfl⟩ | rfl | ⟨-, rfl⟩ | ⟨-, rfl⟩ | ⟨-, rfl⟩ | rfl | rfl | rfl | rfl | rfl | rfl
  · exact accept_faults i s
  all_goals rfl

/-- A statement records a fault only if it touches the block or the carrier while `BUSY = 1`. -/
theorem hostStmt_faults_of_no_hazard {st : Stmt} (hst : ¬ (s.busy = true ∧ st.touchesBlock = true))
    (h : hostStmt st s = .next t) : t.faults = s.faults := by
  rcases hostStmt_cases h with ⟨x, v, rfl⟩ | ⟨label, rfl⟩ | rfl | ⟨n, v, u, -, hw, rfl⟩ | ⟨p, px, -, rfl⟩ |
    ⟨i, u, x, hb, he, rfl⟩ | ⟨hb, htouch, -⟩
  · rfl
  · rfl
  · rfl
  · exact (regWrite_faults hw : u.faults = s.faults)
  · rfl
  · exact (exec_writesOnlyItsState hb he).faults
  · exact absurd ⟨hb, htouch⟩ hst

/-- The host is about to break R321: the block is busy, and the next statement touches it or the carrier. -/
def State.HazardAhead (s : State) : Prop := s.busy = true ∧ ∃ st, s.aboutTo st ∧ st.touchesBlock = true

theorem step_faults_of_hazard (hz : s.HazardAhead) (h : step s = .next t) : t.faults = .hostHazard :: s.faults := by
  obtain ⟨hb, st, hst, htouch⟩ := hz
  exact hostStmt_faults_of_hazard (s := s.turnTaken) hb htouch ((step_stmt hst).symm.trans h)

theorem step_faults_of_no_hazard (hz : ¬ s.HazardAhead) (h : step s = .next t) : t.faults = s.faults := by
  rcases step_cases h with rfl | rfl | ⟨i, -, -, he⟩ | ⟨st, hst, hs⟩
  · rfl
  · rfl
  · exact (engineStep_faults he : t.faults = s.turnTaken.faults)
  · exact hostStmt_faults_of_no_hazard (s := s.turnTaken) (fun ⟨hb, htouch⟩ => hz ⟨hb, st, hst, htouch⟩) hs

/-- Settles O60: a step records one fault or none, as R321 is broken or not. -/
theorem faultMarksAreKept : Obligations.FaultMarksAreKept := by
  refine ⟨rfl, fun s t h => ?_, fun s t hne h => ?_, fun s => by simp [State.isEnd, and_assoc]⟩
  · by_cases hz : s.HazardAhead
    · exact .inl ⟨step_faults_of_hazard hz h, hz⟩
    · exact .inr ⟨step_faults_of_no_hazard hz h, hz⟩
  · by_cases hz : s.HazardAhead
    · rw [step_faults_of_hazard hz h]
      exact List.cons_ne_nil _ _
    · rwa [step_faults_of_no_hazard hz h]

end Sys2Proof.Machine
end
